-- ==== Sys2Proof/Word.lean ====
section
/-! DEFINITION. The words of the block and the exact value of a floating-point datum
(00_scope.md R9, R10; 20_memory.md R81, R82). -/

namespace Sys2Proof

/-- A control-port word, and the word that holds a binary32 datum (R81, R82). -/
abbrev Word := BitVec 32

/-- A control-port byte address (R80: 12 bits). -/
abbrev Addr := BitVec 12

/-- A byte lane of a byte-addressed host (R82). -/
abbrev Byte := BitVec 8

/-- What a binary32 or binary64 datum is worth. `fin neg m e` is `(-1)^neg · m · 2^e`, so `m = 0`
gives the two zeros. `nan` keeps neither sign nor payload: "the only property of a NaN any rule
uses is `isNaN`" (40_design.md R142). -/
inductive FVal where
  | nan
  | inf (neg : Bool)
  | fin (neg : Bool) (m : Nat) (e : Int)
  deriving DecidableEq, Repr, Inhabited

end Sys2Proof
end

