-- ==== Sys2Proof/Syntax.lean ====
section
/-! DEFINITION. The instructions: one constructor per row of spec/opcode_table.json
(30_encoding.md R110, R115). -/

namespace Sys2Proof

/-- The three port transactions and the four commands. Operands have exactly the widths of their
fields, so every term is one the encoding admits (R111: "Any ADDR value is well-formed"). -/
inductive Instr where
  /-- RD(ADDR): control-port read, 44_control.md R240. -/
  | rd (a : Addr)
  /-- WR(ADDR, DATA): control-port write, R241. -/
  | wr (a : Addr) (v : Word)
  /-- PROC(b32(DATA)): one audio sample, 41_process.md R170. -/
  | proc (x : Word)
  /-- Command NOP, 44_control.md R248. -/
  | nop
  /-- Command UPDATE, 42_update.md R190. -/
  | update
  /-- Command MAG, 43_magnitude.md R220. -/
  | mag
  /-- Command CLEAR, 44_control.md R249. -/
  | clear
  deriving DecidableEq, Repr

end Sys2Proof
end

