-- ==== Sys2Proof/WellFormed.lean ====
section
/-! DEFINITION. The two encoded objects of 30_encoding.md (the 48-bit transaction descriptor and the
32-bit command word), their fields, and the checks that make one ill-formed (R111, R116).
A term of `Instr` needs no check: its operands have exactly their fields' widths. -/

namespace Sys2Proof

/-- The fields of a transaction descriptor (R110). -/
structure Descriptor where
  /-- [47:46]: 00 RD, 01 WR, 10 PROC, 11 reserved. -/
  kind : BitVec 2
  /-- [45:44]: must be 00. -/
  rsv : BitVec 2
  /-- [43:32]: byte address, 0 for PROC. -/
  addr : Addr
  /-- [31:0]: data or sample, 0 for RD. -/
  data : Word
  deriving DecidableEq, Repr

/-- The fields of a command word (R114). -/
structure CommandWord where
  /-- [31:4]: must be 0. -/
  rsv : BitVec 28
  /-- [3:0]. -/
  op : BitVec 4
  deriving DecidableEq, Repr

/-- One encoded object as an agent presents it: a transaction descriptor, or a command word that a
control agent writes to CMD (R110, R114). -/
inductive Packet where
  | descriptor (w : BitVec 48)
  | command (v : Word)
  deriving DecidableEq, Repr

/-- Why an encoded object is ill-formed. The first four are R111's, the last two R116's. -/
inductive Malformed where
  /-- KIND = 11. -/
  | kindReserved
  /-- RSV ≠ 00. -/
  | rsvNonzero
  /-- KIND = 10 with ADDR ≠ 0. -/
  | procAddrNonzero
  /-- KIND = 00 with DATA ≠ 0. -/
  | rdDataNonzero
  /-- command word with RSV ≠ 0. -/
  | commandRsvNonzero
  /-- command word with OP ∈ 0x4..0xF. -/
  | commandOpReserved
  deriving DecidableEq, Repr

/-- The four commands (R115). -/
inductive Command where
  | nop
  | update
  | mag
  | clear
  deriving DecidableEq, Repr

/-- The first check of R111 that a descriptor fails, in the rule's order. -/
def Descriptor.problem (d : Descriptor) : Option Malformed :=
  if d.kind = 3#2 then some .kindReserved
  else if d.rsv ≠ 0#2 then some .rsvNonzero
  else if d.kind = 2#2 ∧ d.addr ≠ 0#12 then some .procAddrNonzero
  else if d.kind = 0#2 ∧ d.data ≠ 0#32 then some .rdDataNonzero
  else none

/-- The first check of R116 that a command word fails, in the order of 44_control.md R247. -/
def CommandWord.problem (c : CommandWord) : Option Malformed :=
  if c.rsv ≠ 0#28 then some .commandRsvNonzero
  else if 4#4 ≤ c.op then some .commandOpReserved
  else none

def Descriptor.wellFormed (d : Descriptor) : Bool := d.problem.isNone

def CommandWord.wellFormed (c : CommandWord) : Bool := c.problem.isNone

end Sys2Proof
end

