-- ==== Sys2Proof/Decode.lean ====
section
/-! DEFINITION. The decoder of 30_encoding.md, total on every 48-bit descriptor and every 32-bit command
word, and the encoder written from the same tables. -/

namespace Sys2Proof

/-- The byte offset of CMD (10_state.md R45). -/
def cmdAddr : Addr := 0x02C#12

/-- The fields of a descriptor word (R110). -/
def descriptorFields (w : BitVec 48) : Descriptor :=
  { kind := w.extractLsb' 46 2, rsv := w.extractLsb' 44 2, addr := w.extractLsb' 32 12,
    data := w.extractLsb' 0 32 }

/-- The fields of a command word (R114). -/
def commandFields (v : Word) : CommandWord :=
  { rsv := v.extractLsb' 4 28, op := v.extractLsb' 0 4 }

/-- R110, R111: "A well-formed descriptor always decodes to exactly one of RD(ADDR), WR(ADDR, DATA)
or PROC(b32(DATA))." -/
def decodeDescriptor (w : BitVec 48) : Except Malformed Instr :=
  let d := descriptorFields w
  match d.problem with
  | some why => .error why
  | none =>
    if d.kind = 0#2 then .ok (.rd d.addr)
    else if d.kind = 1#2 then .ok (.wr d.addr d.data)
    else .ok (.proc d.data)

/-- R115, R116: one of the four commands, or malformed. -/
def decodeCommand (v : Word) : Except Malformed Command :=
  let c := commandFields v
  match c.problem with
  | some why => .error why
  | none =>
    if c.op = 0#4 then .ok .nop
    else if c.op = 1#4 then .ok .update
    else if c.op = 2#4 then .ok .mag
    else .ok .clear

/-- The row of the opcode table a command stands for. -/
def Command.instr : Command → Instr
  | .nop => .nop
  | .update => .update
  | .mag => .mag
  | .clear => .clear

/-- What an encoded object spells. A malformed command word "is still a well-formed WR descriptor"
(R116), so it spells the WR to CMD that carries it. -/
def decode : Packet → Except Malformed Instr
  | .descriptor w => decodeDescriptor w
  | .command v =>
    match decodeCommand v with
    | .ok c => .ok c.instr
    | .error _ => .ok (.wr cmdAddr v)

/-- The encoded object the opcode table's bits stand for: 32 bits for a command word, 48 for a
descriptor. -/
def packetOf (nbits w : Nat) : Packet :=
  if nbits ≤ 32 then .command (BitVec.ofNat 32 w) else .descriptor (BitVec.ofNat 48 w)

/-- The instruction the decoder reads from a row of spec/opcode_table.json. -/
def decodeTableWord (nbits w : Nat) : Option Instr :=
  match decode (packetOf nbits w) with
  | .ok i => some i
  | .error _ => none

/-- A descriptor word from its fields (R110). -/
def descriptorOf (d : Descriptor) : BitVec 48 := d.kind ++ d.rsv ++ d.addr ++ d.data

/-- The command word of a command (R115). -/
def commandWordOf : Command → Word
  | .nop => 0x00000000#32
  | .update => 0x00000001#32
  | .mag => 0x00000002#32
  | .clear => 0x00000003#32

/-- The encoding of an instruction: a descriptor for a transaction, a command word for a command. -/
def encode : Instr → Packet
  | .rd a => .descriptor (descriptorOf ⟨0#2, 0#2, a, 0#32⟩)
  | .wr a v => .descriptor (descriptorOf ⟨1#2, 0#2, a, v⟩)
  | .proc x => .descriptor (descriptorOf ⟨2#2, 0#2, 0#12, x⟩)
  | .nop => .command (commandWordOf .nop)
  | .update => .command (commandWordOf .update)
  | .mag => .command (commandWordOf .mag)
  | .clear => .command (commandWordOf .clear)

/-- The descriptor by which a command word is issued: a WR to CMD (R119, opcode table "issued_as"). -/
def issueDescriptor (v : Word) : BitVec 48 := descriptorOf ⟨1#2, 0#2, cmdAddr, v⟩

end Sys2Proof
end

