-- ==== Sys2Proof/Machine/Float.lean ====
section
/-! DEFINITION. IEEE 754 binary32 and binary64 arithmetic (40_design.md R140 to R143, 00_scope.md R10). Every
operation is computed exactly on `FVal` and then rounded once, to nearest, ties to even. -/

namespace Sys2Proof

/-- A binary interchange format. -/
structure Fmt where
  expBits : Nat
  fracBits : Nat
  deriving DecidableEq, Repr

/-- binary32. -/
def b32 : Fmt := ⟨8, 23⟩

/-- binary64. -/
def b64 : Fmt := ⟨11, 52⟩

/-- The exponent of the least subnormal: every value of the format is a multiple of `2^emin`. -/
def Fmt.emin (f : Fmt) : Int := 2 - 2 ^ (f.expBits - 1) - f.fracBits

/-- The magnitude bits (all but the sign) of an infinity. -/
def Fmt.infMag (f : Fmt) : Nat := (2 ^ f.expBits - 1) * 2 ^ f.fracBits

/-- What a sign and magnitude bits are worth in a format. -/
def Fmt.value (f : Fmt) (neg : Bool) (mag : Nat) : FVal :=
  if mag < f.infMag then
    if mag < 2 ^ f.fracBits then .fin neg mag f.emin
    else .fin neg (2 ^ f.fracBits + mag % 2 ^ f.fracBits) (f.emin + (mag / 2 ^ f.fracBits - 1 : Nat))
  else if mag = f.infMag then .inf neg
  else .nan

/-- `m / 2^d` rounded to an integer, to nearest, ties to even. -/
def roundShift (m d : Nat) : Nat :=
  let q := m / 2 ^ d
  let r := m % 2 ^ d
  if 2 ^ d < 2 * r ∨ (2 * r = 2 ^ d ∧ q % 2 = 1) then q + 1 else q

/-- The exponent of the unit in the last place that `m · 2^e` is rounded to, `m` not 0. -/
def Fmt.ulpExp (f : Fmt) (m : Nat) (e : Int) : Int := max f.emin (e + m.log2 - f.fracBits)

/-- The magnitude bits of `m · 2^e` rounded to nearest, ties to even; an overflow gives the infinity.
A significand that rounds up to the next power of two carries into the exponent field. -/
def Fmt.roundMag (f : Fmt) (m : Nat) (e : Int) : Nat :=
  if m = 0 then 0
  else
    let q := f.ulpExp m e
    let sig := roundShift (m * 2 ^ (e - q).toNat) (q - e).toNat
    min f.infMag ((q - f.emin).toNat * 2 ^ f.fracBits + sig)

def FVal.isNaN : FVal → Bool
  | .nan => true
  | _ => false

def FVal.isFinite : FVal → Bool
  | .fin _ _ _ => true
  | _ => false

/-- A value rounded to a format. -/
def FVal.round (f : Fmt) : FVal → FVal
  | .nan => .nan
  | .inf n => .inf n
  | .fin n m e => f.value n (f.roundMag m e)

/-- `b32(w)` (R10). -/
def val32 (w : Word) : FVal := b32.value w.msb (w.toNat % 2 ^ 31)

/-- `b64(w)`. -/
def val64 (w : BitVec 64) : FVal := b64.value w.msb (w.toNat % 2 ^ 63)

/-- A binary32 word from a sign and magnitude bits. -/
def word32 (neg : Bool) (mag : Nat) : Word := BitVec.ofNat 32 (cond neg (2 ^ 31) 0 + mag)

/-- `enc32(round32(v))` (R10). Where the value is a NaN the word is `drawn`, which the caller draws
(R142). -/
def round32 (drawn : Word) : FVal → Word
  | .nan => drawn
  | .inf n => word32 n b32.infMag
  | .fin n m e => word32 n (b32.roundMag m e)

/-- A NaN word made of drawn bits: sign and payload are the draw's, and every NaN word is made by some
draw. -/
def nanOf (bits : Word) : Word :=
  let frac := bits.extractLsb' 0 23
  bits.extractLsb' 31 1 ++ 0xFF#8 ++ (if frac = 0#23 then 1#23 else frac)

def isNaN32 (w : Word) : Bool := (val32 w).isNaN

def isFinite32 (w : Word) : Bool := (val32 w).isFinite

/-- `-v`: the sign changes and nothing else. -/
def FVal.neg : FVal → FVal
  | .nan => .nan
  | .inf n => .inf !n
  | .fin n m e => .fin (!n) m e

def signedInt (neg : Bool) (m : Nat) : Int := cond neg (-(m : Int)) m

/-- The exact sum. A zero sum is +0 unless both operands are negative zeros. -/
def FVal.add : FVal → FVal → FVal
  | .nan, _ => .nan
  | _, .nan => .nan
  | .inf a, .inf b => if a = b then .inf a else .nan
  | .inf a, .fin _ _ _ => .inf a
  | .fin _ _ _, .inf b => .inf b
  | .fin n m e, .fin n' m' e' =>
    let lo := min e e'
    let sum := signedInt n (m * 2 ^ (e - lo).toNat) + signedInt n' (m' * 2 ^ (e' - lo).toNat)
    if sum = 0 then .fin (n && n') 0 lo else .fin (decide (sum < 0)) sum.natAbs lo

def FVal.sub (a b : FVal) : FVal := a.add b.neg

/-- The exact product. -/
def FVal.mul : FVal → FVal → FVal
  | .nan, _ => .nan
  | _, .nan => .nan
  | .inf a, .inf b => .inf (a ^^ b)
  | .inf a, .fin n m _ => if m = 0 then .nan else .inf (a ^^ n)
  | .fin n m _, .inf b => if m = 0 then .nan else .inf (n ^^ b)
  | .fin n m e, .fin n' m' e' => .fin (n ^^ n') (m * m') (e + e')

/-- `2 · ⌊m / d⌋`, plus 1 where the division leaves a rest: rounds as the exact quotient does when the
quotient is long enough. -/
def stickyQuot (m d : Nat) : Nat := 2 * (m / d) + (if m % d = 0 then 0 else 1)

/-- A quotient that rounds to binary64 as the exact one does: the numerator is scaled so that the quotient
has at least 56 bits, and one bit more says whether anything was cut off. -/
def FVal.div : FVal → FVal → FVal
  | .nan, _ => .nan
  | _, .nan => .nan
  | .inf _, .inf _ => .nan
  | .inf a, .fin n _ _ => .inf (a ^^ n)
  | .fin n _ _, .inf b => .fin (n ^^ b) 0 0
  | .fin n m e, .fin n' m' e' =>
    if m' = 0 then (if m = 0 then .nan else .inf (n ^^ n'))
    else
      let k := 56 + m'.log2
      .fin (n ^^ n') (stickyQuot (m * 2 ^ k) m') (e - e' - k - 1)

/-- The integer square root of `n` below `2^k`, found bit by bit on top of `r`. -/
def isqrtFrom (n : Nat) : (k : Nat) → (r : Nat) → Nat
  | 0, r => r
  | k + 1, r =>
    let r' := r + 2 ^ k
    isqrtFrom n k (if r' * r' ≤ n then r' else r)

def isqrt (n : Nat) : Nat := isqrtFrom n (n.log2 / 2 + 1) 0

/-- A square root that rounds to binary64 as the exact one does (R143: "the correctly rounded square
root"): the radicand is scaled so that its exponent is even and the root has at least 56 bits, and one
bit more says whether anything was cut off. -/
def FVal.sqrt : FVal → FVal
  | .nan => .nan
  | .inf n => if n then .nan else .inf false
  | .fin n m e =>
    if m = 0 then .fin n 0 e
    else if n then .nan
    else
      let k := 110 + (e % 2).toNat
      let r := isqrt (m * 2 ^ k)
      .fin false (2 * r + (if r * r = m * 2 ^ k then 0 else 1)) ((e - k) / 2 - 1)

/-- IEEE `a < b`, false when either operand is NaN (R10). -/
def FVal.lt : FVal → FVal → Bool
  | .nan, _ => false
  | _, .nan => false
  | .inf a, .inf b => a && !b
  | .inf a, .fin _ _ _ => a
  | .fin _ _ _, .inf b => !b
  | .fin n m e, .fin n' m' e' =>
    let lo := min e e'
    decide (signedInt n (m * 2 ^ (e - lo).toNat) < signedInt n' (m' * 2 ^ (e' - lo).toNat))

/-- IEEE `a ≤ b`. -/
def FVal.le (a b : FVal) : Bool := !a.isNaN && !b.isNaN && !(b.lt a)

/-- `v / 2`, exact (R146). -/
def FVal.half : FVal → FVal
  | .fin n m e => .fin n m (e - 1)
  | v => v

def FVal.zero : FVal := .fin false 0 0

/-- `nextDown32` of the positive real `m · 2^e` (R10): "the largest binary32 value strictly less than the
real number v". -/
def nextDown32 (m : Nat) (e : Int) : Word :=
  let mag := b32.roundMag m e
  if (b32.value false mag).lt (.fin false m e) then word32 false mag else word32 false (mag - 1)

/-! ### The audio path's operations (R140, R141) -/

/-- With FTZ = 1 a subnormal binary32 value becomes the zero of its sign (R141). -/
def flush (ftz : Bool) : FVal → FVal
  | .fin n m e => if ftz && decide (m < 2 ^ b32.fracBits) then .fin n 0 e else .fin n m e
  | v => v

/-- One binary32 operation of the audio path: operands flushed, computed exactly, rounded once, the
result flushed. -/
def op32 (ftz : Bool) (exact : FVal → FVal → FVal) (a b : FVal) : FVal :=
  flush ftz ((exact (flush ftz a) (flush ftz b)).round b32)

def add32 (ftz : Bool) : FVal → FVal → FVal := op32 ftz FVal.add

def sub32 (ftz : Bool) : FVal → FVal → FVal := op32 ftz FVal.sub

def mul32 (ftz : Bool) : FVal → FVal → FVal := op32 ftz FVal.mul

/-! ### The binary64 operations of the design and MAG units (R143) -/

/-- A binary32 word widened exactly to binary64. -/
def widen (w : Word) : FVal := (val32 w).round b64

/-- An integer constant in binary64. -/
def int64 (i : Int) : FVal := (FVal.fin (decide (i < 0)) i.natAbs 0).round b64

/-- PI64, the binary64 value nearest π. -/
def pi64 : FVal := val64 0x400921FB54442D18#64

def FVal.add64 (a b : FVal) : FVal := (a.add b).round b64

def FVal.sub64 (a b : FVal) : FVal := (a.sub b).round b64

def FVal.mul64 (a b : FVal) : FVal := (a.mul b).round b64

def FVal.div64 (a b : FVal) : FVal := (a.div b).round b64

def FVal.sqrt64 (a : FVal) : FVal := a.sqrt.round b64

/-- A Libm function applied: its result is a binary64 value. -/
def call64 (g : FVal → FVal) (x : FVal) : FVal := (g x).round b64

end Sys2Proof
end

