-- ==== Sys2Proof/Config.lean ====
section
/-! DEFINITION. The configuration of the block (00_scope.md R7, 92_eei_decisions.md "Open parameters")
and its free values. Configuration is not state (10_state.md R30). Every `opaque` has no body:
nothing in Lean can say what it is. -/

namespace Sys2Proof

/-- The four transcendental functions of the design and MAG units (40_design.md R143). Their
results are rounded to binary64 where they are used (`Machine.call64`), so that whatever these
functions are, a binary64 function is called. -/
structure Libm where
  sin : FVal → FVal
  cos : FVal → FVal
  tan : FVal → FVal
  pow10 : FVal → FVal

/-- FTZ, 0 or 1 (R141, PARAM[8]): flush subnormals to zero on the audio path. -/
opaque Config.ftz : Bool

/-- The open parameter Libm, function by function (R143). -/
opaque Config.libmSin : FVal → FVal

opaque Config.libmCos : FVal → FVal

opaque Config.libmTan : FVal → FVal

opaque Config.libmPow10 : FVal → FVal

def Config.libm : Libm :=
  ⟨Config.libmSin, Config.libmCos, Config.libmTan, Config.libmPow10⟩

/-- The bits of the n-th NaN drawn (R142: "a model draws it"). -/
opaque Config.freeNaN : Nat → Word

/-- The open parameter CTRL_BASE (20_memory.md R84) counted in words, since it is "any 4-byte-aligned
base". No rule of the block depends on it. -/
opaque Config.ctrlBaseWords : Nat

def Config.ctrlBase : Nat := 4 * Config.ctrlBaseWords

end Sys2Proof
end

