-- ==== Sys2Proof/Machine/State.lean ====
section
/-! DEFINITION. The state of one engine instance (10_state.md R30: "exactly the following, and nothing else
is state"), the model's own input and output records, and the state after reset
(70_reset_and_hazards.md R310, R311). -/

namespace Sys2Proof.Machine

open Sys2Proof

/-- A section's coefficients, normalized so that a0 = 1 (10_state.md R53). -/
structure CoefSet where
  b0 : Word
  b1 : Word
  b2 : Word
  a1 : Word
  a2 : Word
  deriving DecidableEq, Repr

/-- A section's two delay-state words (10_state.md R56). -/
structure Delay where
  s1 : Word
  s2 : Word
  deriving DecidableEq, Repr

/-- The designed sets an UPDATE is committing (10_state.md R59, 40_design.md R157): a Peak set, one to four
LowCut sets and one to four HighCut sets. -/
structure Shadow where
  pk : CoefSet
  lc : List CoefSet
  hc : List CoefSet
  deriving DecidableEq, Repr

/-- The sequencer state (10_state.md R59). -/
inductive Seq where
  | idle
  /-- An UPDATE whose next step is step `k` of 42_update.md R194. -/
  | upd (k : Fin 10) (shadow : Shadow) (fsnap : Word)
  /-- A MAG whose completion step (43_magnitude.md R221) is still to come, with its snapshot. -/
  | mag (f : Word) (fs : Word) (ctrl : BitVec 3)
  deriving DecidableEq, Repr

/-- The eight sticky conditions, in the order of their STATUS bits 8 to 15 (60_exceptions.md R280). -/
inductive ErrBit where
  | errFs
  | clampF
  | clampQ
  | errCoef
  | errArg
  | errCmd
  | errBusy
  | errAddr
  deriving DecidableEq, Repr

/-- The atomic events of 20_memory.md R89: a port transaction as an agent presents it, a sequencer step,
a reset. -/
inductive Event where
  | port (p : Packet)
  | sequencer
  | reset
  deriving DecidableEq, Repr

/-- What a port returns (30_encoding.md R112): a word for RD, a sample for PROC. -/
inductive Response where
  | word (v : Word)
  | sample (y : Word)
  deriving DecidableEq, Repr

/-- The state. The fields up to `seq` are the spec's (R30); `draws`, `inbox` and `outbox` are the
model's own: the counter of NaN words drawn (40_design.md R142), the events still to come in their
total order, and the responses returned so far, newest first. -/
structure State where
  ctrl : Word
  lcFreq : Word
  hcFreq : Word
  pkFreq : Word
  pkGain : Word
  pkQ : Word
  slope : Word
  fs : Word
  magFreq : Word
  magResult : Word
  gen : Word
  activeFs : Word
  chg : Bool
  sticky : BitVec 8
  actLC : Vector Bool 4
  actHC : Vector Bool 4
  bank : Vector CoefSet 9
  delay : Vector Delay 9
  seq : Seq
  draws : Nat
  inbox : List Event
  outbox : List Response
  deriving DecidableEq, Repr

/-- No behaviour of the block is a fault: it has no trap (60_exceptions.md R284) and "no behaviour of the
block is `stuck`" (93_implementation_defined.md). Every error sets a sticky bit and the machine goes on.
Nobody raises a fault, which is safe: there is none to raise. -/
inductive Fault where
  deriving DecidableEq, Repr

/-- Why no instruction ran. -/
inductive Refusal where
  /-- An instruction without a meaning: no arm of `exec` raises it any more. Safe. -/
  | notModelled (mnemonic : String)
  /-- Raised by `step` for a descriptor that spells no transaction (30_encoding.md R111, 93 U7: "The
  decoder rejects it, and it never reaches the block"). Safe: the spec gives such a word no event. -/
  | illFormedDescriptor (why : Malformed)
  deriving DecidableEq, Repr

/-- The identity set (1.0, 0, 0, 0, 0) (10_state.md R53). -/
def CoefSet.identity : CoefSet := ⟨0x3F800000#32, 0#32, 0#32, 0#32, 0#32⟩

/-- (+0.0, +0.0) (10_state.md R56). -/
def Delay.zero : Delay := ⟨0#32, 0#32⟩

/-- The machine right after reset (70_reset_and_hazards.md R310, R311). `draws`, `inbox` and `outbox` are
DESIGN CHOICES: logs 1, 2, 3. -/
def State.reset : State where
  ctrl := 0x00000000#32
  lcFreq := 0x41A00000#32
  hcFreq := 0x469C4000#32
  pkFreq := 0x447A0000#32
  pkGain := 0x00000000#32
  pkQ := 0x3F800000#32
  slope := 0x00000000#32
  fs := 0x00000000#32
  magFreq := 0x00000000#32
  magResult := 0x00000000#32
  gen := 0x00000000#32
  activeFs := 0x00000000#32
  chg := false
  sticky := 0#8
  actLC := #v[true, false, false, false]
  actHC := #v[true, false, false, false]
  bank := Vector.replicate 9 CoefSet.identity
  delay := Vector.replicate 9 Delay.zero
  seq := .idle
  draws := 0
  inbox := []
  outbox := []

end Sys2Proof.Machine
end

