-- ==== Sys2Proof/Machine/Flags.lean ====
section
/-! DEFINITION. The flag computations: where each sticky condition stands in STATUS (10_state.md R46), the
STATUS and SEC_ACT words (44_control.md R251), write-1-to-clear (R245), and the conditions the error
bits are raised on (40_design.md R145 to R147). -/

namespace Sys2Proof.Machine

open Sys2Proof

/-- The place of a condition within the sticky byte STATUS[15:8] (60_exceptions.md R280). -/
def ErrBit.index : ErrBit → Nat
  | .errFs => 0
  | .clampF => 1
  | .clampQ => 2
  | .errCoef => 3
  | .errArg => 4
  | .errCmd => 5
  | .errBusy => 6
  | .errAddr => 7

/-- The sticky byte with one condition's bit set. -/
def raiseBit (e : ErrBit) (sticky : BitVec 8) : BitVec 8 := sticky ||| (1#8 <<< e.index)

/-- Write-1-to-clear: bit i of the written word, i in 8..15, clears sticky bit i (R245). -/
def clearBits (v : Word) (sticky : BitVec 8) : BitVec 8 := sticky &&& ~~~(v.extractLsb' 8 8)

/-- BUSY = (seq ≠ Idle) (10_state.md R59). -/
def Seq.busy : Seq → Bool
  | .idle => false
  | .upd _ _ _ => true
  | .mag _ _ _ => true

def bit (b : Bool) : BitVec 1 := BitVec.ofBool b

/-- `{16'b0, sticky[15:8], 6'b0, CHG, BUSY}` (R251). -/
def statusWord (sticky : BitVec 8) (chg busy : Bool) : Word :=
  0#16 ++ sticky ++ 0#6 ++ bit chg ++ bit busy

/-- `{24'b0, act[HC][3..0], act[LC][3..0]}` (R251, 10_state.md R52). -/
def secActWord (lc hc : Vector Bool 4) : Word :=
  0#24 ++ bit hc[3] ++ bit hc[2] ++ bit hc[1] ++ bit hc[0]
    ++ bit lc[3] ++ bit lc[2] ++ bit lc[1] ++ bit lc[0]

/-- `fsValid(fs) = isFinite(fs) ∧ fs > 0` (40_design.md R145). -/
def fsValid (fs : Word) : Bool := isFinite32 fs && FVal.zero.lt (val32 fs)

/-- F_MIN = 1.0 Hz (00_scope.md R7). -/
def fMin : Word := 0x3F800000#32

/-- Q_EPS = 2^-10 (R7). -/
def qEps : Word := 0x3A800000#32

/-- The first half of clampF: NaN and everything below F_MIN become F_MIN (R146). -/
def clampLow (f : Word) : Word :=
  if isNaN32 f || (val32 f).lt (val32 fMin) then fMin else f

/-- The second half: from Nyquist on, the largest binary32 value below Nyquist (R146). The design calls
it for a valid sample rate only, which is positive and finite (log 17). -/
def clampHigh (f fs : Word) : Word :=
  match (val32 fs).half with
  | .fin n m e => if (FVal.fin n m e).le (val32 f) then nextDown32 m e else f
  | _ => f

/-- `clampF(f, fs)`: the clamped frequency, and whether clamping changed the word (R146). -/
def clampF (f fs : Word) : Word × Bool :=
  let f2 := clampHigh (clampLow f) fs
  (f2, f2 != f)

/-- `clampQ(q)` (R147). -/
def clampQ (q : Word) : Word × Bool :=
  if isNaN32 q || (val32 q).le FVal.zero then (qEps, true) else (q, false)

end Sys2Proof.Machine
end

