-- ==== Sys2Proof/Machine/Operands.lean ====
section
/-! DEFINITION. The operand forms (30_encoding.md R117): control-port addresses (20_memory.md R83, R84), the
settings snapshot (40_design.md R144), the bypass bits of CTRL, and the byte lanes of a host (R82). -/

namespace Sys2Proof.Machine

open Sys2Proof

/-- The seven settings registers (44_control.md R242). -/
inductive Setting where
  | lcFreq
  | hcFreq
  | pkFreq
  | pkGain
  | pkQ
  | slope
  | fs
  deriving DecidableEq, Repr

/-- What a control-port address reaches (20_memory.md R83, R84; 10_state.md R36). -/
inductive Place where
  | misaligned
  | unmapped
  | id
  | version
  | ctrl
  | param
  | setting (r : Setting)
  | cmd
  | status
  | chgTake
  | magFreq
  | magResult
  | gen
  | activeFs
  | secAct
  /-- COEF window: word `c` of section `s`; c = 5, 6, 7 read 0 (R54). -/
  | coef (s : Fin 9) (c : Fin 8)
  /-- STATE window: word `j` of section `s` (R57). -/
  | delay (s : Fin 9) (j : Fin 2)
  deriving DecidableEq, Repr

/-- The register at a word-aligned offset below the windows (R36). -/
def registerAt (n : Nat) : Option Place :=
  match n with
  | 0x000 => some .id
  | 0x004 => some .version
  | 0x008 => some .ctrl
  | 0x00C => some .param
  | 0x010 => some (.setting .lcFreq)
  | 0x014 => some (.setting .hcFreq)
  | 0x018 => some (.setting .pkFreq)
  | 0x01C => some (.setting .pkGain)
  | 0x020 => some (.setting .pkQ)
  | 0x024 => some (.setting .slope)
  | 0x028 => some (.setting .fs)
  | 0x02C => some .cmd
  | 0x030 => some .status
  | 0x034 => some .chgTake
  | 0x038 => some .magFreq
  | 0x03C => some .magResult
  | 0x040 => some .gen
  | 0x044 => some .activeFs
  | 0x048 => some .secAct
  | _ => none

/-- The address map of the control port (20_memory.md R83, R84). -/
def placeAt (n : Nat) : Place :=
  if n % 4 ≠ 0 then .misaligned
  else if h : 0x100 ≤ n ∧ n < 0x220 then
    .coef ⟨(n - 0x100) / 32, by omega⟩ ⟨(n - 0x100) % 32 / 4, by omega⟩
  else if h : 0x300 ≤ n ∧ n < 0x348 then
    .delay ⟨(n - 0x300) / 8, by omega⟩ ⟨(n - 0x300) % 8 / 4, by omega⟩
  else (registerAt n).getD .unmapped

def placeOf (a : Addr) : Place := placeAt a.toNat

/-- The snapshot an UPDATE takes (40_design.md R144): the source's ChainSettings, with the slope indices
cut out of SLOPE. -/
structure Snapshot where
  fs : Word
  lcf : Word
  hcf : Word
  pkf : Word
  gdb : Word
  q : Word
  nl : BitVec 2
  nh : BitVec 2
  deriving DecidableEq, Repr

def State.snapshot (s : State) : Snapshot where
  fs := s.fs
  lcf := s.lcFreq
  hcf := s.hcFreq
  pkf := s.pkFreq
  gdb := s.pkGain
  q := s.pkQ
  nl := s.slope.extractLsb' 0 2
  nh := s.slope.extractLsb' 4 2

/-- CTRL[2:0] (43_magnitude.md R220). -/
def State.ctrlBits (s : State) : BitVec 3 := s.ctrl.extractLsb' 0 3

/-- LC_BYP, PK_BYP and HC_BYP (10_state.md R37). -/
def lcBypassed (ctrl : BitVec 3) : Bool := ctrl[0]

def pkBypassed (ctrl : BitVec 3) : Bool := ctrl[1]

def hcBypassed (ctrl : BitVec 3) : Bool := ctrl[2]

/-- The section numbers of the slots of a cut stage (00_scope.md R12, 41_process.md R172). -/
def lcSec (k : Fin 4) : Fin 9 := ⟨k.val, by omega⟩

def hcSec (k : Fin 4) : Fin 9 := ⟨5 + k.val, by omega⟩

def pkSec : Fin 9 := 4

/-- "A section is processed exactly when its stage bit is 0 and, for a cut stage, its act flag is 1."
(41_process.md R174) -/
def processed (ctrl : BitVec 3) (lc hc : Vector Bool 4) (sec : Fin 9) : Bool :=
  if h : sec.val < 4 then !lcBypassed ctrl && lc[sec.val]
  else if h' : 5 ≤ sec.val then !hcBypassed ctrl && hc[sec.val - 5]
  else !pkBypassed ctrl

/-- Byte lane `i` of a word: bits `[8i+7:8i]` (20_memory.md R82). -/
def byteLane (v : Word) (i : Fin 4) : Byte := v.extractLsb' (8 * i.val) 8

/-- The host byte address of lane `i` of the word at offset `a` (R82). -/
def hostAddr (a : Addr) (i : Fin 4) : Nat := Config.ctrlBase + a.toNat + i.val

end Sys2Proof.Machine
end

