-- ==== Sys2Proof/Machine/Ops.lean ====
section
/-! DEFINITION. The shared operations over the state: raising a condition, returning a response, drawing a
NaN, reading a word, storing a setting, zeroing the delay state, gating a command on an idle sequencer.
The block has no exception entry and no return from one (60_exceptions.md R284, R285): raising a sticky
bit (R281) stands in their place. -/

namespace Sys2Proof.Machine

open Sys2Proof

/-- `raise E`: "does exactly `sticky[E] <- 1` in the current event, and nothing else"
(60_exceptions.md R281). -/
def State.raise (s : State) (e : ErrBit) : State := { s with sticky := raiseBit e s.sticky }

/-- `raise E` under a condition. -/
def State.raiseIf (s : State) (c : Bool) (e : ErrBit) : State := if c then s.raise e else s

/-- A port returns a response (30_encoding.md R112). -/
def State.respond (s : State) (r : Response) : State := { s with outbox := r :: s.outbox }

/-- The n-th NaN word drawn (40_design.md R142). -/
def nanWord (n : Nat) : Word := nanOf (Config.freeNaN n)

def State.busy (s : State) : Bool := s.seq.busy

/-- Word `c` of a section in the COEF window (10_state.md R54). -/
def CoefSet.word (c : CoefSet) (i : Fin 8) : Word :=
  match i with
  | 0 => c.b0
  | 1 => c.b1
  | 2 => c.b2
  | 3 => c.a1
  | 4 => c.a2
  | 5 => 0#32
  | 6 => 0#32
  | 7 => 0#32

/-- Word `j` of a section in the STATE window (R57). -/
def Delay.word (d : Delay) (j : Fin 2) : Word :=
  match j with
  | 0 => d.s1
  | 1 => d.s2

def State.setting (s : State) : Setting → Word
  | .lcFreq => s.lcFreq
  | .hcFreq => s.hcFreq
  | .pkFreq => s.pkFreq
  | .pkGain => s.pkGain
  | .pkQ => s.pkQ
  | .slope => s.slope
  | .fs => s.fs

/-- PARAM: NSLOT = 4 in [3:0], channels minus one = 0 in [7:4], FTZ in [8] (10_state.md R35). -/
def paramWord (ftz : Bool) : Word := 0#23 ++ bit ftz ++ 0#4 ++ 4#4

/-- `ReadValue(a)` (44_control.md R251). A read of a misaligned or unmapped address, of CMD, and of a
reserved word returns 0 (R252 to R254). -/
def State.readValue (ftz : Bool) (s : State) : Place → Word
  | .misaligned => 0#32
  | .unmapped => 0#32
  | .id => 0x42514631#32
  | .version => 0x00010000#32
  | .ctrl => s.ctrl
  | .param => paramWord ftz
  | .setting r => s.setting r
  | .cmd => 0#32
  | .status => statusWord s.sticky s.chg s.busy
  | .chgTake => 0#31 ++ bit s.chg
  | .magFreq => s.magFreq
  | .magResult => s.magResult
  | .gen => s.gen
  | .activeFs => s.activeFs
  | .secAct => secActWord s.actLC s.actHC
  | .coef sec c => s.bank[sec].word c
  | .delay sec j => s.delay[sec].word j

/-- The side effect of a read: CHG_TAKE clears CHG (R250), a bad address raises ERR_ADDR (R254), and
"every other RD leaves all state unchanged" (20_memory.md R88). -/
def State.readEffect (s : State) : Place → State
  | .misaligned => s.raise .errAddr
  | .unmapped => s.raise .errAddr
  | .chgTake => { s with chg := false }
  | _ => s

/-- A WR to a settings register: SLOPE keeps bits 5:4 and 1:0, the others any word, and CHG is set
(R242). -/
def State.storeSetting (s : State) (r : Setting) (v : Word) : State :=
  match r with
  | .lcFreq => { s with lcFreq := v, chg := true }
  | .hcFreq => { s with hcFreq := v, chg := true }
  | .pkFreq => { s with pkFreq := v, chg := true }
  | .pkGain => { s with pkGain := v, chg := true }
  | .pkQ => { s with pkQ := v, chg := true }
  | .slope => { s with slope := v &&& 0x00000033#32, chg := true }
  | .fs => { s with fs := v, chg := true }

/-- A WR to CTRL (R243). -/
def State.storeCtrl (s : State) (v : Word) : State := { s with ctrl := v &&& 0x00000007#32 }

/-- A WR to STATUS (R245). -/
def State.clearSticky (s : State) (v : Word) : State := { s with sticky := clearBits v s.sticky }

/-- Every delay-state word becomes +0.0 (R249). -/
def State.clearDelay (s : State) : State := { s with delay := Vector.replicate 9 Delay.zero }

/-- A command other than NOP is accepted only while the sequencer is idle; else it is dropped with
ERR_BUSY (R247). -/
def State.whenIdle (s : State) (accept : State → State) : State :=
  if s.busy then s.raise .errBusy else accept s

/-- A reset event (70_reset_and_hazards.md R310): the spec's state takes its reset values. The model's
own records are not the block's and go on (log 9). -/
def State.resetEvent (s : State) : State :=
  { State.reset with draws := s.draws, inbox := s.inbox, outbox := s.outbox }

end Sys2Proof.Machine
end

