-- ==== Sys2Proof/Machine/Audio.lean ====
section
/-! DEFINITION. The audio path: the section step, the cut stages, the Peak stage, the chain and PROC
(41_process.md R170 to R178). -/

namespace Sys2Proof.Machine

open Sys2Proof

/-- `y` of the section step (R171): `(b0 ⊗ x) ⊕ s1`. -/
def bqOut (ftz : Bool) (c : CoefSet) (s : Delay) (x : FVal) : FVal :=
  add32 ftz (mul32 ftz (val32 c.b0) x) (val32 s.s1)

/-- `s'.s1`: `((b1 ⊗ x) ⊖ (a1 ⊗ y)) ⊕ s2`. -/
def bqState1 (ftz : Bool) (c : CoefSet) (s : Delay) (x y : FVal) : FVal :=
  add32 ftz (sub32 ftz (mul32 ftz (val32 c.b1) x) (mul32 ftz (val32 c.a1) y)) (val32 s.s2)

/-- `s'.s2`: `(b2 ⊗ x) ⊖ (a2 ⊗ y)`. -/
def bqState2 (ftz : Bool) (c : CoefSet) (x y : FVal) : FVal :=
  sub32 ftz (mul32 ftz (val32 c.b2) x) (mul32 ftz (val32 c.a2) y)

/-- The section step `BQ(c, s, x) -> (y, s')` (R171). The output and the two state words are the visible
results; where one is a NaN its word is the draw of its own number, from `n` on (40_design.md R142).
DEDUCED, log 18: a delay word that holds an infinity, or a NaN in s2 alone, is computed with as R171 says,
so the next output is an infinity, or a NaN only one PROC later, where the derived sentence of
70_reset_and_hazards.md R322 says NaN on every later PROC. -/
def bq (ftz : Bool) (n : Nat) (c : CoefSet) (s : Delay) (x : Word) : Word × Delay :=
  let y := bqOut ftz c s (val32 x)
  (round32 (nanWord n) y,
    ⟨round32 (nanWord (n + 1)) (bqState1 ftz c s (val32 x) y),
     round32 (nanWord (n + 2)) (bqState2 ftz c (val32 x) y)⟩)

/-- How many NaN words one PROC has at its disposal: three for each section. -/
def procDraws : Nat := 27

/-- The sample on its way through the chain, and the delay state. -/
abbrev Flow := Word × Vector Delay 9

/-- One section processes the sample on its way and updates its own delay state. -/
def runSection (ftz : Bool) (n : Nat) (bank : Vector CoefSet 9) (sec : Fin 9) (p : Flow) : Flow :=
  let r := bq ftz (n + 3 * sec.val) bank[sec] p.2[sec] p.1
  (r.1, p.2.set sec.val r.2 sec.isLt)

/-- `Cut(X, x)` (R172): the active slots in increasing order; an inactive slot is identity. -/
def cutStage (ftz : Bool) (n : Nat) (bank : Vector CoefSet 9) (act : Vector Bool 4)
    (secOf : Fin 4 → Fin 9) (p : Flow) : Flow :=
  [0, 1, 2, 3].foldl
    (fun p (k : Fin 4) => if act[k] then runSection ftz n bank (secOf k) p else p) p

/-- `Peak(x)` (R173). -/
def peakStage (ftz : Bool) (n : Nat) (bank : Vector CoefSet 9) (p : Flow) : Flow :=
  runSection ftz n bank pkSec p

/-- `Chain(x)` (R174): LowCut, Peak, HighCut; a stage whose CTRL bit is 1 is identity. -/
def chain (ftz : Bool) (s : State) (x : Word) : Flow :=
  let p0 : Flow := (x, s.delay)
  let p1 := if lcBypassed s.ctrlBits then p0 else cutStage ftz s.draws s.bank s.actLC lcSec p0
  let p2 := if pkBypassed s.ctrlBits then p1 else peakStage ftz s.draws s.bank p1
  if hcBypassed s.ctrlBits then p2 else cutStage ftz s.draws s.bank s.actHC hcSec p2

/-- One PROC as one atomic event (R170, R175): the chain's delay state is written and its sample
returned. -/
def State.process (s : State) (ftz : Bool) (x : Word) : State :=
  let r := chain ftz s x
  { s with delay := r.2, draws := s.draws + procDraws, outbox := .sample r.1 :: s.outbox }

/-- PROC (R170). It never waits and is never refused (R176). -/
def execProc (x : Word) (s : State) : Host.Outcome State Fault Refusal :=
  .next (s.process Config.ftz x)

end Sys2Proof.Machine
end

