-- ==== Sys2Proof/Machine/Design.lean ====
section
/-! DEFINITION. The coefficient design unit (40_design.md R143 to R157). Everything is binary64, each operation
rounded separately in the order its rule writes it; only what is stored is rounded to binary32. -/

namespace Sys2Proof.Machine

open Sys2Proof

/-- A designed set (b0, b1, b2, a1, a2), each value rounded to binary32 (R154). -/
structure CoefVals where
  b0 : FVal
  b1 : FVal
  b2 : FVal
  a1 : FVal
  a2 : FVal
  deriving DecidableEq, Repr

/-- A binary64 set rounded once to binary32. -/
def CoefVals.stored (b0 b1 b2 a1 a2 : FVal) : CoefVals :=
  ⟨b0.round b32, b1.round b32, b2.round b32, a1.round b32, a2.round b32⟩

/-- `normalize(b0, b1, b2, a0, a1, a2)` (R154). -/
def normalize (b0 b1 b2 a0 a1 a2 : FVal) : CoefVals :=
  CoefVals.stored (b0.div64 a0) (b1.div64 a0) (b2.div64 a0) (a1.div64 a0) (a2.div64 a0)

def CoefVals.isFinite (c : CoefVals) : Bool :=
  c.b0.isFinite && c.b1.isFinite && c.b2.isFinite && c.a1.isFinite && c.a2.isFinite

/-- The words of a designed set. Only a set whose values are all finite is ever installed (R155), so the
NaN word named here is never stored. -/
def CoefVals.words (c : CoefVals) : CoefSet :=
  let enc := round32 (nanWord 0)
  ⟨enc c.b0, enc c.b1, enc c.b2, enc c.a1, enc c.a2⟩

/-- `g = pow10(gdb ÷ 20)` and `A = sqrt(g)` (R148). -/
def peakAmplitude (lm : Libm) (gdb : FVal) : FVal :=
  (call64 lm.pow10 (gdb.div64 (int64 20))).sqrt64

/-- `w = ((2.0 × PI64) × f) ÷ fs` (R149, 43_magnitude.md R223). -/
def angle (f fs : FVal) : FVal := (((int64 2).mul64 pi64).mul64 f).div64 fs

/-- The Peak design (R149) for a clamped frequency and quality. -/
def peakDesign (lm : Libm) (f fs gdb q : FVal) : CoefVals :=
  let A := peakAmplitude lm gdb
  let w0 := angle f fs
  let alpha := (call64 lm.sin w0).div64 ((int64 2).mul64 q)
  let c := call64 lm.cos w0
  normalize
    ((int64 1).add64 (alpha.mul64 A)) ((int64 (-2)).mul64 c) ((int64 1).sub64 (alpha.mul64 A))
    ((int64 1).add64 (alpha.div64 A)) ((int64 (-2)).mul64 c) ((int64 1).sub64 (alpha.div64 A))

/-- `nsec = min(n + 1, 4)` (R150). -/
def sectionCount (n : BitVec 2) : Nat := min (n.toNat + 1) 4

/-- `Q_k = 1.0 ÷ (2.0 × cos(((2k+1) × PI64) ÷ (2N)))` with N = 2·nsec (R151). -/
def butterworthQ (lm : Libm) (nsec k : Nat) : FVal :=
  let order := 2 * nsec
  (int64 1).div64 ((int64 2).mul64
    (call64 lm.cos (((int64 (2 * k + 1)).mul64 pi64).div64 (int64 (2 * order)))))

/-- One LowCut section (R152). Its b1 is the stored b0 doubled, "−2·b0 exactly" (43_magnitude.md R226 case 1, by
90_conflicts.md C10: "the exact statement wins"); rounding −2 · c1 once gives the same word unless c1 rounds to
a subnormal or to 0 (log 14). -/
def lowCutSection (lm : Libm) (f fs q : FVal) : CoefVals :=
  let K := call64 lm.tan ((pi64.mul64 f).div64 fs)
  let iq := (int64 1).div64 q
  let c1 := (int64 1).div64 (((int64 1).add64 (iq.mul64 K)).add64 (K.mul64 K))
  CoefVals.stored c1 ((int64 (-2)).mul (c1.round b32)) c1
    (((int64 2).mul64 c1).mul64 ((K.mul64 K).sub64 (int64 1)))
    (c1.mul64 (((int64 1).sub64 (iq.mul64 K)).add64 (K.mul64 K)))

/-- One HighCut section (R153), each value rounded once as the rule writes it (log 14). -/
def highCutSection (lm : Libm) (f fs q : FVal) : CoefVals :=
  let n := (int64 1).div64 (call64 lm.tan ((pi64.mul64 f).div64 fs))
  let iq := (int64 1).div64 q
  let c1 := (int64 1).div64 (((int64 1).add64 (iq.mul64 n)).add64 (n.mul64 n))
  CoefVals.stored c1 ((int64 2).mul64 c1) c1
    (((int64 2).mul64 c1).mul64 ((int64 1).sub64 (n.mul64 n)))
    (c1.mul64 (((int64 1).sub64 (iq.mul64 n)).add64 (n.mul64 n)))

/-- The sections of a cut stage: slot k gets Q_k, in increasing k (R151). -/
def cutDesign (lm : Libm) (section1 : Libm → FVal → FVal → FVal → CoefVals) (f fs : FVal)
    (n : BitVec 2) : List CoefVals :=
  let nsec := sectionCount n
  (List.range nsec).map fun k => section1 lm f fs (butterworthQ lm nsec k)

/-- The design result (R157). -/
structure Design where
  ok : Bool
  clampF : Bool
  clampQ : Bool
  pk : CoefVals
  lc : List CoefVals
  hc : List CoefVals
  deriving DecidableEq, Repr

/-- `Design(fs, lcf, hcf, pkf, gdb, q, nl, nh)` (R146 to R157), a function of the snapshot and of Libm
alone (R156). -/
def design (lm : Libm) (snap : Snapshot) : Design :=
  let l := clampF snap.lcf snap.fs
  let h := clampF snap.hcf snap.fs
  let p := clampF snap.pkf snap.fs
  let q := clampQ snap.q
  let fs := widen snap.fs
  let pk := peakDesign lm (widen p.1) fs (widen snap.gdb) (widen q.1)
  let lc := cutDesign lm lowCutSection (widen l.1) fs snap.nl
  let hc := cutDesign lm highCutSection (widen h.1) fs snap.nh
  { ok := pk.isFinite && lc.all CoefVals.isFinite && hc.all CoefVals.isFinite
    clampF := l.2 || h.2 || p.2
    clampQ := q.2
    pk := pk
    lc := lc
    hc := hc }

/-- The designed sets as the sequencer holds them (10_state.md R59). -/
def Design.shadow (d : Design) : Shadow :=
  ⟨d.pk.words, d.lc.map CoefVals.words, d.hc.map CoefVals.words⟩

end Sys2Proof.Machine
end

