-- ==== Sys2Proof/Machine/Magnitude.lean ====
section
/-! DEFINITION. MAG: the accept part (43_magnitude.md R220), the completion step (R221) and the magnitude
function (R222, R223). -/

namespace Sys2Proof.Machine

open Sys2Proof

/-- `MagSec(c, w)` (R222). -/
def magSec (lm : Libm) (c : CoefSet) (w : FVal) : FVal :=
  let b0 := widen c.b0
  let b1 := widen c.b1
  let b2 := widen c.b2
  let a1 := widen c.a1
  let a2 := widen c.a2
  let cos1 := call64 lm.cos w
  let cos2 := call64 lm.cos ((int64 2).mul64 w)
  let sin1 := call64 lm.sin w
  let sin2 := call64 lm.sin ((int64 2).mul64 w)
  let Nr := (b0.add64 (b1.mul64 cos1)).add64 (b2.mul64 cos2)
  let Ni := ((b1.mul64 sin1).add64 (b2.mul64 sin2)).neg
  let Dr := ((int64 1).add64 (a1.mul64 cos1)).add64 (a2.mul64 cos2)
  let Di := ((a1.mul64 sin1).add64 (a2.mul64 sin2)).neg
  (((Nr.mul64 Nr).add64 (Ni.mul64 Ni)).sqrt64).div64 (((Dr.mul64 Dr).add64 (Di.mul64 Di)).sqrt64)

/-- The product over the active slots of a cut stage, in increasing order (R223). -/
def magCut (lm : Libm) (bank : Vector CoefSet 9) (act : Vector Bool 4) (secOf : Fin 4 → Fin 9)
    (w m : FVal) : FVal :=
  [0, 1, 2, 3].foldl
    (fun m (k : Fin 4) => if act[k] then m.mul64 (magSec lm bank[secOf k] w) else m) m

/-- `MagFn(ctrl, f, fs)` before its result is rounded to binary32 (R223). -/
def magFn (lm : Libm) (s : State) (ctrl : BitVec 3) (f fs : Word) : FVal :=
  let w := angle (widen f) (widen fs)
  let m0 := int64 1
  let m1 := if lcBypassed ctrl then m0 else magCut lm s.bank s.actLC lcSec w m0
  let m2 := if pkBypassed ctrl then m1 else m1.mul64 (magSec lm s.bank[pkSec] w)
  if hcBypassed ctrl then m2 else magCut lm s.bank s.actHC hcSec w m2

/-- The accept part of MAG (R220), after the dispatch checks. Both conditions are checked. -/
def State.acceptMag (s : State) : State :=
  let s1 := (s.raiseIf (!fsValid s.fs) .errFs).raiseIf (!isFinite32 s.magFreq) .errArg
  if fsValid s.fs && isFinite32 s.magFreq then { s1 with seq := .mag s.magFreq s.fs s.ctrlBits }
  else s1

/-- MAG (R220, 44_control.md R247). -/
def execMag (s : State) : Host.Outcome State Fault Refusal :=
  .next (s.whenIdle State.acceptMag)

/-- The completion step (R221). A NaN magnitude is a drawn NaN word (40_design.md R142). -/
def State.finishMag (s : State) (lm : Libm) (f fs : Word) (ctrl : BitVec 3) : State :=
  { s with magResult := round32 (nanWord s.draws) (magFn lm s ctrl f fs), draws := s.draws + 1,
           seq := .idle }

end Sys2Proof.Machine
end

