-- ==== Sys2Proof/Machine/Update.lean ====
section
/-! DEFINITION. UPDATE: the accept part (42_update.md R190 to R193) and the ten steps of the commit sequence
(R194 to R199). -/

namespace Sys2Proof.Machine

open Sys2Proof

/-- The accept part of UPDATE (R190), after the dispatch checks: an invalid rate raises ERR_FS and
nothing else (R191); otherwise the clamp flags are raised, and the design is rejected with ERR_COEF
(R192) or its commit sequence started (R193). -/
def State.acceptUpdate (s : State) (lm : Libm) : State :=
  if fsValid s.fs then
    let d := design lm s.snapshot
    let s1 := (s.raiseIf d.clampF .clampF).raiseIf d.clampQ .clampQ
    if d.ok then { s1 with seq := .upd 0 d.shadow s.fs } else s1.raise .errCoef
  else s.raise .errFs

/-- UPDATE (R190, 44_control.md R247). -/
def execUpdate (s : State) : Host.Outcome State Fault Refusal :=
  .next (s.whenIdle fun s => s.acceptUpdate Config.libm)

/-- Step 0 (R195). -/
def State.commitPeak (s : State) (shadow : Shadow) : State :=
  { s with bank := s.bank.set 4 shadow.pk }

/-- Step k of LowCut slot `k` (R196, R197): a designed slot takes its set and becomes active, a slot beyond
the design becomes inactive and keeps its coefficients. -/
def State.commitLC (s : State) (shadow : Shadow) (k : Fin 4) : State :=
  match shadow.lc[k.val]? with
  | some c => { s with bank := s.bank.set (lcSec k).val c (lcSec k).isLt,
                       actLC := s.actLC.set k.val true k.isLt }
  | none => { s with actLC := s.actLC.set k.val false k.isLt }

/-- The same for HighCut slot `k` (R196, R197). -/
def State.commitHC (s : State) (shadow : Shadow) (k : Fin 4) : State :=
  match shadow.hc[k.val]? with
  | some c => { s with bank := s.bank.set (hcSec k).val c (hcSec k).isLt,
                       actHC := s.actHC.set k.val true k.isLt }
  | none => { s with actHC := s.actHC.set k.val false k.isLt }

/-- What step k of the commit sequence installs (R194, the table). Step 9 installs nothing. -/
def State.commit (s : State) (k : Fin 10) (shadow : Shadow) : State :=
  match k with
  | 0 => s.commitPeak shadow
  | 1 => s.commitLC shadow 0
  | 2 => s.commitLC shadow 1
  | 3 => s.commitLC shadow 2
  | 4 => s.commitLC shadow 3
  | 5 => s.commitHC shadow 0
  | 6 => s.commitHC shadow 1
  | 7 => s.commitHC shadow 2
  | 8 => s.commitHC shadow 3
  | 9 => s

/-- Step 9, done (R199). -/
def State.finishUpdate (s : State) (fsnap : Word) : State :=
  { s with gen := s.gen + 1#32, activeFs := fsnap, seq := .idle }

/-- One sequencer step of an UPDATE (R194): step k, and then k + 1, or done. -/
def State.updateStep (s : State) (k : Fin 10) (shadow : Shadow) (fsnap : Word) : State :=
  if h : k.val < 9 then
    { s.commit k shadow with seq := .upd ⟨k.val + 1, by omega⟩ shadow fsnap }
  else s.finishUpdate fsnap

end Sys2Proof.Machine
end

