-- ==== Sys2Proof/Machine/Control.lean ====
section
/-! DEFINITION. The control port: RD, WR, and the commands NOP and CLEAR (44_control.md R240 to R255). -/

namespace Sys2Proof.Machine

open Sys2Proof

/-- NOP (R248): "leaves every piece of state unchanged", also while BUSY = 1 (R247). -/
def execNop (s : State) : Host.Outcome State Fault Refusal := .next s

/-- CLEAR (R249). -/
def execClear (s : State) : Host.Outcome State Fault Refusal := .next (s.whenIdle State.clearDelay)

/-- The accept part of a command, inside the event that writes CMD (R246, R247). -/
def State.runCommand (s : State) (lm : Libm) : Command → State
  | .nop => s
  | .update => s.whenIdle fun s => s.acceptUpdate lm
  | .mag => s.whenIdle State.acceptMag
  | .clear => s.whenIdle State.clearDelay

/-- A WR to CMD delivers a command word (R246): a malformed one raises ERR_CMD and "no other effect"
(R247). -/
def State.deliver (s : State) (lm : Libm) (v : Word) : State :=
  match decodeCommand v with
  | .error _ => s.raise .errCmd
  | .ok c => s.runCommand lm c

/-- RD of what an address reaches (R240): the word is read, then the side effect takes place. -/
def State.read (s : State) (ftz : Bool) (p : Place) : State :=
  (s.readEffect p).respond (.word (s.readValue ftz p))

/-- WR to what an address reaches (R241 to R246, R254, R255). -/
def State.write (s : State) (lm : Libm) (p : Place) (v : Word) : State :=
  match p with
  | .misaligned => s.raise .errAddr
  | .unmapped => s.raise .errAddr
  | .setting r => s.storeSetting r v
  | .ctrl => s.storeCtrl v
  | .magFreq => { s with magFreq := v }
  | .status => s.clearSticky v
  | .cmd => s.deliver lm v
  | .id => s
  | .version => s
  | .param => s
  | .chgTake => s
  | .magResult => s
  | .gen => s
  | .activeFs => s
  | .secAct => s
  | .coef _ _ => s
  | .delay _ _ => s

/-- RD (R240). -/
def execRd (a : Addr) (s : State) : Host.Outcome State Fault Refusal :=
  .next (s.read Config.ftz (placeOf a))

/-- WR (R241). It returns nothing (30_encoding.md R112). -/
def execWr (a : Addr) (v : Word) (s : State) : Host.Outcome State Fault Refusal :=
  .next (s.write Config.libm (placeOf a) v)

end Sys2Proof.Machine
end

