-- ==== Sys2Proof/Machine/Dispatch.lean ====
section
/-! DEFINITION. exec: one arm per instruction. -/

namespace Sys2Proof.Machine

open Sys2Proof

def exec (i : Instr) (s : State) : Host.Outcome State Fault Refusal :=
  match i with
  | .rd a => Sys2Proof.Machine.execRd a s
  | .wr a v => Sys2Proof.Machine.execWr a v s
  | .proc x => Sys2Proof.Machine.execProc x s
  | .nop => Sys2Proof.Machine.execNop s
  | .update => Sys2Proof.Machine.execUpdate s
  | .mag => Sys2Proof.Machine.execMag s
  | .clear => Sys2Proof.Machine.execClear s

end Sys2Proof.Machine
end

