-- ==== Sys2Proof/Machine/Sequencer.lean ====
section
/-! DEFINITION. The sequencer's step (42_update.md R194, 43_magnitude.md R221), and the helpers by which
`step` takes the next event from the inbox. -/

namespace Sys2Proof.Machine

open Sys2Proof

/-- One sequencer step. An idle sequencer has no step to take: nothing changes (log 8). -/
def State.sequencerStep (s : State) (lm : Libm) : State :=
  match s.seq with
  | .idle => s
  | .upd k shadow fsnap => s.updateStep k shadow fsnap
  | .mag f fs ctrl => s.finishMag lm f fs ctrl

/-- The state once the event at the head of the inbox has been taken. -/
def State.withInbox (s : State) (rest : List Event) : State := { s with inbox := rest }

end Sys2Proof.Machine
end

