-- ==== Sys2Proof/Machine/Step.lean ====
section
/-! DEFINITION. One step: the next event of the total order of 20_memory.md R89. -/

namespace Sys2Proof.Machine

open Sys2Proof

/-- The next event happens. With no event to come from outside, a busy sequencer takes its step
(42_update.md R200: "eventually taken"), and an idle block "does nothing and loses nothing"
(60_exceptions.md R294). -/
def step (s : State) : Host.Outcome State Fault Refusal :=
  match s.inbox with
  | [] => .next (s.sequencerStep Config.libm)
  | .sequencer :: rest => .next ((s.withInbox rest).sequencerStep Config.libm)
  | .reset :: rest => .next (s.withInbox rest).resetEvent
  | .port p :: rest =>
    match decode p with
    | .ok i => exec i (s.withInbox rest)
    | .error why => .refused (.illFormedDescriptor why)

/-- The row's word presented to the block as the very next event. -/
def State.withFetchWord (s : State) (nbits w : Nat) : State :=
  s.withInbox (.port (packetOf nbits w) :: s.inbox)

end Sys2Proof.Machine
end

