-- ==== Sys2Proof/Safety.lean ====
section
/-! DEFINITION. What counts as a safe state and a safe run: the invariant every step keeps, the inputs that never
stop the machine, and the exact real value of a floating-point datum, in the terms the claims use. -/

namespace Sys2Proof

/-- The rational number a finite datum is worth; 0 for an infinity or a NaN, which no claim uses it for. -/
def FVal.real : FVal → ℚ
  | .fin n m e => (if n then -1 else 1) * m * (2 : ℚ) ^ e
  | _ => 0

namespace Machine

/-- Every coefficient of a set is finite (40_design.md R155). -/
def CoefSet.isFinite (c : CoefSet) : Bool :=
  isFinite32 c.b0 && isFinite32 c.b1 && isFinite32 c.b2 && isFinite32 c.a1 && isFinite32 c.a2

/-- The act flags of a stage are the prefix of ones that slope index `n` gives (10_state.md R60). -/
abbrev activePrefix (act : Vector Bool 4) (n : Nat) : Prop :=
  ∀ k : Fin 4, act[k] = decide (k.val ≤ n)

/-- The act flags of a stage of which the first `committed` slots show a design of `m` sections and the
others still the shape of slope index `n` (10_state.md R60: "a mix of old and new flags"). -/
abbrev activeMix (act : Vector Bool 4) (committed m n : Nat) : Prop :=
  ∀ k : Fin 4, act[k] = if k.val < committed then decide (k.val < m) else decide (k.val ≤ n)

/-- A shadow that an accepted UPDATE may hold: finite sets, one to four in each cut stage
(10_state.md R59, 40_design.md R155). -/
def Shadow.legal (sh : Shadow) : Prop :=
  sh.pk.isFinite = true ∧ (∀ c ∈ sh.lc, c.isFinite = true) ∧ (∀ c ∈ sh.hc, c.isFinite = true)
    ∧ 1 ≤ sh.lc.length ∧ sh.lc.length ≤ 4 ∧ 1 ≤ sh.hc.length ∧ sh.hc.length ≤ 4

/-- Both stages idle in shape: each a prefix of ones (10_state.md R60). -/
def shapeSettled (s : State) : Prop :=
  (∃ n < 4, activePrefix s.actLC n) ∧ (∃ n < 4, activePrefix s.actHC n)

/-- What the sequencer's state promises. Of an UPDATE whose next step is `k`, the LowCut slots below k − 1
and the HighCut slots below k − 5 are committed (42_update.md R194). -/
def seqInv (s : State) : Prop :=
  match s.seq with
  | .idle => shapeSettled s
  | .mag f fs _ => shapeSettled s ∧ isFinite32 f = true ∧ fsValid fs = true
  | .upd k sh fsnap =>
    sh.legal ∧ fsValid fsnap = true
      ∧ (∃ n < 4, activeMix s.actLC (k.val - 1) sh.lc.length n)
      ∧ (∃ n < 4, activeMix s.actHC (k.val - 5) sh.hc.length n)

/-- The invariant: the reserved bits of CTRL and SLOPE read 0 (44_control.md R253), every coefficient of the
bank is finite (42_update.md R192: "nothing malformed reaches `process`"), and the act flags have the
shape the sequencer's state promises (10_state.md R60). -/
structure Inv (s : State) : Prop where
  ctrlReserved : s.ctrl &&& 0xFFFFFFF8#32 = 0#32
  slopeReserved : s.slope &&& 0xFFFFFFCC#32 = 0#32
  bankFinite : ∀ sec : Fin 9, s.bank[sec].isFinite = true
  seq : seqInv s

/-- An event the decoder does not refuse (30_encoding.md R111). -/
def Event.wellFormed : Event → Bool
  | .port (.descriptor w) => (descriptorFields w).wellFormed
  | .port (.command _) => true
  | .sequencer => true
  | .reset => true

def inboxWellFormed (s : State) : Prop := ∀ e ∈ s.inbox, e.wellFormed = true

/-- A run that is never stopped, however long. -/
def Safe (s : State) : Prop := ∀ n, ∃ t, Sys2Proof.core.run n s = .next t

/-- `n` sequencer steps with nothing between them. -/
def sequencerSteps (lm : Libm) : Nat → State → State
  | 0, s => s
  | n + 1, s => sequencerSteps lm n (s.sequencerStep lm)

/-- An UPDATE from its accept part to its last step, with nothing between. -/
def updateRun (lm : Libm) (s : State) : State := sequencerSteps lm 10 (s.acceptUpdate lm)

/-- The magnitude as one product over the nine sections in signal order. -/
def magBySection (lm : Libm) (s : State) (ctrl : BitVec 3) (f fs : Word) : FVal :=
  (List.finRange 9).foldl
    (fun m sec => if processed ctrl s.actLC s.actHC sec
      then m.mul64 (magSec lm s.bank[sec] (angle (widen f) (widen fs))) else m)
    (int64 1)

/-- A RD of `a` completes, returns `v` and changes nothing but the response it hands out. -/
def readsAs (s : State) (a : Addr) (v : Word) : Prop :=
  exec (.rd a) s = .next { s with outbox := .word v :: s.outbox }

/-- The next event is a sequencer step: one is due in the total order, or nothing else is to come. -/
def sequencerNext (s : State) (rest : List Event) : Prop :=
  s.inbox = .sequencer :: rest ∨ (s.inbox = [] ∧ rest = [])

/-- The next event is a port transaction that decodes to `i`. -/
def instrNext (s : State) (i : Instr) : Prop :=
  ∃ p rest, s.inbox = .port p :: rest ∧ decode p = .ok i

/-- The next event is a reset. -/
def resetNext (s : State) : Prop := ∃ rest, s.inbox = .reset :: rest

/-- The addresses of the seven settings registers (10_state.md R38 to R44). -/
def settingAddresses : List Addr :=
  [0x010#12, 0x014#12, 0x018#12, 0x01C#12, 0x020#12, 0x024#12, 0x028#12]

/-- A binary32 word is subnormal: exponent field 0, fraction not 0. -/
def isSubnormal32 (w : Word) : Bool :=
  decide (w.extractLsb' 23 8 = 0#8) && decide (w.extractLsb' 0 23 ≠ 0#23)

/-- An address that the map of 20_memory.md R84 does not cover, or a misaligned one (R83). -/
def badAddress (a : Addr) : Prop :=
  a.toNat % 4 ≠ 0 ∨ (0x04C ≤ a.toNat ∧ a.toNat < 0x100) ∨ (0x220 ≤ a.toNat ∧ a.toNat < 0x300)
    ∨ 0x348 ≤ a.toNat

/-- The read-only words of 44_control.md R255. -/
def readOnlyAddress (a : Addr) : Prop :=
  a.toNat % 4 = 0 ∧ (a.toNat ∈ [0x000, 0x004, 0x00C, 0x034, 0x03C, 0x040, 0x044, 0x048]
    ∨ (0x100 ≤ a.toNat ∧ a.toNat < 0x220) ∨ (0x300 ≤ a.toNat ∧ a.toNat < 0x348))

end Machine

end Sys2Proof
end

