-- ==== Sys2Proof/Certificates/Slice0/Obligations.lean ====
section
/-! DEFINITION. The statements about the model, for the provers. Each says what its name says; OBLIGATIONS.json
gives the rule it formalises. -/

open Sys2Proof Sys2Proof.Machine

/-! ### Encoding -/

/-- Every instruction decodes from its encoding, and an encoding that decodes is the one its instruction
has: no bit is dropped and no bit is free (30_encoding.md section 1 and 2). -/
def Obligations.InstructionsDecodeFromTheirEncodings : Prop :=
  (∀ i : Instr, decode (encode i) = .ok i)
    ∧ (∀ (w : BitVec 48) (i : Instr), decode (.descriptor w) = .ok i → encode i = .descriptor w)
    ∧ (∀ (v : Word) (c : Command), decodeCommand v = .ok c → v = commandWordOf c)

/-- Words spelled in 95_test_vectors.md section 2.1 decode as it says. -/
def Obligations.SpelledWordsDecode : Prop :=
  decode (.descriptor 0x003000000000#48) = .ok (.rd 0x030#12)
    ∧ decode (.descriptor 0x402C00000002#48) = .ok (.wr 0x02C#12 0x00000002#32)
    ∧ decode (.descriptor 0x80003F800000#48) = .ok (.proc 0x3F800000#32)
    ∧ decode (.command 0x00000000#32) = .ok .nop
    ∧ decode (.command 0x00000001#32) = .ok .update
    ∧ decode (.command 0x00000002#32) = .ok .mag
    ∧ decode (.command 0x00000003#32) = .ok .clear
    ∧ decode (.descriptor 0xC00000000000#48) = .error .kindReserved
    ∧ decode (.descriptor 0x103000000000#48) = .error .rsvNonzero
    ∧ decode (.descriptor 0x80013F800000#48) = .error .procAddrNonzero
    ∧ decode (.descriptor 0x003000000001#48) = .error .rdDataNonzero

/-- R111: exactly the four cases are ill-formed and refused; every other descriptor decodes to the one
transaction of its KIND, whatever its ADDR. -/
def Obligations.DescriptorsDecodeByKindOrAreRefused : Prop :=
  ∀ w : BitVec 48,
    let kind := w.extractLsb' 46 2
    let rsv := w.extractLsb' 44 2
    let addr := w.extractLsb' 32 12
    let data := w.extractLsb' 0 32
    let illFormed := kind = 3#2 ∨ rsv ≠ 0#2 ∨ (kind = 2#2 ∧ addr ≠ 0#12) ∨ (kind = 0#2 ∧ data ≠ 0#32)
    (¬ illFormed → decode (.descriptor w)
        = .ok (if kind = 0#2 then .rd addr else if kind = 1#2 then .wr addr data else .proc data))
      ∧ (illFormed → ∃ why, decode (.descriptor w) = .error why
          ∧ ∀ (s : State) (rest : List Event), s.inbox = .port (.descriptor w) :: rest →
              step s = .refused (.illFormedDescriptor why))

/-- R115, R116: the four command words, and everything else malformed. -/
def Obligations.CommandWordsDecodeExactly : Prop :=
  ∀ v : Word,
    (decodeCommand v = .ok .nop ↔ v = 0x00000000#32)
      ∧ (decodeCommand v = .ok .update ↔ v = 0x00000001#32)
      ∧ (decodeCommand v = .ok .mag ↔ v = 0x00000002#32)
      ∧ (decodeCommand v = .ok .clear ↔ v = 0x00000003#32)
      ∧ ((∃ why, decodeCommand v = .error why) ↔ v.extractLsb' 4 28 ≠ 0#28 ∨ 4 ≤ (v.extractLsb' 0 4).toNat)

/-- A command word presented by itself does what the descriptor of its WR to CMD does
(44_control.md R246; the separate form is the model's, log 11). -/
def Obligations.CommandWordActsAsItsWriteToCmd : Prop :=
  ∀ (s : State) (v : Word) (rest : List Event),
    step (s.withInbox (.port (.command v) :: rest))
      = step (s.withInbox (.port (.descriptor (issueDescriptor v)) :: rest))

/-! ### Steps -/

/-- When the next event (20_memory.md R89) is a transaction that decodes to `i` (30_encoding.md R111), the step is
`exec i` on the state with that event taken from the inbox; and a row's word placed by `withFetchWord` is run next.
The inbox and the placing are the model's choice (log 1), and so is a command word taken as an event by itself and
how a row's word is read as one (log 11). -/
def Obligations.StepRunsTheDecodedInstruction : Prop :=
  (∀ (s : State) (p : Packet) (rest : List Event) (i : Instr),
      s.inbox = .port p :: rest → decode p = .ok i → step s = exec i (s.withInbox rest))
    ∧ (∀ (s : State) (nbits w : Nat) (i : Instr),
      decodeTableWord nbits w = some i → step (s.withFetchWord nbits w) = exec i s)

/-- The other events of 20_memory.md R89: a sequencer step when one is next (and, by the model's choice of
log 8, when nothing else is to come), which changes nothing while the sequencer is idle (60_exceptions.md R294,
log 8), and a reset. -/
def Obligations.StepTakesSequencerAndResetEvents : Prop :=
  ∀ (s : State) (rest : List Event),
    (sequencerNext s rest → step s = .next ((s.withInbox rest).sequencerStep Config.libm))
      ∧ (sequencerNext s rest → s.seq = .idle → step s = .next { s with inbox := rest })
      ∧ (s.inbox = .reset :: rest → step s = .next (s.withInbox rest).resetEvent)

/-- No input the decoder accepts ever stops the machine (60_exceptions.md section 2,
93_implementation_defined.md: "Every operation completes"). -/
def Obligations.WellFormedInputNeverStopsTheMachine : Prop :=
  ∀ s : State, inboxWellFormed s → Safe s

/-- R310, R311: a reset sets every element of the spec's state, whatever the state. -/
def Obligations.ResetSetsEveryElement : Prop :=
  ∀ (s : State) (rest : List Event), s.inbox = .reset :: rest → ∃ t, step s = .next t
    ∧ t.ctrl = 0x00000000#32 ∧ t.lcFreq = 0x41A00000#32 ∧ t.hcFreq = 0x469C4000#32
    ∧ t.pkFreq = 0x447A0000#32 ∧ t.pkGain = 0x00000000#32 ∧ t.pkQ = 0x3F800000#32
    ∧ t.slope = 0x00000000#32 ∧ t.fs = 0x00000000#32 ∧ t.magFreq = 0x00000000#32
    ∧ t.magResult = 0x00000000#32 ∧ t.gen = 0x00000000#32 ∧ t.activeFs = 0x00000000#32
    ∧ t.chg = false ∧ t.sticky = 0#8 ∧ t.seq = .idle
    ∧ (∀ k : Fin 4, t.actLC[k] = decide (k = 0)) ∧ (∀ k : Fin 4, t.actHC[k] = decide (k = 0))
    ∧ (∀ sec : Fin 9, t.bank[sec] = ⟨0x3F800000#32, 0#32, 0#32, 0#32, 0#32⟩)
    ∧ (∀ sec : Fin 9, t.delay[sec] = ⟨0#32, 0#32⟩)
    ∧ t.inbox = rest

/-- The reset column of 10_state.md R36, read through the control port of the state after reset. -/
def Obligations.RegistersReadTheirResetValues : Prop :=
  readsAs State.reset 0x008#12 0x00000000#32 ∧ readsAs State.reset 0x010#12 0x41A00000#32
    ∧ readsAs State.reset 0x014#12 0x469C4000#32 ∧ readsAs State.reset 0x018#12 0x447A0000#32
    ∧ readsAs State.reset 0x01C#12 0x00000000#32 ∧ readsAs State.reset 0x020#12 0x3F800000#32
    ∧ readsAs State.reset 0x024#12 0x00000000#32 ∧ readsAs State.reset 0x028#12 0x00000000#32
    ∧ readsAs State.reset 0x02C#12 0x00000000#32 ∧ readsAs State.reset 0x030#12 0x00000000#32
    ∧ readsAs State.reset 0x034#12 0x00000000#32 ∧ readsAs State.reset 0x038#12 0x00000000#32
    ∧ readsAs State.reset 0x03C#12 0x00000000#32 ∧ readsAs State.reset 0x040#12 0x00000000#32
    ∧ readsAs State.reset 0x044#12 0x00000000#32 ∧ readsAs State.reset 0x048#12 0x00000011#32

/-! ### The invariant -/

/-- The state after reset meets the invariant. -/
def Obligations.ResetStateMeetsTheInvariant : Prop := Inv State.reset

/-- Every step keeps the invariant: reserved bits stay 0, the bank stays finite, and the act flags keep the
shape the sequencer's state promises (10_state.md section 5, 42_update.md). -/
def Obligations.EveryStepKeepsTheInvariant : Prop :=
  ∀ s t : State, Inv s → step s = .next t → Inv t

/-! ### RD -/

/-- R33, R34, R35, R251: the constants, and "a stored register reads its stored value"; nothing else happens. -/
def Obligations.ReadsOfConstantsAndStoredRegisters : Prop :=
  ∀ s : State,
    readsAs s 0x000#12 0x42514631#32 ∧ readsAs s 0x004#12 0x00010000#32
      ∧ readsAs s 0x00C#12 (if Config.ftz then 0x00000104#32 else 0x00000004#32)
      ∧ readsAs s 0x008#12 s.ctrl ∧ readsAs s 0x010#12 s.lcFreq ∧ readsAs s 0x014#12 s.hcFreq
      ∧ readsAs s 0x018#12 s.pkFreq ∧ readsAs s 0x01C#12 s.pkGain ∧ readsAs s 0x020#12 s.pkQ
      ∧ readsAs s 0x024#12 s.slope ∧ readsAs s 0x028#12 s.fs ∧ readsAs s 0x038#12 s.magFreq
      ∧ readsAs s 0x03C#12 s.magResult ∧ readsAs s 0x040#12 s.gen ∧ readsAs s 0x044#12 s.activeFs

/-- R251, R46, R52: the fields of STATUS and of SEC_ACT, reserved bits 0. -/
def Obligations.ReadsOfStatusAndSecAct : Prop :=
  ∀ s : State,
    (∃ v, readsAs s 0x030#12 v ∧ v[0] = decide (s.seq ≠ .idle) ∧ v[1] = s.chg
      ∧ v.extractLsb' 2 6 = 0#6 ∧ v.extractLsb' 8 8 = s.sticky ∧ v.extractLsb' 16 16 = 0#16)
    ∧ (∃ v, readsAs s 0x048#12 v ∧ (∀ k : Fin 4, v[k.val] = s.actLC[k])
      ∧ (∀ k : Fin 4, v[4 + k.val] = s.actHC[k]) ∧ v.extractLsb' 8 24 = 0#24)

/-- R54, R57: the readback windows, word by word. -/
def Obligations.ReadsOfTheWindows : Prop :=
  ∀ (s : State) (sec : Fin 9),
    let coef (c : Nat) : Addr := BitVec.ofNat 12 (0x100 + 0x20 * sec.val + 4 * c)
    let st (j : Nat) : Addr := BitVec.ofNat 12 (0x300 + 8 * sec.val + 4 * j)
    readsAs s (coef 0) s.bank[sec].b0 ∧ readsAs s (coef 1) s.bank[sec].b1
      ∧ readsAs s (coef 2) s.bank[sec].b2 ∧ readsAs s (coef 3) s.bank[sec].a1
      ∧ readsAs s (coef 4) s.bank[sec].a2 ∧ readsAs s (coef 5) 0x00000000#32
      ∧ readsAs s (coef 6) 0x00000000#32 ∧ readsAs s (coef 7) 0x00000000#32
      ∧ readsAs s (st 0) s.delay[sec].s1 ∧ readsAs s (st 1) s.delay[sec].s2

/-- R252. -/
def Obligations.ReadOfCmdReturnsZero : Prop := ∀ s : State, readsAs s 0x02C#12 0x00000000#32

/-- R250: the flag is returned and cleared in one event; a second read then returns 0. -/
def Obligations.ChgTakeReturnsAndClears : Prop :=
  ∀ s : State, ∃ t, exec (.rd 0x034#12) s = .next t
    ∧ t = { s with chg := false, outbox := .word (if s.chg then 1#32 else 0#32) :: s.outbox }
    ∧ readsAs t 0x034#12 0x00000000#32

/-- R254 over the map of 20_memory.md R83, R84: a misaligned or unmapped RD returns 0 and raises ERR_ADDR,
such a WR raises ERR_ADDR and changes nothing else. -/
def Obligations.BadAddressesRaiseErrAddr : Prop :=
  ∀ (s : State) (a : Addr) (v : Word), badAddress a → ∃ k : BitVec 8,
    exec (.rd a) s = .next { s with sticky := k, outbox := .word 0x00000000#32 :: s.outbox }
      ∧ exec (.wr a v) s = .next { s with sticky := k }
      ∧ k[7] = true ∧ ∀ j : Fin 7, k[j.val] = s.sticky[j.val]

/-- 20_memory.md R88: a RD of a mapped word other than CHG_TAKE changes no state: it only returns. -/
def Obligations.OnlyChgTakeHasAReadSideEffect : Prop :=
  ∀ (s : State) (a : Addr), ¬ badAddress a → a ≠ 0x034#12 → ∃ v, readsAs s a v

/-! ### WR -/

/-- R242: a settings write stores its word (SLOPE masked) and sets CHG, and nothing else happens. -/
def Obligations.SettingsWritesStoreAndSetChg : Prop :=
  ∀ (s : State) (v : Word),
    exec (.wr 0x010#12 v) s = .next { s with lcFreq := v, chg := true }
      ∧ exec (.wr 0x014#12 v) s = .next { s with hcFreq := v, chg := true }
      ∧ exec (.wr 0x018#12 v) s = .next { s with pkFreq := v, chg := true }
      ∧ exec (.wr 0x01C#12 v) s = .next { s with pkGain := v, chg := true }
      ∧ exec (.wr 0x020#12 v) s = .next { s with pkQ := v, chg := true }
      ∧ exec (.wr 0x024#12 v) s = .next { s with slope := v &&& 0x00000033#32, chg := true }
      ∧ exec (.wr 0x028#12 v) s = .next { s with fs := v, chg := true }

/-- R243, R244: CTRL keeps its three bits, MAG_FREQ any word; neither sets CHG. -/
def Obligations.CtrlAndMagFreqWrites : Prop :=
  ∀ (s : State) (v : Word),
    exec (.wr 0x008#12 v) s = .next { s with ctrl := v &&& 0x00000007#32 }
      ∧ exec (.wr 0x038#12 v) s = .next { s with magFreq := v }

/-- R245: each sticky bit is cleared exactly when its bit is written as 1; nothing else changes. -/
def Obligations.StatusWriteClearsTheNamedBits : Prop :=
  ∀ (s : State) (v : Word), ∃ k : BitVec 8, exec (.wr 0x030#12 v) s = .next { s with sticky := k }
    ∧ ∀ j : Fin 8, k[j.val] = (s.sticky[j.val] && !v[8 + j.val])

/-- R255: a WR to a read-only word changes nothing. -/
def Obligations.WritesToReadOnlyWordsAreIgnored : Prop :=
  ∀ (s : State) (a : Addr) (v : Word), readOnlyAddress a → exec (.wr a v) s = .next s

/-- R246, R247: a WR to CMD runs the command its word spells, and a malformed word raises ERR_CMD and
nothing else. -/
def Obligations.CmdWritesDispatch : Prop :=
  ∀ s : State,
    (∀ c : Command, exec (.wr 0x02C#12 (commandWordOf c)) s = exec c.instr s)
      ∧ (∀ v : Word, (∀ c : Command, v ≠ commandWordOf c) →
          exec (.wr 0x02C#12 v) s = .next { s with sticky := s.sticky ||| 0x20#8 })

/-- No control-port write reaches the coefficients, the act flags, GEN, ACTIVE_FS or MAG_RESULT, and only
CLEAR reaches the delay state (44_control.md section 2, 20_memory.md section 5). -/
def Obligations.WritesNeverReachTheFilter : Prop :=
  ∀ (s t : State) (a : Addr) (v : Word), exec (.wr a v) s = .next t →
    t.bank = s.bank ∧ t.actLC = s.actLC ∧ t.actHC = s.actHC ∧ t.gen = s.gen ∧ t.activeFs = s.activeFs
      ∧ t.magResult = s.magResult ∧ t.outbox = s.outbox ∧ t.inbox = s.inbox
      ∧ (t.delay = s.delay ∨ (a = cmdAddr ∧ v = 0x00000003#32 ∧ s.seq = .idle
          ∧ ∀ sec : Fin 9, t.delay[sec] = ⟨0#32, 0#32⟩))

/-! ### Commands -/

/-- R248: NOP "leaves every piece of state unchanged", also while BUSY = 1. -/
def Obligations.NopChangesNothing : Prop := ∀ s : State, exec .nop s = .next s

/-- R249: an accepted CLEAR zeroes the 18 delay words and touches nothing else. -/
def Obligations.ClearZeroesTheDelayState : Prop :=
  ∀ s : State, s.seq = .idle → ∃ d : Vector Delay 9,
    exec .clear s = .next { s with delay := d } ∧ ∀ sec : Fin 9, d[sec] = ⟨0x00000000#32, 0x00000000#32⟩

/-- R247: UPDATE, MAG and CLEAR while the sequencer is not idle are dropped: ERR_BUSY and nothing else. -/
def Obligations.CommandsWhileBusyAreDropped : Prop :=
  ∀ (s : State) (i : Instr), s.seq ≠ .idle → i = .update ∨ i = .mag ∨ i = .clear →
    exec i s = .next { s with sticky := s.sticky ||| 0x40#8 }

/-- R191: with an invalid rate an UPDATE raises ERR_FS and is otherwise a no-op. -/
def Obligations.UpdateWithAnInvalidRateOnlyRaisesErrFs : Prop :=
  ∀ s : State, s.seq = .idle → fsValid s.fs = false →
    exec .update s = .next { s with sticky := s.sticky ||| 0x01#8 }

/-- R190, R192, R193, 40_design.md R144, R157: the design is that of the seven settings registers, LC_SLOPE and
HC_SLOPE cut out of SLOPE. With a valid rate CLAMP_F is raised when any of the three frequencies is
clamped and CLAMP_Q when the quality is; a valid design starts the commit sequence with nothing installed yet,
an invalid one raises ERR_COEF and changes nothing else. -/
def Obligations.UpdateDesignsAndStartsItsCommits : Prop :=
  ∀ s : State, s.seq = .idle → fsValid s.fs = true →
    let d := design Config.libm
      { fs := s.fs, lcf := s.lcFreq, hcf := s.hcFreq, pkf := s.pkFreq, gdb := s.pkGain, q := s.pkQ,
        nl := s.slope.extractLsb' 0 2, nh := s.slope.extractLsb' 4 2 }
    let clamped := (clampF s.lcFreq s.fs).2 || (clampF s.hcFreq s.fs).2 || (clampF s.pkFreq s.fs).2
    let flags := (if clamped then 0x02#8 else 0#8) ||| (if (clampQ s.pkQ).2 then 0x04#8 else 0#8)
    exec .update s = .next
      (if d.ok then { s with sticky := s.sticky ||| flags, seq := .upd 0 d.shadow s.fs }
        else { s with sticky := s.sticky ||| flags ||| 0x08#8 })

/-- R220: an idle MAG checks both conditions and raises each that holds; with neither it takes its snapshot
and starts. Nothing else changes, MAG_RESULT included. -/
def Obligations.MagChecksItsArgumentsAndStarts : Prop :=
  ∀ s : State, s.seq = .idle →
    (fsValid s.fs = true → isFinite32 s.magFreq = true →
        exec .mag s = .next { s with seq := .mag s.magFreq s.fs (s.ctrl.extractLsb' 0 3) })
      ∧ (fsValid s.fs = false ∨ isFinite32 s.magFreq = false →
        exec .mag s = .next { s with sticky := s.sticky
          ||| (if fsValid s.fs then 0#8 else 0x01#8) ||| (if isFinite32 s.magFreq then 0#8 else 0x10#8) })

/-! ### The sequencer -/

/-- R195: step 0 replaces the Peak set and nothing else, and step 1 is next. -/
def Obligations.PeakCommitReplacesThePeakSet : Prop :=
  ∀ (s : State) (rest : List Event) (sh : Shadow) (fsnap : Word),
    sequencerNext s rest → s.seq = .upd 0 sh fsnap → ∃ bank : Vector CoefSet 9,
      step s = .next { s with bank := bank, seq := .upd 1 sh fsnap, inbox := rest }
        ∧ bank[(4 : Fin 9)] = sh.pk ∧ ∀ sec : Fin 9, sec ≠ 4 → bank[sec] = s.bank[sec]

/-- R196, R197: step 1 + k commits LowCut slot k and step 5 + k HighCut slot k, which is section 5 + k: within
the design the slot's set and its act flag together, beyond it the act flag alone. -/
def Obligations.CutCommitsTakeSlotAndFlagTogether : Prop :=
  ∀ (s : State) (rest : List Event) (sh : Shadow) (fsnap : Word) (j : Fin 10) (k : Fin 4),
    sequencerNext s rest → s.seq = .upd j sh fsnap →
      (j.val = 1 + k.val → ∃ (bank : Vector CoefSet 9) (act : Vector Bool 4) (next : Fin 10),
        step s = .next { s with bank := bank, actLC := act, seq := .upd next sh fsnap, inbox := rest }
          ∧ next.val = j.val + 1
          ∧ (∀ i : Fin 4, act[i] = if i = k then decide (k.val < sh.lc.length) else s.actLC[i])
          ∧ (∀ sec : Fin 9, bank[sec] = if sec.val = k.val then sh.lc[k.val]?.getD s.bank[sec] else s.bank[sec]))
      ∧ (j.val = 5 + k.val → ∃ (bank : Vector CoefSet 9) (act : Vector Bool 4) (next : Fin 10),
        step s = .next { s with bank := bank, actHC := act, seq := .upd next sh fsnap, inbox := rest }
          ∧ next.val = j.val + 1
          ∧ (∀ i : Fin 4, act[i] = if i = k then decide (k.val < sh.hc.length) else s.actHC[i])
          ∧ (∀ sec : Fin 9, bank[sec] = if sec.val = 5 + k.val then sh.hc[k.val]?.getD s.bank[sec] else s.bank[sec]))

/-- R199: the done step counts the UPDATE, records its rate and makes the sequencer idle, and nothing else. -/
def Obligations.DoneStepCountsTheUpdate : Prop :=
  ∀ (s : State) (rest : List Event) (sh : Shadow) (fsnap : Word),
    sequencerNext s rest → s.seq = .upd 9 sh fsnap → ∃ gen : Word,
      step s = .next { s with gen := gen, activeFs := fsnap, seq := .idle, inbox := rest }
        ∧ gen.toNat = (s.gen.toNat + 1) % 2 ^ 32

/-- R200, R194 to R199: an UPDATE in progress completes after exactly ten steps, busy until then, with all of
its design installed and the structural shape of 10_state.md R60; nothing outside the filter changes. That the
steps run by themselves on an empty inbox is the model's choice (log 8). -/
def Obligations.UpdateCompletesInTenSteps : Prop :=
  ∀ (s : State) (sh : Shadow) (fsnap : Word), s.inbox = [] → s.seq = .upd 0 sh fsnap →
    (∀ n < 10, ∃ u, core.run n s = .next u ∧ u.busy = true)
      ∧ ∃ t, core.run 10 s = .next t
        ∧ t = { s with bank := t.bank, actLC := t.actLC, actHC := t.actHC, gen := s.gen + 1#32,
                       activeFs := fsnap, seq := .idle }
        ∧ (∀ k : Fin 4, t.actLC[k] = decide (k.val < sh.lc.length))
        ∧ (∀ k : Fin 4, t.actHC[k] = decide (k.val < sh.hc.length))
        ∧ t.bank[(4 : Fin 9)] = sh.pk
        ∧ (∀ k : Fin 4, t.bank[lcSec k] = sh.lc[k.val]?.getD s.bank[lcSec k])
        ∧ (∀ k : Fin 4, t.bank[hcSec k] = sh.hc[k.val]?.getD s.bank[hcSec k])

/-- 10_state.md R60, 42_update.md R190 to R199 in one run: the command UPDATE on an idle block with a valid rate,
and the ten steps after it. An accepted design leaves slope index + 1 active sections in each cut stage;
a rejected one leaves the filter as it was. The command word by itself is the model's own input form (log 11), and
the steps run on the empty inbox by its choice of log 8. -/
def Obligations.UpdateCommandInstallsSlopePlusOneSections : Prop :=
  ∀ s : State, s.inbox = [.port (.command 0x00000001#32)] → s.seq = .idle → fsValid s.fs = true →
    ∃ t, core.run 11 s = .next t ∧ t.seq = .idle ∧ t.delay = s.delay
      ∧ if (design Config.libm s.snapshot).ok then
          activePrefix t.actLC (s.slope.extractLsb' 0 2).toNat
            ∧ activePrefix t.actHC (s.slope.extractLsb' 4 2).toNat
            ∧ t.bank[(4 : Fin 9)] = (design Config.libm s.snapshot).pk.words
            ∧ t.gen = s.gen + 1#32 ∧ t.activeFs = s.fs
        else t.bank = s.bank ∧ t.actLC = s.actLC ∧ t.actHC = s.actHC ∧ t.gen = s.gen
            ∧ t.activeFs = s.activeFs ∧ t.sticky[3] = true

/-- R203: a second UPDATE from the same settings leaves the bank and the act flags as the first left them, bit
for bit, for every Libm. -/
def Obligations.RepeatedUpdatesInstallTheSameBits : Prop :=
  ∀ (lm : Libm) (s : State), s.seq = .idle →
    (updateRun lm (updateRun lm s)).bank = (updateRun lm s).bank
      ∧ (updateRun lm (updateRun lm s)).actLC = (updateRun lm s).actLC
      ∧ (updateRun lm (updateRun lm s)).actHC = (updateRun lm s).actHC

/-- R201, R198: no part of UPDATE, neither its command nor a step of its sequence, writes CHG, CTRL, MAG_FREQ,
MAG_RESULT, a settings register or the delay state. -/
def Obligations.UpdateLeavesEverythingElseAlone : Prop :=
  ∀ s t : State,
    (exec .update s = .next t
        ∨ ∃ k sh fsnap rest, s.seq = .upd k sh fsnap ∧ sequencerNext s rest ∧ step s = .next t) →
      t.chg = s.chg ∧ t.ctrl = s.ctrl ∧ t.magFreq = s.magFreq ∧ t.magResult = s.magResult
        ∧ t.lcFreq = s.lcFreq ∧ t.hcFreq = s.hcFreq ∧ t.pkFreq = s.pkFreq ∧ t.pkGain = s.pkGain
        ∧ t.pkQ = s.pkQ ∧ t.slope = s.slope ∧ t.fs = s.fs ∧ t.delay = s.delay ∧ t.outbox = s.outbox

/-- R221, R223: the completion step writes MAG_RESULT with the product over exactly the sections that the
snapshotted CTRL and the act flags let PROC process, in signal order, and makes the sequencer idle. A
NaN result is the drawn word, so this holds for every value of the model's draw counter (log 3). With nothing
processed the result is exactly 1.0. And for every Libm, with `w = ((2.0 × PI64) × f) ÷ fs` written out: through
identity sets the result is 1.0 where Libm is finite at w and 2w; at f = 0 through LowCut sets with b1 = −2·b0 and
b2 = b0 it is +0.0 (R226 case 1), where every processed magnitude is finite; and one section alone has the
magnitude R222 gives for named sets and named values of Libm at w and 2w. -/
def Obligations.MagCompletionMultipliesTheProcessedSections : Prop :=
  ∀ (s : State) (rest : List Event) (f fs : Word) (ctrl : BitVec 3),
    let proc (sec : Fin 9) := processed ctrl s.actLC s.actHC sec
    let w := (((int64 2).mul64 pi64).mul64 (widen f)).div64 (widen fs)
    let w2 := (int64 2).mul64 w
    (sequencerNext s rest → s.seq = .mag f fs ctrl → ∃ r : Word,
      step s = .next { s with magResult := r, draws := s.draws + 1, seq := .idle, inbox := rest }
        ∧ r = round32 (nanWord s.draws) (magBySection Config.libm s ctrl f fs)
        ∧ ((∀ sec : Fin 9, proc sec = false) → r = 0x3F800000#32))
      ∧ ∀ (lm : Libm) (drawn : Word),
        let r := round32 drawn (magBySection lm s ctrl f fs)
        let cosSin (c1 s1 c2 s2 : FVal) : Prop :=
          call64 lm.cos w = c1 ∧ call64 lm.sin w = s1 ∧ call64 lm.cos w2 = c2 ∧ call64 lm.sin w2 = s2
        let alone (j : Fin 9) (c : CoefSet) : Prop := (∀ sec : Fin 9, proc sec = decide (sec = j)) ∧ s.bank[j] = c
        ((∀ sec : Fin 9, proc sec = true → s.bank[sec] = ⟨0x3F800000#32, 0#32, 0#32, 0#32, 0#32⟩) →
            (call64 lm.cos w).isFinite = true → (call64 lm.sin w).isFinite = true →
            (call64 lm.cos w2).isFinite = true → (call64 lm.sin w2).isFinite = true → r = 0x3F800000#32)
          ∧ (f = 0x00000000#32 → fsValid fs = true →
            call64 lm.cos (int64 0) = int64 1 → call64 lm.sin (int64 0) = int64 0 →
            (∃ k : Fin 4, proc (lcSec k) = true) →
            (∀ k : Fin 4, proc (lcSec k) = true →
              isFinite32 s.bank[lcSec k].b0 = true ∧ isFinite32 s.bank[lcSec k].b1 = true
                ∧ s.bank[lcSec k].b2 = s.bank[lcSec k].b0
                ∧ (val32 s.bank[lcSec k].b1).real = -2 * (val32 s.bank[lcSec k].b0).real) →
            (∀ sec : Fin 9, proc sec = true → (magSec lm s.bank[sec] w).isFinite = true) → r = 0x00000000#32)
          ∧ ∀ j : Fin 9,
            (alone j ⟨0x40E00000#32, 0x41000000#32, 0x3F800000#32, 0x40800000#32, 0xC0000000#32⟩ →
                cosSin (int64 0) (int64 1) (int64 (-1)) (int64 0) → r = 0x40000000#32)
              ∧ (alone j ⟨0x40000000#32, 0x40800000#32, 0x40800000#32, 0x40000000#32, 0x40000000#32⟩ →
                cosSin (int64 1) (int64 1) (int64 0) (int64 1) → r = 0x40000000#32)

/-! ### PROC -/

/-- R170, R172 to R174: PROC always completes. Its sample and its delay state are those of one pass over the nine
sections in signal order, a section processed exactly when its stage's CTRL bit is 0 and, in a cut stage, its act
flag is 1: LowCut slot k is section k, the Peak section 4, HighCut slot k section 5 + k. A processed section s takes
`BQ(bank[s], st[s], x)` of the sample on its way, passes the output on and keeps the new state as its own; nothing
else of the block changes. -/
def Obligations.ProcPassesThroughTheProcessedSections : Prop :=
  ∀ (s : State) (x : Word),
    let active : List (Fin 9 × Bool) :=
      [(0, !s.ctrl[0] && s.actLC[0]), (1, !s.ctrl[0] && s.actLC[1]), (2, !s.ctrl[0] && s.actLC[2]),
       (3, !s.ctrl[0] && s.actLC[3]), (4, !s.ctrl[1]), (5, !s.ctrl[2] && s.actHC[0]),
       (6, !s.ctrl[2] && s.actHC[1]), (7, !s.ctrl[2] && s.actHC[2]), (8, !s.ctrl[2] && s.actHC[3])]
    let pass : Word × Vector Delay 9 := active.foldl
      (fun p (sec, on) =>
        if on then
          let r := bq Config.ftz (s.draws + 3 * sec.val) s.bank[sec] p.2[sec] p.1
          (r.1, p.2.set sec.val r.2 sec.isLt)
        else p)
      (x, s.delay)
    exec (.proc x) s = .next { s with
        delay := pass.2, draws := s.draws + 27, outbox := .sample pass.1 :: s.outbox }
      ∧ ∀ q ∈ active, processed s.ctrlBits s.actLC s.actHC q.1 = q.2

/-- R171: the section step, in values: `y = (b0 ⊗ x) ⊕ s1`, `s1' = ((b1 ⊗ x) ⊖ (a1 ⊗ y)) ⊕ s2`,
`s2' = (b2 ⊗ x) ⊖ (a2 ⊗ y)`, each operation the exact one (40_design.md R140) rounded separately. -/
def Obligations.SectionStepIsTransposedDirectFormTwo : Prop :=
  ∀ (ftz : Bool) (n : Nat) (c : CoefSet) (s : Delay) (x : Word),
    let add := op32 ftz FVal.add
    let sub := op32 ftz FVal.sub
    let mul := op32 ftz FVal.mul
    let r := bq ftz n c s x
    let y := add (mul (val32 c.b0) (val32 x)) (val32 s.s1)
    val32 r.1 = y
      ∧ val32 r.2.s1 = add (sub (mul (val32 c.b1) (val32 x)) (mul (val32 c.a1) y)) (val32 s.s2)
      ∧ val32 r.2.s2 = sub (mul (val32 c.b2) (val32 x)) (mul (val32 c.a2) y)

/-- R177, R170: a section that is not processed keeps its delay state, and PROC writes nothing of the block but
delay state. -/
def Obligations.UnprocessedSectionsKeepTheirState : Prop :=
  ∀ (s t : State) (x : Word), exec (.proc x) s = .next t →
    (∀ sec : Fin 9, processed s.ctrlBits s.actLC s.actHC sec = false → t.delay[sec] = s.delay[sec])
      ∧ t = { s with delay := t.delay, draws := t.draws, outbox := t.outbox }
      ∧ t.outbox.length = s.outbox.length + 1

/-- R174: where no section is processed the sample passes bit for bit, NaN payloads and −0.0 included, and no
delay state changes. -/
def Obligations.BypassedChainPassesEveryBit : Prop :=
  ∀ (s : State) (x : Word), (∀ sec : Fin 9, processed s.ctrlBits s.actLC s.actHC sec = false) →
    exec (.proc x) s = .next { s with draws := s.draws + 27, outbox := .sample x :: s.outbox }

/-- 70_reset_and_hazards.md R312: through identity sections at rest every finite sample but −0.0 comes back bit for
bit and leaves them at rest, whichever sections are processed (with FTZ = 1 a subnormal sample is flushed, so
it is left out there); and right after reset −0.0 comes back as +0.0. -/
def Obligations.IdentityChainPassesFiniteSamples : Prop :=
  (∀ (s : State) (x : Word),
      (∀ sec : Fin 9, s.bank[sec] = ⟨0x3F800000#32, 0#32, 0#32, 0#32, 0#32⟩) →
      (∀ sec : Fin 9, s.delay[sec] = ⟨0#32, 0#32⟩) →
      isFinite32 x = true → x ≠ 0x80000000#32 → (Config.ftz = true → isSubnormal32 x = false) →
        exec (.proc x) s = .next { s with draws := s.draws + 27, outbox := .sample x :: s.outbox })
    ∧ ∃ t, exec (.proc 0x80000000#32) State.reset = .next t ∧ t.outbox = [.sample 0x00000000#32]

/-- R178 cases 1 and 2: a NaN sample, or a NaN in the first delay word, makes the output and both new delay words
NaN, whatever the coefficients, so that the section stays poisoned. An infinite sample makes NaN whatever a zero
coefficient feeds: with b0 zero the output and both delay words, with b1 zero the first, with b2 zero the second;
and through an identity section at rest it comes out as itself and leaves both delay words NaN. And of what
70_reset_and_hazards.md R322 says, all that R171 gives (log 18): a NaN in the second delay word is in the first
after one PROC, and nothing that is not finite ever leaves the state: with the first delay word infinite or NaN
the output and both new delay words are infinite or NaN, and with the second so, the new first one is. -/
def Obligations.NaNsAndInfinitiesPoisonASection : Prop :=
  (∀ (ftz : Bool) (n : Nat) (c : CoefSet) (s : Delay) (x : Word),
      isNaN32 x = true ∨ isNaN32 s.s1 = true →
        isNaN32 (bq ftz n c s x).1 = true ∧ isNaN32 (bq ftz n c s x).2.s1 = true
          ∧ isNaN32 (bq ftz n c s x).2.s2 = true)
    ∧ (∀ (ftz : Bool) (n : Nat) (c : CoefSet) (s : Delay) (x : Word),
      (isNaN32 s.s2 = true → isNaN32 (bq ftz n c s x).2.s1 = true)
        ∧ (isFinite32 s.s1 = false → isFinite32 (bq ftz n c s x).1 = false
          ∧ isFinite32 (bq ftz n c s x).2.s1 = false ∧ isFinite32 (bq ftz n c s x).2.s2 = false)
        ∧ (isFinite32 s.s2 = false → isFinite32 (bq ftz n c s x).2.s1 = false))
    ∧ ∀ (ftz : Bool) (n : Nat) (x : Word), x = 0x7F800000#32 ∨ x = 0xFF800000#32 →
        let zero (w : Word) : Prop := w = 0x00000000#32 ∨ w = 0x80000000#32
        (∀ (c : CoefSet) (s : Delay),
            (zero c.b0 → isNaN32 (bq ftz n c s x).1 = true ∧ isNaN32 (bq ftz n c s x).2.s1 = true
              ∧ isNaN32 (bq ftz n c s x).2.s2 = true)
            ∧ (zero c.b1 → isNaN32 (bq ftz n c s x).2.s1 = true)
            ∧ (zero c.b2 → isNaN32 (bq ftz n c s x).2.s2 = true))
          ∧ let r := bq ftz n ⟨0x3F800000#32, 0#32, 0#32, 0#32, 0#32⟩ ⟨0#32, 0#32⟩ x
            r.1 = x ∧ isNaN32 r.2.s1 = true ∧ isNaN32 r.2.s2 = true

/-! ### Whole-machine rules -/

/-- 20_memory.md R91, 10_state.md R53, R55: only a step of an UPDATE's sequence and a reset change the bank or the
act flags; GEN and ACTIVE_FS change only at its done step or at a reset. -/
def Obligations.OnlyCommitsAndResetChangeTheFilter : Prop :=
  ∀ s t : State, step s = .next t →
    (t.bank ≠ s.bank ∨ t.actLC ≠ s.actLC ∨ t.actHC ≠ s.actHC →
        resetNext s ∨ ∃ k sh fsnap rest, s.seq = .upd k sh fsnap ∧ sequencerNext s rest)
      ∧ (t.gen ≠ s.gen ∨ t.activeFs ≠ s.activeFs →
        resetNext s ∨ ∃ sh fsnap rest, s.seq = .upd 9 sh fsnap ∧ sequencerNext s rest)

/-- 20_memory.md R91: MAG_RESULT is written only by the completion step and reset, the delay state only by PROC,
CLEAR (in either of its forms) and reset. -/
def Obligations.OnlyTheirWritersChangeMagResultAndDelay : Prop :=
  ∀ s t : State, step s = .next t →
    (t.magResult ≠ s.magResult →
        resetNext s ∨ ∃ f fs ctrl rest, s.seq = .mag f fs ctrl ∧ sequencerNext s rest)
      ∧ (t.delay ≠ s.delay →
        resetNext s ∨ (∃ x, instrNext s (.proc x)) ∨ instrNext s .clear
          ∨ instrNext s (.wr cmdAddr 0x00000003#32))

/-- R58: CHG is set only by a write to a settings register, and cleared only by a read of CHG_TAKE or a reset;
and such a write always sets it. -/
def Obligations.OnlySettingsWritesSetChg : Prop :=
  ∀ s t : State, step s = .next t →
    (s.chg = false → t.chg = true → ∃ a v, a ∈ settingAddresses ∧ instrNext s (.wr a v))
      ∧ (s.chg = true → t.chg = false → resetNext s ∨ instrNext s (.rd 0x034#12))
      ∧ (∀ a v, a ∈ settingAddresses → instrNext s (.wr a v) → t.chg = true)

/-- R281: a sticky bit that is 1 stays 1 until a WR to STATUS names it, or a reset. -/
def Obligations.StickyBitsStayUntilCleared : Prop :=
  ∀ (s t : State) (j : Fin 8), step s = .next t → s.sticky[j.val] = true → t.sticky[j.val] = false →
    resetNext s ∨ ∃ v : Word, v[8 + j.val] = true ∧ instrNext s (.wr 0x030#12 v)

/-- R224: while a MAG is pending, no port transaction changes the bank, the act flags or its snapshot. -/
def Obligations.BankIsStableDuringAMag : Prop :=
  ∀ (s t : State) (f fs : Word) (ctrl : BitVec 3) (i : Instr),
    s.seq = .mag f fs ctrl → instrNext s i → step s = .next t →
      t.bank = s.bank ∧ t.actLC = s.actLC ∧ t.actHC = s.actHC ∧ t.seq = .mag f fs ctrl

/-! ### Design -/

/-- R145 and R147 in bits: a rate is valid exactly when its word is positive and below that of +∞; the quality is
clamped when it is NaN, a zero or negative, and a positive one, +∞ included, is kept. -/
def Obligations.RateAndQualityChecksInBits : Prop :=
  (∀ fs : Word, fsValid fs = true ↔ 0 < fs.toNat ∧ fs.toNat < 0x7F800000)
    ∧ ∀ q : Word, clampQ q =
      if 0 < q.toNat ∧ q.toNat ≤ 0x7F800000 then (q, false) else (0x3A800000#32, true)

/-- R10: `nextDown32` of a positive real is below it, and no binary32 value lies between the two. -/
def Obligations.NextDownIsTheLargestValueBelow : Prop :=
  ∀ (m : Nat) (e : Int), 0 < m → (FVal.fin false m e).real < (FVal.fin false 1 128).real →
    isFinite32 (nextDown32 m e) = true
      ∧ (val32 (nextDown32 m e)).real < (FVal.fin false m e).real
      ∧ ∀ w : Word, isFinite32 w = true → (val32 w).real < (FVal.fin false m e).real →
          (val32 w).real ≤ (val32 (nextDown32 m e)).real

/-- R146: for a valid rate, a frequency that is neither NaN nor below F_MIN nor at Nyquist or above it is kept. One
that is NaN or below F_MIN becomes F_MIN, where that lies below Nyquist; every other becomes the largest binary32
value below Nyquist. The flag says whether the word changed. -/
def Obligations.ClampedFrequenciesLieBelowNyquist : Prop :=
  ∀ f fs : Word, fsValid fs = true →
    let r := clampF f fs
    let nyquist := (val32 fs).real / 2
    let low := isNaN32 f = true ∨ f = 0xFF800000#32 ∨ (isFinite32 f = true ∧ (val32 f).real < 1)
    let high := f = 0x7F800000#32 ∨ (isFinite32 f = true ∧ nyquist ≤ (val32 f).real)
    isFinite32 r.1 = true ∧ (val32 r.1).real < nyquist ∧ r.2 = decide (r.1 ≠ f)
      ∧ (¬ low → ¬ high → r = (f, false))
      ∧ (low → 1 < nyquist → r = (0x3F800000#32, true))
      ∧ ((low ∧ nyquist ≤ 1) ∨ (¬ low ∧ high) → ∀ w : Word, isFinite32 w = true →
          (val32 w).real < nyquist → (val32 w).real ≤ (val32 r.1).real)

/-- R150 to R153, R155, R157, R158. Every design has slope index + 1 sections in each cut stage; its finite check says
exactly that all its sets are finite, and then its shadow is legal. Each stage depends on the rate and its own
clamped settings only. In every cut section b2 = b0 word for word, and b1 is b0 doubled: −2·b0 exactly in LowCut,
2·b0 in HighCut where b0 is above the subnormal corner of log 14. And slot k uses the tangent at its own stage's
frequency and the quality of its own number: where Libm gives 1 for that cosine (Q = 1/2) or 1/2 (Q = 1), and
0, 1/2 or 1 for the tangent, the set is the one R152 or R153 gives there; with a tangent of 0 no HighCut set
is finite. -/
def Obligations.AcceptedDesignsAreFiniteAndSized : Prop :=
  ∀ (lm : Libm) (snap : Snapshot),
    let d := design lm snap
    let nl := snap.nl.toNat + 1
    let nh := snap.nh.toNat + 1
    let tanAt (f : Word) := call64 lm.tan ((pi64.mul64 (widen (clampF f snap.fs).1)).div64 (widen snap.fs))
    let cosAt (n k : Nat) := call64 lm.cos (((int64 (2 * k + 1)).mul64 pi64).div64 (int64 (4 * n)))
    let half := val64 0x3FE0000000000000#64
    (d.lc.length = nl ∧ d.hc.length = nh)
      ∧ (d.ok = true ↔ d.pk.isFinite = true ∧ (∀ c ∈ d.lc, c.isFinite = true) ∧ ∀ c ∈ d.hc, c.isFinite = true)
      ∧ (d.ok = true → d.shadow.legal)
      ∧ (∀ snap' : Snapshot, snap'.fs = snap.fs →
          ((clampF snap'.lcf snap.fs).1 = (clampF snap.lcf snap.fs).1 → snap'.nl = snap.nl →
              (design lm snap').lc = d.lc)
            ∧ ((clampF snap'.hcf snap.fs).1 = (clampF snap.hcf snap.fs).1 → snap'.nh = snap.nh →
              (design lm snap').hc = d.hc)
            ∧ ((clampF snap'.pkf snap.fs).1 = (clampF snap.pkf snap.fs).1 → snap'.gdb = snap.gdb →
              (clampQ snap'.q).1 = (clampQ snap.q).1 → (design lm snap').pk = d.pk))
      ∧ (∀ c ∈ d.lc, c.words.b2 = c.words.b0 ∧ (c.isFinite = true → c.b1.real = -2 * c.b0.real))
      ∧ (∀ c ∈ d.hc, c.words.b2 = c.words.b0
          ∧ (c.isFinite = true → (FVal.fin false 1 (-126)).real < |c.b0.real| → c.b1.real = 2 * c.b0.real))
      ∧ (∀ k < nl,
          (tanAt snap.lcf = int64 0 → cosAt nl k = int64 1 → (d.lc[k]?).map CoefVals.words
              = some ⟨0x3F800000#32, 0xC0000000#32, 0x3F800000#32, 0xC0000000#32, 0x3F800000#32⟩)
            ∧ (tanAt snap.lcf = int64 1 → cosAt nl k = int64 1 → (d.lc[k]?).map CoefVals.words
              = some ⟨0x3E800000#32, 0xBF000000#32, 0x3E800000#32, 0#32, 0#32⟩)
            ∧ (tanAt snap.lcf = int64 1 → cosAt nl k = half → (d.lc[k]?).map CoefVals.words
              = some ⟨0x3EAAAAAB#32, 0xBF2AAAAB#32, 0x3EAAAAAB#32, 0#32, 0x3EAAAAAB#32⟩)
            ∧ (tanAt snap.lcf = half → cosAt nl k = int64 1 → (d.lc[k]?).map CoefVals.words
              = some ⟨0x3EE38E39#32, 0xBF638E39#32, 0x3EE38E39#32, 0xBF2AAAAB#32, 0x3DE38E39#32⟩))
      ∧ (∀ k < nh,
          (tanAt snap.hcf = int64 1 → cosAt nh k = int64 1 → (d.hc[k]?).map CoefVals.words
              = some ⟨0x3E800000#32, 0x3F000000#32, 0x3E800000#32, 0#32, 0#32⟩)
            ∧ (tanAt snap.hcf = int64 1 → cosAt nh k = half → (d.hc[k]?).map CoefVals.words
              = some ⟨0x3EAAAAAB#32, 0x3F2AAAAB#32, 0x3EAAAAAB#32, 0#32, 0x3EAAAAAB#32⟩)
            ∧ (tanAt snap.hcf = half → cosAt nh k = int64 1 → (d.hc[k]?).map CoefVals.words
              = some ⟨0x3DE38E39#32, 0x3E638E39#32, 0x3DE38E39#32, 0xBF2AAAAB#32, 0x3DE38E39#32⟩))
      ∧ (tanAt snap.hcf = int64 0 → ∀ c ∈ d.hc, c.isFinite = false)

/-- R149: at 0 dB, for a Libm whose pow10 of a zero is 1, an accepted Peak design is the identity: b0 = 1, b1 = a1,
b2 = a2. And R148, R149, R154 at a boost: where pow10 gives 4 for the gain (A = 2) and the angle of the clamped
frequency has sine 1 and cosine 3/4, the Peak set of the design is (2, −1, −2/3, −1, 1/3) for a clamped quality
of 1/2 (alpha = 1) and (8/5, −6/5, 0, −6/5, 3/5) for one of 1 (alpha = 1/2), each rounded to binary32. -/
def Obligations.PeakAtZeroDecibelsIsTheIdentity : Prop :=
  (∀ (lm : Libm) (f fs q : FVal), call64 lm.pow10 ((widen 0x00000000#32).div64 (int64 20)) = int64 1 →
    let c := peakDesign lm f fs (widen 0x00000000#32) q
    c.isFinite = true → c.words.b0 = 0x3F800000#32 ∧ c.words.b1 = c.words.a1 ∧ c.words.b2 = c.words.a2)
    ∧ ∀ (lm : Libm) (snap : Snapshot),
      let w0 := (((int64 2).mul64 pi64).mul64 (widen (clampF snap.pkf snap.fs).1)).div64 (widen snap.fs)
      call64 lm.pow10 ((widen snap.gdb).div64 (int64 20)) = int64 4 → call64 lm.sin w0 = int64 1 →
        call64 lm.cos w0 = val64 0x3FE8000000000000#64 →
          ((clampQ snap.q).1 = 0x3F000000#32 → (design lm snap).pk.words
              = ⟨0x40000000#32, 0xBF800000#32, 0xBF2AAAAB#32, 0xBF800000#32, 0x3EAAAAAB#32⟩)
            ∧ ((clampQ snap.q).1 = 0x3F800000#32 → (design lm snap).pk.words
              = ⟨0x3FCCCCCD#32, 0xBF99999A#32, 0x00000000#32, 0xBF99999A#32, 0x3F19999A#32⟩)

/-! ### Arithmetic -/

/-- R140, R143: a finite exact value is rounded to a nearest value of the format, to the even one of two; a result
past the largest finite value by half a unit or more is the infinity. -/
def Obligations.RoundingIsToNearestEven : Prop :=
  ∀ (f : Fmt) (n : Bool) (m : Nat) (e : Int), f = b32 ∨ f = b64 →
    let g := f.roundMag m e
    (FVal.fin n m e).round f = f.value n g ∧ g ≤ f.infMag
      ∧ (g < f.infMag → ∀ (n' : Bool) (g' : Nat), g' < f.infMag →
          |(f.value n g).real - (FVal.fin n m e).real| ≤ |(f.value n' g').real - (FVal.fin n m e).real|
            ∧ (|(f.value n g).real - (FVal.fin n m e).real| = |(f.value n' g').real - (FVal.fin n m e).real|
                → g' ≠ g → g % 2 = 0))
      ∧ (g = f.infMag ↔
          (FVal.fin false (2 ^ (f.fracBits + 2) - 1) (f.emin + 2 ^ f.expBits - 4)).real
            ≤ (FVal.fin false m e).real)

/-- R140: sums, differences and products are computed exactly before their one rounding; a zero sum is −0 only of
two negative operands, and a product has the sign the two operands give. R142: a NaN operand, ∞ − ∞ and 0 × ∞ give
NaN, and every other operation on an infinity gives an infinity of the sign IEEE says. -/
def Obligations.SumsAndProductsAreExactBeforeRounding : Prop :=
  (∀ a b : FVal, a.isFinite = true → b.isFinite = true →
    (a.add b).isFinite = true ∧ (a.add b).real = a.real + b.real
      ∧ (a.sub b).isFinite = true ∧ (a.sub b).real = a.real - b.real
      ∧ (a.mul b).isFinite = true ∧ (a.mul b).real = a.real * b.real)
    ∧ (∀ (n n' : Bool) (m m' : Nat) (e e' : Int),
      let a := FVal.fin n m e
      let b := FVal.fin n' m' e'
      ((a.add b).real = 0 → ∃ k, a.add b = .fin (n && n') 0 k)
        ∧ ((a.sub b).real = 0 → ∃ k, a.sub b = .fin (n && !n') 0 k)
        ∧ ∃ l k, a.mul b = .fin (n ^^ n') l k)
    ∧ (∀ a : FVal, FVal.add .nan a = .nan ∧ a.add .nan = .nan ∧ FVal.sub .nan a = .nan ∧ a.sub .nan = .nan
      ∧ FVal.mul .nan a = .nan ∧ a.mul .nan = .nan)
    ∧ ∀ (n n' : Bool) (m : Nat) (e : Int),
      let a := FVal.inf n
      let b := FVal.fin n' m e
      a.add (.inf n') = (if n = n' then .inf n else .nan) ∧ a.sub (.inf n') = (if n = n' then .nan else .inf n)
        ∧ a.add b = .inf n ∧ b.add a = .inf n ∧ a.sub b = .inf n ∧ b.sub a = .inf !n
        ∧ a.mul (.inf n') = .inf (n ^^ n')
        ∧ a.mul b = (if m = 0 then .nan else .inf (n ^^ n')) ∧ b.mul a = (if m = 0 then .nan else .inf (n ^^ n'))

/-- R143: no binary64 value is nearer to the exact quotient than the quotient the design unit computes. -/
def Obligations.QuotientsRoundToNearest : Prop :=
  ∀ (n n' : Bool) (m m' : Nat) (e e' : Int), 0 < m' →
    let a := FVal.fin n m e
    let b := FVal.fin n' m' e'
    (a.div64 b).isFinite = true → ∀ (k : Bool) (g : Nat), g < b64.infMag →
      |(a.div64 b).real - a.real / b.real| ≤ |(b64.value k g).real - a.real / b.real|

/-- R143: the root `sqrt64` computes of a finite positive value lies, like the exact root, on its own side of the
midpoint to every other binary64 value. The midpoint's square says so, with no real square root. -/
def Obligations.RootsRoundToNearest : Prop :=
  ∀ (m : Nat) (e : Int), 0 < m →
    let a := FVal.fin false m e
    let r := a.sqrt64
    r.isFinite = true → 0 ≤ r.real ∧ ∀ g : Nat, g < b64.infMag →
      (r.real < (b64.value false g).real → a.real ≤ ((r.real + (b64.value false g).real) / 2) ^ 2)
        ∧ ((b64.value false g).real < r.real → ((r.real + (b64.value false g).real) / 2) ^ 2 ≤ a.real)

/-- R141: the audio path's operations with FTZ = 0 are plain IEEE operations; with FTZ = 1 subnormal operands and
results are replaced by the zero of their sign, and nothing else is. -/
def Obligations.FlushReplacesExactlySubnormals : Prop :=
  (∀ (op : FVal → FVal → FVal) (a b : FVal), op32 false op a b = (op a b).round b32)
    ∧ (∀ w : Word, flush true (val32 w)
        = if isSubnormal32 w then val32 (w &&& 0x80000000#32) else val32 w)
    ∧ (∀ (op : FVal → FVal → FVal) (a b : FVal),
        op32 true op a b = flush true (op32 false op (flush true a) (flush true b)))
end

