-- ==== Sys2Proof/Laws/Float.lean ====
section
/-! SUPPORT. The values of a format, in order; and what rounding does before an overflow is cut off. -/

namespace Sys2Proof

/-- The power of two that magnitude bits `g` are scaled by, over `2^emin`. -/
def Fmt.scale (f : Fmt) (g : Nat) : Nat := g / 2 ^ f.fracBits - 1

/-- What magnitude bits are worth when the exponent field is read without bound. -/
def Fmt.magReal (f : Fmt) (g : Nat) : ℚ :=
  ((g : ℚ) - f.scale g * 2 ^ f.fracBits) * 2 ^ (f.emin + f.scale g)

/-- A sign as a factor. -/
def signOf (neg : Bool) : ℚ := if neg then -1 else 1

@[simp] theorem signOf_false : signOf false = 1 := rfl

@[simp] theorem signOf_true : signOf true = -1 := rfl

theorem real_fin (n : Bool) (m : Nat) (e : Int) : (FVal.fin n m e).real = signOf n * m * 2 ^ e := rfl

/-- Magnitude bits from a significand and a scale. -/
theorem magReal_of {f : Fmt} (p sig : Nat) (h : sig ≤ 2 ^ (f.fracBits + 1)) (h' : p = 0 ∨ 2 ^ f.fracBits ≤ sig) :
    f.magReal (p * 2 ^ f.fracBits + sig) = sig * 2 ^ (f.emin + p) := by
  have hF : 0 < 2 ^ f.fracBits := by positivity
  have hdiv : (p * 2 ^ f.fracBits + sig) / 2 ^ f.fracBits = p + sig / 2 ^ f.fracBits := by
    rw [Nat.add_comm, Nat.add_mul_div_right _ _ hF, Nat.add_comm]
  have hs : sig / 2 ^ f.fracBits ≤ 2 := by
    rw [Nat.div_le_iff_le_mul_add_pred hF]
    rw [pow_succ] at h
    omega
  unfold Fmt.magReal Fmt.scale
  rw [hdiv]
  rcases Nat.lt_or_ge sig (2 ^ (f.fracBits + 1)) with hlt | hge
  · have hs1 : sig / 2 ^ f.fracBits < 2 := by
      rw [Nat.div_lt_iff_lt_mul hF]
      rw [pow_succ] at hlt
      omega
    have hp : p + sig / 2 ^ f.fracBits - 1 = p := by
      rcases h' with h' | h'
      · omega
      · have : 1 ≤ sig / 2 ^ f.fracBits := (Nat.one_le_div_iff hF).2 h'
        omega
    rw [hp]
    push_cast
    ring
  · have hse : sig = 2 ^ (f.fracBits + 1) := le_antisymm h hge
    have h2 : sig / 2 ^ f.fracBits = 2 := by
      rw [hse, pow_succ, Nat.mul_div_cancel_left _ hF]
    rw [h2, show p + 2 - 1 = p + 1 by omega, hse]
    push_cast
    rw [show f.emin + ((p : ℤ) + 1) = (f.emin + p) + 1 by ring, zpow_add_one₀ (by norm_num : (2 : ℚ) ≠ 0)]
    ring

/-- The significand of magnitude bits, to go with `Fmt.scale`. -/
theorem scale_spec (f : Fmt) (g : Nat) :
    ∃ sig, g = f.scale g * 2 ^ f.fracBits + sig ∧ sig < 2 ^ (f.fracBits + 1)
      ∧ (f.scale g = 0 ∨ 2 ^ f.fracBits ≤ sig) := by
  have hF : 0 < 2 ^ f.fracBits := by positivity
  have h := Nat.div_add_mod g (2 ^ f.fracBits)
  have hm := Nat.mod_lt g hF
  rw [Nat.mul_comm] at h
  rcases Nat.eq_zero_or_pos (g / 2 ^ f.fracBits) with h0 | h0
  · refine ⟨g, by simp [Fmt.scale, h0], ?_, .inl (by simp [Fmt.scale, h0])⟩
    rw [h0] at h
    rw [pow_succ]
    omega
  · obtain ⟨p, hp⟩ : ∃ p, g / 2 ^ f.fracBits = p + 1 := ⟨_, (Nat.succ_pred_eq_of_pos h0).symm⟩
    rw [hp, Nat.add_mul, Nat.one_mul] at h
    refine ⟨2 ^ f.fracBits + g % 2 ^ f.fracBits, ?_, by rw [pow_succ]; omega, .inr (by omega)⟩
    simp only [Fmt.scale, hp, Nat.add_sub_cancel]
    omega

/-- One unit more. -/
theorem magReal_succ (f : Fmt) (g : Nat) :
    f.magReal (g + 1) = f.magReal g + 2 ^ (f.emin + f.scale g) := by
  obtain ⟨sig, hg, hs, h⟩ := scale_spec f g
  have e1 := magReal_of (f := f) (f.scale g) sig hs.le h
  have e2 := magReal_of (f := f) (f.scale g) (sig + 1) hs (h.imp id fun h => by omega)
  rw [← Nat.add_assoc, ← hg] at e2
  rw [← hg] at e1
  rw [e1, e2]
  push_cast
  ring

theorem magReal_strictMono (f : Fmt) : StrictMono f.magReal := by
  refine strictMono_nat_of_lt_succ fun g => ?_
  rw [magReal_succ]
  have : (0 : ℚ) < 2 ^ (f.emin + f.scale g) := by positivity
  linarith

@[simp] theorem magReal_zero (f : Fmt) : f.magReal 0 = 0 := by simp [Fmt.magReal, Fmt.scale]

theorem magReal_nonneg (f : Fmt) (g : Nat) : 0 ≤ f.magReal g := by
  rw [← magReal_zero f]
  exact (magReal_strictMono f).monotone (Nat.zero_le g)

/-- A finite value of a format. -/
theorem value_finite {f : Fmt} {g : Nat} (n : Bool) (h : g < f.infMag) :
    ∃ m e, f.value n g = .fin n m e ∧ m * (2 : ℚ) ^ e = f.magReal g := by
  have hF : 0 < 2 ^ f.fracBits := by positivity
  unfold Fmt.value
  rw [if_pos h]
  split
  · rename_i hlt
    refine ⟨_, _, rfl, ?_⟩
    have h0 : f.scale g = 0 := by simp [Fmt.scale, Nat.div_eq_of_lt hlt]
    simp [Fmt.magReal, h0]
  · rename_i hge
    refine ⟨_, _, rfl, ?_⟩
    have hd : 1 ≤ g / 2 ^ f.fracBits := (Nat.one_le_div_iff hF).2 (by omega)
    have e := magReal_of (f := f) (f.scale g) (2 ^ f.fracBits + g % 2 ^ f.fracBits)
      (by rw [pow_succ]; have := Nat.mod_lt g hF; omega) (.inr (by omega))
    have hg : f.scale g * 2 ^ f.fracBits + (2 ^ f.fracBits + g % 2 ^ f.fracBits) = g := by
      obtain ⟨p, hp⟩ : ∃ p, g / 2 ^ f.fracBits = p + 1 := ⟨_, (Nat.succ_pred_eq_of_pos hd).symm⟩
      have h' := Nat.div_add_mod g (2 ^ f.fracBits)
      rw [Nat.mul_comm, hp, Nat.add_mul, Nat.one_mul] at h'
      simp only [Fmt.scale, hp, Nat.add_sub_cancel]
      omega
    rw [hg] at e
    exact e.symm

theorem value_real {f : Fmt} {g : Nat} (n : Bool) (h : g < f.infMag) :
    (f.value n g).real = signOf n * f.magReal g := by
  obtain ⟨m, e, hv, hr⟩ := value_finite n h
  rw [hv, real_fin, mul_assoc, hr]

theorem value_infMag (f : Fmt) (n : Bool) : f.value n f.infMag = .inf n := by simp [Fmt.value]

theorem value_nan {f : Fmt} {g : Nat} (n : Bool) (h : f.infMag < g) : f.value n g = .nan := by
  simp only [Fmt.value]
  rw [if_neg (by omega), if_neg (by omega)]

/-! ### Rounding -/

theorem roundShift_spec (m d : Nat) :
    (roundShift m d = m / 2 ^ d
        ∧ (2 * m < (2 * (m / 2 ^ d) + 1) * 2 ^ d ∨ 2 * m = (2 * (m / 2 ^ d) + 1) * 2 ^ d ∧ (m / 2 ^ d) % 2 = 0))
      ∨ (roundShift m d = m / 2 ^ d + 1
        ∧ ((2 * (m / 2 ^ d) + 1) * 2 ^ d < 2 * m ∨ 2 * m = (2 * (m / 2 ^ d) + 1) * 2 ^ d ∧ (m / 2 ^ d) % 2 = 1)) := by
  have h := Nat.div_add_mod m (2 ^ d)
  have e : (2 * (m / 2 ^ d) + 1) * 2 ^ d = 2 * (2 ^ d * (m / 2 ^ d)) + 2 ^ d := by ring
  rw [e]
  generalize 2 ^ d * (m / 2 ^ d) = a at *
  simp only [roundShift]
  split <;> omega

/-- The magnitude bits of the largest value of the format, overflow left aside, that is not above `m · 2^e`. -/
def Fmt.floorMag (f : Fmt) (m : Nat) (e : Int) : Nat :=
  let q := f.ulpExp m e
  (q - f.emin).toNat * 2 ^ f.fracBits + m * 2 ^ (e - q).toNat / 2 ^ (q - e).toNat

/-- A scaled significand and its shift are together the exact value. -/
theorem scaled_eq (m : Nat) (e q : Int) :
    ((m * 2 ^ (e - q).toNat : Nat) : ℚ) = m * 2 ^ e / 2 ^ q * 2 ^ (q - e).toNat := by
  have h2 : (2 : ℚ) ≠ 0 := by norm_num
  rcases le_total q e with h | h
  · obtain ⟨k, hk⟩ := Int.eq_ofNat_of_zero_le (show 0 ≤ e - q by omega)
    rw [show q - e = -(k : ℤ) by omega, hk]
    have : (2 : ℚ) ^ e = 2 ^ q * 2 ^ k := by
      rw [show e = q + k by omega, zpow_add₀ h2, zpow_natCast]
    have hq : (2 : ℚ) ^ q ≠ 0 := by positivity
    push_cast
    rw [this]
    simp
    field_simp
  · obtain ⟨k, hk⟩ := Int.eq_ofNat_of_zero_le (show 0 ≤ q - e by omega)
    rw [show e - q = -(k : ℤ) by omega, hk]
    have : (2 : ℚ) ^ q = 2 ^ e * 2 ^ k := by
      rw [show q = e + k by omega, zpow_add₀ h2, zpow_natCast]
    have he : (2 : ℚ) ^ e ≠ 0 := by positivity
    rw [this]
    simp
    field_simp

/-- Where the significand lies: below one binade's end, and at or above its start unless the value is subnormal. -/
theorem significand_bounds (f : Fmt) {m : Nat} (e : Int) (hm : m ≠ 0) :
    let q := f.ulpExp m e
    let sig := m * 2 ^ (e - q).toNat / 2 ^ (q - e).toNat
    f.emin ≤ q ∧ sig < 2 ^ (f.fracBits + 1) ∧ (q = f.emin ∨ 2 ^ f.fracBits ≤ sig)
      ∧ sig * (2 : ℚ) ^ q ≤ m * 2 ^ e ∧ m * 2 ^ e < (sig + 1 : Nat) * (2 : ℚ) ^ q := by
  intro q sig
  have h2 : (2 : ℚ) ≠ 0 := by norm_num
  have hq : f.emin ≤ q := le_max_left _ _
  have hpos : (0 : ℚ) < 2 ^ q := by positivity
  have hd : 0 < 2 ^ (q - e).toNat := by positivity
  have hsc := scaled_eq m e q
  have lo : sig * (2 : ℚ) ^ q ≤ m * 2 ^ e := by
    have h := Nat.div_mul_le_self (m * 2 ^ (e - q).toNat) (2 ^ (q - e).toNat)
    have h' : (sig : ℚ) * 2 ^ (q - e).toNat ≤ (m * 2 ^ (e - q).toNat : Nat) := by
      exact_mod_cast h
    rw [hsc] at h'
    have := le_of_mul_le_mul_right h' (by positivity)
    exact (le_div_iff₀ hpos).1 this
  have hi : m * 2 ^ e < (sig + 1 : Nat) * (2 : ℚ) ^ q := by
    have h := Nat.lt_div_mul_add (a := m * 2 ^ (e - q).toNat) hd
    have h' : ((m * 2 ^ (e - q).toNat : Nat) : ℚ) < (sig + 1 : Nat) * 2 ^ (q - e).toNat := by
      have : m * 2 ^ (e - q).toNat < (sig + 1) * 2 ^ (q - e).toNat := by
        rw [Nat.add_mul, Nat.one_mul]
        exact h
      exact_mod_cast this
    rw [hsc] at h'
    have := lt_of_mul_lt_mul_right h' (by positivity)
    exact (div_lt_iff₀ hpos).1 this
  have hlo : (2 : ℚ) ^ (e + m.log2) ≤ m * 2 ^ e := by
    rw [zpow_add₀ h2, mul_comm, zpow_natCast]
    have : (2 : ℚ) ^ m.log2 ≤ m := by exact_mod_cast Nat.log2_self_le hm
    gcongr
  have hhi : (m : ℚ) * 2 ^ e < 2 ^ (e + m.log2 + 1) := by
    rw [add_assoc, zpow_add₀ h2, mul_comm]
    have : (m : ℚ) < 2 ^ ((m.log2 : ℤ) + 1) := by
      have := Nat.lt_log2_self (n := m)
      exact_mod_cast this
    gcongr
  refine ⟨hq, ?_, ?_, lo, hi⟩
  · have hle : e + m.log2 + 1 ≤ q + (f.fracBits + 1 : Nat) := by
      have : e + m.log2 - f.fracBits ≤ q := le_max_right _ _
      push_cast
      omega
    have h1 : (sig : ℚ) * 2 ^ q < 2 ^ (q + (f.fracBits + 1 : Nat)) :=
      lo.trans_lt (hhi.trans_le (zpow_le_zpow_right₀ (by norm_num) hle))
    rw [zpow_add₀ h2, mul_comm, zpow_natCast] at h1
    have := lt_of_mul_lt_mul_left h1 hpos.le
    exact_mod_cast this
  · rcases max_choice f.emin (e + m.log2 - f.fracBits) with h | h
    · exact .inl h
    · right
      have hqe : q = e + m.log2 - f.fracBits := h
      have h1 : (2 : ℚ) ^ (q + (f.fracBits : Nat)) < (sig + 1 : Nat) * 2 ^ q := by
        have : q + (f.fracBits : ℤ) = e + m.log2 := by omega
        rw [this]
        exact hlo.trans_lt hi
      rw [zpow_add₀ h2, mul_comm, zpow_natCast] at h1
      have h3 := lt_of_mul_lt_mul_right h1 hpos.le
      have : 2 ^ f.fracBits < sig + 1 := by exact_mod_cast h3
      omega

/-- The exact value lies between two neighbours of the format, overflow left aside. -/
theorem floorMag_bracket (f : Fmt) {m : Nat} (e : Int) (hm : m ≠ 0) :
    f.magReal (f.floorMag m e) ≤ m * 2 ^ e ∧ m * 2 ^ e < f.magReal (f.floorMag m e + 1)
      ∧ f.magReal (f.floorMag m e + 1) = f.magReal (f.floorMag m e) + 2 ^ f.ulpExp m e := by
  obtain ⟨hq, hs, hb, lo, hi⟩ := significand_bounds f e hm
  have hp : (f.emin + ((f.ulpExp m e - f.emin).toNat : ℤ)) = f.ulpExp m e := by omega
  have hb' : (f.ulpExp m e - f.emin).toNat = 0 ∨ _ := hb.imp (fun h => by omega) id
  have e1 := magReal_of (f := f) _ _ hs.le hb'
  have e2 := magReal_of (f := f) _ _ (Nat.succ_le_of_lt hs) (hb'.imp id Nat.le_succ_of_le)
  rw [hp] at e1 e2
  simp only [Fmt.floorMag]
  rw [Nat.add_assoc, e1, show _ + 1 = Nat.succ _ from rfl, e2]
  refine ⟨lo, hi, ?_⟩
  push_cast
  ring

/-- Rounding takes the lower neighbour or the upper one, by the side of their midpoint the value lies on, and
the even one of the two at the midpoint; an overflow is cut off at the infinity. -/
theorem roundMag_spec (f : Fmt) {m : Nat} (e : Int) (hF : 1 ≤ f.fracBits) (hm : m ≠ 0) :
    let g := f.floorMag m e
    let mid := f.magReal g + f.magReal (g + 1)
    (f.roundMag m e = min f.infMag g ∧ (2 * (m * (2 : ℚ) ^ e) < mid ∨ 2 * (m * (2 : ℚ) ^ e) = mid ∧ g % 2 = 0))
      ∨ (f.roundMag m e = min f.infMag (g + 1)
        ∧ (mid < 2 * (m * (2 : ℚ) ^ e) ∨ 2 * (m * (2 : ℚ) ^ e) = mid ∧ g % 2 = 1)) := by
  obtain ⟨hq, hs, hb, lo, hi⟩ := significand_bounds f e hm
  intro g mid
  have hp : (f.emin + ((f.ulpExp m e - f.emin).toNat : ℤ)) = f.ulpExp m e := by omega
  have hb' : (f.ulpExp m e - f.emin).toNat = 0 ∨ _ := hb.imp (fun h => by omega) id
  have e1 := magReal_of (f := f) _ _ hs.le hb'
  have e2 := (floorMag_bracket f e hm).2.2
  rw [hp] at e1
  have hg : f.magReal g = _ := e1
  set q := f.ulpExp m e with hqdef
  set M := m * 2 ^ (e - q).toNat with hM
  set d := (q - e).toNat with hd
  set sig := M / 2 ^ d with hsig
  have hmid : mid = (2 * sig + 1) * 2 ^ q := by
    show f.magReal g + f.magReal (g + 1) = _
    rw [e2, show f.magReal (f.floorMag m e) = f.magReal g from rfl, hg]
    ring
  have hpar : g % 2 = sig % 2 := by
    obtain ⟨k, hk⟩ : ∃ k, f.fracBits = k + 1 := ⟨f.fracBits - 1, by omega⟩
    have : g = (q - f.emin).toNat * 2 ^ f.fracBits + sig := rfl
    rw [this, hk, pow_succ, ← Nat.mul_assoc]
    omega
  have hval : (m : ℚ) * 2 ^ e * 2 ^ d = M * 2 ^ q := by
    have h := scaled_eq m e q
    rw [← hM, ← hd] at h
    rw [h]
    field_simp
  have key (c : ℚ) : (2 * (m * (2 : ℚ) ^ e) < c * 2 ^ q ↔ 2 * (M : ℚ) < c * 2 ^ d)
      ∧ (c * 2 ^ q < 2 * (m * (2 : ℚ) ^ e) ↔ c * 2 ^ d < 2 * (M : ℚ))
      ∧ (2 * (m * (2 : ℚ) ^ e) = c * 2 ^ q ↔ 2 * (M : ℚ) = c * 2 ^ d) := by
    have hd0 : (0 : ℚ) < 2 ^ d := by positivity
    have hq0 : (0 : ℚ) < 2 ^ q := by positivity
    have l1 : 2 * ((m : ℚ) * 2 ^ e) * 2 ^ d = 2 * M * 2 ^ q := by linear_combination 2 * hval
    have l2 : c * 2 ^ q * 2 ^ d = c * 2 ^ d * 2 ^ q := by ring
    refine ⟨?_, ?_, ?_⟩
    · rw [← mul_lt_mul_iff_left₀ hd0, l1, l2, mul_lt_mul_iff_left₀ hq0]
    · rw [← mul_lt_mul_iff_left₀ hd0, l1, l2, mul_lt_mul_iff_left₀ hq0]
    · rw [← mul_left_inj' hd0.ne', l1, l2, mul_left_inj' hq0.ne']
  have hr : f.roundMag m e = min f.infMag ((q - f.emin).toNat * 2 ^ f.fracBits + roundShift M d) := by
    unfold Fmt.roundMag
    rw [if_neg hm]
  rw [hmid, hpar, hr]
  obtain ⟨k1, k2, k3⟩ := key (2 * sig + 1)
  rw [k1, k2, k3]
  rcases roundShift_spec M d with ⟨h, h'⟩ | ⟨h, h'⟩
  · left
    refine ⟨by rw [h]; rfl, ?_⟩
    rcases h' with h' | ⟨h', h''⟩
    · left; exact_mod_cast h'
    · right; exact ⟨by exact_mod_cast h', h''⟩
  · right
    refine ⟨by rw [h]; rfl, ?_⟩
    rcases h' with h' | ⟨h', h''⟩
    · left; exact_mod_cast h'
    · right; exact ⟨by exact_mod_cast h', h''⟩

theorem floorMag_unique (f : Fmt) {m : Nat} (e : Int) (hm : m ≠ 0) {g : Nat} (h : f.magReal g ≤ m * 2 ^ e)
    (h' : m * 2 ^ e < f.magReal (g + 1)) : f.floorMag m e = g := by
  obtain ⟨lo, hi, -⟩ := floorMag_bracket f e hm
  have a := (magReal_strictMono f).lt_iff_lt.1 (lo.trans_lt h')
  have b := (magReal_strictMono f).lt_iff_lt.1 (h.trans_lt hi)
  omega

/-- What rounding gives for a value on the format's own scale, overflow cut off. -/
theorem roundMag_of_magReal (f : Fmt) {m : Nat} (e : Int) (hF : 1 ≤ f.fracBits) {g : Nat}
    (h : m * (2 : ℚ) ^ e = f.magReal g) : f.roundMag m e = min f.infMag g := by
  rcases eq_or_ne m 0 with rfl | hm
  · have h0 : f.magReal g = f.magReal 0 := by rw [← h]; simp
    rw [(magReal_strictMono f).injective h0]
    simp [Fmt.roundMag]
  · have hlt := magReal_strictMono f (Nat.lt_succ_self g)
    have hfl : f.floorMag m e = g := floorMag_unique f e hm h.ge (h ▸ hlt)
    rw [Nat.succ_eq_add_one] at hlt
    rcases roundMag_spec f e hF hm with ⟨h1, -⟩ | ⟨-, h2⟩
    · rw [h1, hfl]
    · rw [hfl, h] at h2
      rcases h2 with h2 | ⟨h2, -⟩ <;> linarith

/-- A value of the format rounds to itself. -/
theorem roundMag_exact (f : Fmt) {m : Nat} (e : Int) (hF : 1 ≤ f.fracBits) {g : Nat} (hg : g < f.infMag)
    (h : m * (2 : ℚ) ^ e = f.magReal g) : f.roundMag m e = g :=
  (roundMag_of_magReal f e hF h).trans (min_eq_right hg.le)

/-- A finite value is rounded to a value of the format. -/
theorem roundMag_le (f : Fmt) (m : Nat) (e : Int) : f.roundMag m e ≤ f.infMag := by
  unfold Fmt.roundMag
  split
  · exact Nat.zero_le _
  · exact Nat.min_le_left _ _

/-- Rounding a value of the format changes nothing. -/
theorem round_value {f : Fmt} (hF : 1 ≤ f.fracBits) (n : Bool) (g : Nat) :
    (f.value n g).round f = f.value n g := by
  rcases lt_trichotomy g f.infMag with h | rfl | h
  · obtain ⟨m, e, hv, hr⟩ := value_finite n h
    rw [hv]
    simp only [FVal.round]
    rw [roundMag_exact f e hF h hr, hv]
  · rw [value_infMag]
    rfl
  · rw [value_nan n h]
    rfl

/-! ### Comparison -/

theorem signedInt_cast (n : Bool) (m : Nat) : ((signedInt n m : Int) : ℚ) = signOf n * m := by
  cases n <;> simp [signedInt]

/-- A significand moved to a lower exponent. -/
theorem scaled_lower {lo e : Int} (m : Nat) (h : lo ≤ e) :
    ((m * 2 ^ (e - lo).toNat : Nat) : ℚ) * 2 ^ lo = m * 2 ^ e := by
  have h0 := scaled_eq m e lo
  rw [show (lo - e).toNat = 0 by omega, pow_zero, mul_one] at h0
  rw [h0]
  have : (2 : ℚ) ^ lo ≠ 0 := by positivity
  field_simp

theorem lt_iff_real (n n' : Bool) (m m' : Nat) (e e' : Int) :
    (FVal.fin n m e).lt (.fin n' m' e') = true ↔ (FVal.fin n m e).real < (FVal.fin n' m' e').real := by
  have h1 := scaled_lower m (min_le_left e e')
  have h2 := scaled_lower m' (min_le_right e e')
  have hp : (0 : ℚ) < 2 ^ (min e e') := by positivity
  simp only [FVal.lt, decide_eq_true_eq, real_fin]
  rw [mul_assoc, ← h1, mul_assoc, ← h2, ← mul_assoc, ← mul_assoc, mul_lt_mul_iff_left₀ hp,
    ← signedInt_cast, ← signedInt_cast, Int.cast_lt]

/-! ### binary32 words -/

theorem b32_infMag : b32.infMag = 0x7F800000 := by decide

theorem b32_fracBits : b32.fracBits = 23 := rfl

theorem word32_toNat (n : Bool) {g : Nat} (h : g < 2 ^ 31) :
    (word32 n g).toNat = cond n (2 ^ 31) 0 + g := by
  cases n <;> (simp [word32]; omega)

theorem word32_msb (n : Bool) {g : Nat} (h : g < 2 ^ 31) : (word32 n g).msb = n := by
  rw [BitVec.msb_eq_decide, word32_toNat n h]
  cases n
  · simp
    omega
  · simp

/-- A word is its sign and its magnitude bits. -/
theorem word32_self (w : Word) : word32 w.msb (w.toNat % 2 ^ 31) = w := by
  apply BitVec.eq_of_toNat_eq
  rw [word32_toNat _ (Nat.mod_lt _ (by norm_num)), BitVec.msb_eq_decide]
  have := w.isLt
  by_cases h : 2 ^ 31 ≤ w.toNat
  · rw [decide_eq_true h, cond_true]
    omega
  · rw [decide_eq_false h, cond_false]
    omega

theorem val32_word32 (n : Bool) {g : Nat} (h : g < 2 ^ 31) : val32 (word32 n g) = b32.value n g := by
  unfold val32
  rw [word32_msb n h, word32_toNat n h]
  congr 1
  cases n <;> (simp; omega)

theorem isNaN_value (f : Fmt) (n : Bool) (g : Nat) : (f.value n g).isNaN = decide (f.infMag < g) := by
  rcases lt_trichotomy g f.infMag with h | rfl | h
  · obtain ⟨m, e, hv, -⟩ := value_finite n h
    rw [hv]
    simp [FVal.isNaN]
    omega
  · rw [value_infMag]
    simp [FVal.isNaN]
  · rw [value_nan n h]
    simp [FVal.isNaN, h]

theorem isFinite_value (f : Fmt) (n : Bool) (g : Nat) : (f.value n g).isFinite = decide (g < f.infMag) := by
  rcases lt_trichotomy g f.infMag with h | rfl | h
  · obtain ⟨m, e, hv, -⟩ := value_finite n h
    rw [hv]
    simp [FVal.isFinite, h]
  · rw [value_infMag]
    simp [FVal.isFinite]
  · rw [value_nan n h]
    simp [FVal.isFinite]
    omega

theorem isNaN32_iff (w : Word) : isNaN32 w = true ↔ 0x7F800000 < w.toNat % 2 ^ 31 := by
  unfold isNaN32 val32
  rw [isNaN_value, b32_infMag, decide_eq_true_eq]

theorem isFinite32_iff (w : Word) : isFinite32 w = true ↔ w.toNat % 2 ^ 31 < 0x7F800000 := by
  unfold isFinite32 val32
  rw [isFinite_value, b32_infMag, decide_eq_true_eq]

/-- A finite word's value. -/
theorem val32_fin {w : Word} (h : isFinite32 w = true) :
    ∃ m e, val32 w = .fin w.msb m e ∧ m * (2 : ℚ) ^ e = b32.magReal (w.toNat % 2 ^ 31) :=
  value_finite _ (by rw [b32_infMag]; exact (isFinite32_iff w).1 h)

theorem val32_real {w : Word} (h : isFinite32 w = true) :
    (val32 w).real = signOf w.msb * b32.magReal (w.toNat % 2 ^ 31) :=
  value_real _ (by rw [b32_infMag]; exact (isFinite32_iff w).1 h)

/-- Encoding a word's own value gives the word back, a NaN's drawn word apart. -/
theorem round32_val32 (drawn w : Word) (h : isNaN32 w = false) : round32 drawn (val32 w) = w := by
  have hlt : w.toNat % 2 ^ 31 < 2 ^ 31 := Nat.mod_lt _ (by norm_num)
  have hn : ¬ b32.infMag < w.toNat % 2 ^ 31 := by
    rw [b32_infMag, ← isNaN32_iff, h]
    simp
  rcases Nat.lt_or_ge (w.toNat % 2 ^ 31) b32.infMag with hl | hg
  · obtain ⟨m, e, hv, hr⟩ := value_finite w.msb hl
    have hv' : val32 w = .fin w.msb m e := hv
    rw [hv']
    simp only [round32]
    rw [roundMag_exact b32 e (by decide) hl hr, word32_self]
  · have he : w.toNat % 2 ^ 31 = b32.infMag := by omega
    have hv : val32 w = .inf w.msb := by
      unfold val32
      rw [he, value_infMag]
    rw [hv]
    simp only [round32]
    rw [← he, word32_self]

/-- Decoding an encoded value gives the value, once rounded. -/
theorem val32_round32 (drawn : Word) (v : FVal) (h : isNaN32 drawn = true) :
    val32 (round32 drawn v) = v.round b32 := by
  have hinf : b32.infMag < 2 ^ 31 := by decide
  cases v with
  | nan =>
    have : (val32 drawn).isNaN = true := h
    revert this
    show (val32 drawn).isNaN = true → val32 drawn = .nan
    cases val32 drawn <;> simp [FVal.isNaN]
  | inf n =>
    simp only [round32, FVal.round]
    rw [val32_word32 n hinf, value_infMag]
  | fin n m e =>
    simp only [round32, FVal.round]
    exact val32_word32 n ((roundMag_le b32 m e).trans_lt hinf)

/-- A word made of drawn bits is a NaN. -/
theorem isNaN32_nanOf (bits : Word) : isNaN32 (nanOf bits) = true := by
  rw [isNaN32_iff]
  unfold nanOf
  set frac := bits.extractLsb' 0 23
  have h : ∀ (s : BitVec 1) (x : BitVec 23), x ≠ 0#23 → 0x7F800000 < (s ++ 0xFF#8 ++ x).toNat % 2 ^ 31 := by
    intro s x hx
    have hx0 : x.toNat ≠ 0 := fun h => hx (BitVec.eq_of_toNat_eq (by simpa using h))
    have hxl := x.isLt
    have hs := s.isLt
    simp only [BitVec.toNat_append]
    rw [← Nat.shiftLeft_add_eq_or_of_lt (by simp : (0xFF#8).toNat < 2 ^ 8),
      ← Nat.shiftLeft_add_eq_or_of_lt hxl, Nat.shiftLeft_eq, Nat.shiftLeft_eq]
    simp only [BitVec.toNat_ofNat]
    omega
  apply h
  split
  · decide
  · assumption

/-! ### Exact values -/

/-- A value on the format's scale is kept by rounding. -/
theorem round_of_magReal {f : Fmt} (hF : 1 ≤ f.fracBits) (n : Bool) {m : Nat} {e : Int} {g : Nat} (hg : g < f.infMag)
    (h : m * (2 : ℚ) ^ e = f.magReal g) : (FVal.fin n m e).round f = f.value n g := by
  simp only [FVal.round, roundMag_exact f e hF hg h]

/-- A significand of at most 53 bits, its exponent well inside the format, is a binary64 value. -/
theorem representable64 {m : Nat} {e : Int} (hm : m < 2 ^ 53) (h1 : -1022 ≤ e) (h2 : e ≤ 900) :
    ∃ g < b64.infMag, b64.magReal g = m * 2 ^ e := by
  rcases Nat.eq_zero_or_pos m with rfl | hpos
  · exact ⟨0, by decide, by simp⟩
  have hL : m.log2 ≤ 52 := by
    have := (Nat.log2_lt (n := m) (k := 53) (by omega)).2 hm
    omega
  have hlo : 2 ^ m.log2 ≤ m := Nat.log2_self_le (by omega)
  have hhi : m < 2 ^ (m.log2 + 1) := Nat.lt_log2_self
  obtain ⟨k, hk⟩ : ∃ k, m.log2 + k = 52 := ⟨52 - m.log2, by omega⟩
  obtain ⟨p, hp⟩ := Int.eq_ofNat_of_zero_le (show 0 ≤ e - k + 1074 by omega)
  have s1 : 2 ^ 52 ≤ m * 2 ^ k := by
    rw [← hk, pow_add]; exact Nat.mul_le_mul_right _ hlo
  have s2 : m * 2 ^ k < 2 ^ 53 := by
    have : 2 ^ 53 = 2 ^ (m.log2 + 1) * 2 ^ k := by rw [← pow_add]; congr 1; omega
    rw [this]; exact Nat.mul_lt_mul_of_pos_right hhi (by positivity)
  have em : b64.emin = -1074 := by decide
  refine ⟨p * 2 ^ b64.fracBits + m * 2 ^ k, ?_, ?_⟩
  · have : b64.infMag = 2047 * 2 ^ 52 := by decide
    rw [this]
    show p * 2 ^ 52 + _ < _
    omega
  · rw [magReal_of (f := b64) p (m * 2 ^ k) (by show _ ≤ 2 ^ (52 + 1); omega) (.inr s1), em]
    rw [show (-1074 : ℤ) + p = e - k by omega]
    push_cast
    rw [mul_assoc, ← zpow_natCast, ← zpow_add₀ (by norm_num)]
    congr 2; omega

/-- Widening a finite word is exact. -/
theorem widen_exact {w : Word} (h : isFinite32 w = true) :
    ∃ g < b64.infMag, widen w = b64.value w.msb g ∧ (widen w).real = (val32 w).real := by
  have hlt := (isFinite32_iff w).1 h
  rw [← b32_infMag] at hlt
  unfold widen val32
  obtain ⟨m, e, hv, hm, he1, he2⟩ : ∃ m e, b32.value w.msb (w.toNat % 2 ^ 31) = .fin w.msb m e ∧ m < 2 ^ 53
      ∧ -1022 ≤ e ∧ e ≤ 900 := by
    obtain ⟨m, e, hv, -⟩ := value_finite w.msb hlt
    refine ⟨m, e, hv, ?_⟩
    have : w.toNat % 2 ^ 31 < 0x7F800000 := (isFinite32_iff w).1 h
    unfold Fmt.value at hv
    rw [if_pos hlt] at hv
    have em : b32.emin = -149 := by decide
    rw [em, b32_fracBits] at hv
    split at hv
    · rename_i hs
      injection hv with _ a b
      subst a b
      omega
    · injection hv with _ a b
      subst a b
      omega
  obtain ⟨g, hg, hgr⟩ := representable64 hm he1 he2
  refine ⟨g, hg, ?_, ?_⟩
  · rw [hv]; exact round_of_magReal (by decide) _ hg hgr.symm
  · rw [hv, round_of_magReal (by decide) _ hg hgr.symm, value_real _ hg, hgr, real_fin, mul_assoc]

/-! ### Doubling -/

/-- Doubling a normal value adds one to the exponent field. -/
theorem magReal_double (f : Fmt) {g : Nat} (h : 2 ^ f.fracBits ≤ g) :
    f.magReal (g + 2 ^ f.fracBits) = 2 * f.magReal g := by
  have hF : 0 < 2 ^ f.fracBits := by positivity
  have hs : f.scale (g + 2 ^ f.fracBits) = f.scale g + 1 := by
    have hd : 1 ≤ g / 2 ^ f.fracBits := (Nat.one_le_div_iff hF).2 h
    unfold Fmt.scale
    rw [Nat.add_div_right _ hF]
    omega
  unfold Fmt.magReal
  rw [hs]
  push_cast
  rw [← add_assoc, zpow_add_one₀ (by norm_num : (2 : ℚ) ≠ 0)]
  ring

/-- Every doubled value of a format is on the format's scale. -/
theorem exists_magReal_double (f : Fmt) (g : Nat) : ∃ g', f.magReal g' = 2 * f.magReal g := by
  rcases Nat.lt_or_ge g (2 ^ f.fracBits) with h | h
  · refine ⟨2 * g, ?_⟩
    have e1 := magReal_of (f := f) 0 g (by rw [pow_succ]; omega) (.inl rfl)
    have e2 := magReal_of (f := f) 0 (2 * g) (by rw [pow_succ]; omega) (.inl rfl)
    simp only [Nat.zero_mul, Nat.zero_add] at e1 e2
    rw [e1, e2]
    push_cast
    ring
  · exact ⟨_, magReal_double f h⟩

/-- A doubled value of the format that does not overflow is kept by rounding. -/
theorem round_double {f : Fmt} (hF : 1 ≤ f.fracBits) {g m : Nat} {e : Int} (n : Bool)
    (h : m * (2 : ℚ) ^ e = 2 * f.magReal g) (hfin : ((FVal.fin n m e).round f).isFinite = true) :
    ((FVal.fin n m e).round f).real = signOf n * (2 * f.magReal g) := by
  obtain ⟨g', hg'⟩ := exists_magReal_double f g
  have hr := roundMag_of_magReal f e hF (h.trans hg'.symm)
  simp only [FVal.round, isFinite_value, decide_eq_true_eq] at hfin ⊢
  rw [value_real n hfin, hr, min_eq_right (by omega), hg']

/-- Above the subnormals, rounding a doubled value is doubling the rounded one. -/
theorem roundMag_double (f : Fmt) {m m' : Nat} {e e' : Int} (hF : 1 ≤ f.fracBits)
    (h : m' * (2 : ℚ) ^ e' = 2 * (m * 2 ^ e)) (hg : 2 ^ f.fracBits < f.roundMag m e) :
    f.roundMag m' e' = min f.infMag (f.roundMag m e + 2 ^ f.fracBits) := by
  have hm : m ≠ 0 := by rintro rfl; simp [Fmt.roundMag] at hg
  have h2m : (0 : ℚ) < m * 2 ^ e := by positivity
  have hm' : m' ≠ 0 := by rintro rfl; simp at h; rcases h with h | h; exact hm h; exact absurd h (by positivity)
  have hlow : 2 ^ f.fracBits ≤ f.floorMag m e := by
    rcases roundMag_spec f e hF hm with ⟨h1, -⟩ | ⟨h1, -⟩ <;> omega
  obtain ⟨lo, hi, -⟩ := floorMag_bracket f e hm
  have d1 := magReal_double f hlow
  have d2 := magReal_double f (Nat.le_succ_of_le hlow)
  rw [show (f.floorMag m e).succ + 2 ^ f.fracBits = f.floorMag m e + 2 ^ f.fracBits + 1 by omega,
    Nat.succ_eq_add_one] at d2
  have hfl : f.floorMag m' e' = f.floorMag m e + 2 ^ f.fracBits :=
    floorMag_unique f e' hm' (by rw [d1, h]; linarith) (by rw [d2, h]; linarith)
  have hpar : (f.floorMag m e + 2 ^ f.fracBits) % 2 = f.floorMag m e % 2 := by
    obtain ⟨k, hk⟩ : ∃ k, f.fracBits = k + 1 := ⟨f.fracBits - 1, by omega⟩
    rw [hk, pow_succ]; omega
  have s2 := roundMag_spec f e' hF hm'
  dsimp only at s2
  rw [hfl, hpar, d1, d2, h] at s2
  rcases roundMag_spec f e hF hm with ⟨h1, c1⟩ | ⟨h1, c1⟩ <;> rcases s2 with ⟨h3, c3⟩ | ⟨h3, c3⟩
  · rw [h3, h1]
    clear hpar d1 d2
    generalize 2 ^ f.fracBits = P
    omega
  · exfalso
    rcases c1 with c1 | ⟨c1, p1⟩ <;> rcases c3 with c3 | ⟨c3, p3⟩ <;> linarith
  · exfalso
    rcases c1 with c1 | ⟨c1, p1⟩ <;> rcases c3 with c3 | ⟨c3, p3⟩ <;> linarith
  · rw [h3, h1]
    clear hpar d1 d2
    generalize 2 ^ f.fracBits = P
    omega

/-! ### The audio path's operations -/

@[simp] theorem flush_off (v : FVal) : flush false v = v := by
  cases v <;> rfl

@[simp] theorem flush_nan (ftz : Bool) : flush ftz .nan = .nan := rfl

@[simp] theorem nan_add (v : FVal) : FVal.add .nan v = .nan := rfl

@[simp] theorem add_nan (v : FVal) : v.add .nan = .nan := by
  cases v <;> rfl

@[simp] theorem nan_mul (v : FVal) : FVal.mul .nan v = .nan := rfl

@[simp] theorem mul_nan (v : FVal) : v.mul .nan = .nan := by
  cases v <;> rfl

@[simp] theorem nan_sub (v : FVal) : FVal.sub .nan v = .nan := rfl

@[simp] theorem sub_nan (v : FVal) : v.sub .nan = .nan := add_nan v

@[simp] theorem add32_nan (ftz : Bool) (v : FVal) : add32 ftz v .nan = .nan := by
  simp [add32, op32, FVal.round]

@[simp] theorem nan_add32 (ftz : Bool) (v : FVal) : add32 ftz .nan v = .nan := by
  simp [add32, op32, FVal.round]

@[simp] theorem sub32_nan (ftz : Bool) (v : FVal) : sub32 ftz v .nan = .nan := by
  simp [sub32, op32, FVal.round]

@[simp] theorem nan_sub32 (ftz : Bool) (v : FVal) : sub32 ftz .nan v = .nan := by
  simp [sub32, op32, FVal.round]

@[simp] theorem mul32_nan (ftz : Bool) (v : FVal) : mul32 ftz v .nan = .nan := by
  simp [mul32, op32, FVal.round]

/-- Flushing keeps a value of the format a value of the format. -/
theorem flush_value (ftz n : Bool) (g : Nat) : ∃ n' g', flush ftz (b32.value n g) = b32.value n' g' := by
  cases ftz
  · exact ⟨n, g, flush_off _⟩
  · unfold Fmt.value
    split
    · rename_i hlt
      split
      · rename_i hs
        refine ⟨n, 0, ?_⟩
        rw [if_pos (by decide), if_pos (by decide)]
        simp only [flush, Bool.true_and, decide_eq_true_eq]
        rw [if_pos hs]
      · rename_i hs
        refine ⟨n, g, ?_⟩
        rw [if_pos hlt, if_neg hs]
        simp only [flush, Bool.true_and, decide_eq_true_eq]
        rw [if_neg (by omega)]
    · rename_i hge
      refine ⟨n, g, ?_⟩
      rw [if_neg hge]
      split <;> rfl

/-- What an audio operation gives is a value of the format, so encoding it loses nothing. -/
theorem op32_round (ftz : Bool) (op : FVal → FVal → FVal) (a b : FVal) :
    (op32 ftz op a b).round b32 = op32 ftz op a b := by
  unfold op32
  cases op (flush ftz a) (flush ftz b) with
  | nan => rfl
  | inf n => rfl
  | fin n m e =>
    obtain ⟨n', g', h⟩ := flush_value ftz n (b32.roundMag m e)
    simp only [FVal.round]
    rw [h]
    exact round_value (by decide) n' g'

/-! ### An infinity or a NaN stays one -/

theorem add_notFinite {a b : FVal} (h : a.isFinite = false ∨ b.isFinite = false) : (a.add b).isFinite = false := by
  cases a <;> cases b <;> first | rfl | (dsimp only [FVal.add]; split_ifs <;> rfl) | simp [FVal.isFinite] at h

theorem mul_notFinite {a b : FVal} (h : a.isFinite = false ∨ b.isFinite = false) : (a.mul b).isFinite = false := by
  cases a <;> cases b <;> first | rfl | (dsimp only [FVal.mul]; split_ifs <;> rfl) | simp [FVal.isFinite] at h

@[simp] theorem isFinite_neg (v : FVal) : v.neg.isFinite = v.isFinite := by cases v <;> rfl

theorem sub_notFinite {a b : FVal} (h : a.isFinite = false ∨ b.isFinite = false) : (a.sub b).isFinite = false :=
  add_notFinite (by simpa using h)

theorem round_notFinite {v : FVal} (f : Fmt) (h : v.isFinite = false) : (v.round f).isFinite = false := by
  cases v <;> simp_all [FVal.isFinite, FVal.round]

@[simp] theorem isFinite_flush (ftz : Bool) (v : FVal) : (flush ftz v).isFinite = v.isFinite := by
  cases v with
  | fin n m e => simp only [flush]; split <;> rfl
  | _ => rfl

theorem op32_notFinite {op : FVal → FVal → FVal} (ftz : Bool) {a b : FVal}
    (hop : ∀ {a b : FVal}, a.isFinite = false ∨ b.isFinite = false → (op a b).isFinite = false)
    (h : a.isFinite = false ∨ b.isFinite = false) : (op32 ftz op a b).isFinite = false := by
  simp only [op32, isFinite_flush]
  exact round_notFinite _ (hop (by simpa using h))

/-! ### The integer square root -/

theorem isqrtFrom_spec (n : Nat) : ∀ k r, r * r ≤ n → n < (r + 2 ^ k) * (r + 2 ^ k) →
    isqrtFrom n k r * isqrtFrom n k r ≤ n ∧ n < (isqrtFrom n k r + 1) * (isqrtFrom n k r + 1) := by
  intro k
  induction k with
  | zero => exact fun r h h' => ⟨h, h'⟩
  | succ k ih =>
    intro r h h'
    simp only [isqrtFrom]
    split
    · rename_i hc
      refine ih _ hc ?_
      rw [show r + 2 ^ k + 2 ^ k = r + 2 ^ (k + 1) by rw [pow_succ]; omega]
      exact h'
    · rename_i hc
      exact ih _ h (by omega)

/-- The square root rounded down. -/
theorem isqrt_spec (n : Nat) : isqrt n * isqrt n ≤ n ∧ n < (isqrt n + 1) * (isqrt n + 1) := by
  unfold isqrt
  apply isqrtFrom_spec
  · simp
  · rw [Nat.zero_add, ← pow_add]
    exact Nat.lt_log2_self.trans_le (Nat.pow_le_pow_right (by norm_num) (by omega))

end Sys2Proof
end

