-- ==== Sys2Proof/Laws/Audio.lean ====
section
/-! SUPPORT. What one section does to the flow: its own delay words and the sample, nothing else. -/

namespace Sys2Proof.Machine

open Sys2Proof

/-- Every drawn NaN word is a NaN. -/
@[simp] theorem isNaN32_nanWord (n : Nat) : isNaN32 (nanWord n) = true := isNaN32_nanOf _

/-- What a section's results are worth is what its three formulas are worth. -/
theorem val32_drawn (n : Nat) (v : FVal) : val32 (round32 (nanWord n) v) = v.round b32 :=
  val32_round32 _ _ (isNaN32_nanWord n)

theorem isFinite32_drawn (n : Nat) (v : FVal) : isFinite32 (round32 (nanWord n) v) = (v.round b32).isFinite := by
  unfold isFinite32
  rw [val32_drawn]

@[simp] theorem runSection_own (ftz : Bool) (n : Nat) (bank : Vector CoefSet 9) (sec : Fin 9) (p : Flow) :
    (runSection ftz n bank sec p).2[sec] = (bq ftz (n + 3 * sec.val) bank[sec] p.2[sec] p.1).2 := by
  simp [runSection]

theorem runSection_other (ftz : Bool) (n : Nat) (bank : Vector CoefSet 9) {sec i : Fin 9} (p : Flow) (h : sec ≠ i) :
    (runSection ftz n bank sec p).2[i] = p.2[i] :=
  Vector.getElem_set_ne sec.isLt i.isLt (fun hc => h (Fin.ext hc))

end Sys2Proof.Machine
end

