-- ==== Sys2Proof/Laws/Decode.lean ====
section
/-! SUPPORT. The fields of an assembled descriptor and the four command words, said once. -/

namespace Sys2Proof

/-- A descriptor as a number: KIND, RSV, ADDR and DATA one after the other. -/
theorem descriptorOf_toNat (d : Descriptor) :
    (descriptorOf d).toNat = ((d.kind.toNat * 4 + d.rsv.toNat) * 4096 + d.addr.toNat) * 2 ^ 32 + d.data.toNat := by
  unfold descriptorOf
  simp only [BitVec.toNat_append]
  rw [← Nat.shiftLeft_add_eq_or_of_lt d.rsv.isLt, ← Nat.shiftLeft_add_eq_or_of_lt d.addr.isLt,
    ← Nat.shiftLeft_add_eq_or_of_lt d.data.isLt]
  simp only [Nat.shiftLeft_eq]

/-- An assembled descriptor has the fields it was assembled from. -/
theorem descriptorFields_descriptorOf (d : Descriptor) : descriptorFields (descriptorOf d) = d := by
  have h := descriptorOf_toNat d
  have hk := d.kind.isLt
  have hr := d.rsv.isLt
  have ha := d.addr.isLt
  have hd := d.data.isLt
  obtain ⟨k, r, a, v⟩ := d
  unfold descriptorFields
  simp only at *
  congr 1 <;> apply BitVec.eq_of_toNat_eq <;>
    rw [BitVec.extractLsb'_toNat, Nat.shiftRight_eq_div_pow, h] <;> omega

/-- A descriptor is assembled from its fields. -/
theorem descriptorOf_descriptorFields (w : BitVec 48) : descriptorOf (descriptorFields w) = w := by
  apply BitVec.eq_of_toNat_eq
  rw [descriptorOf_toNat]
  unfold descriptorFields
  simp only [BitVec.extractLsb'_toNat, Nat.shiftRight_eq_div_pow]
  have := w.isLt
  omega

/-- A command word spells a command exactly when it is the command's word. -/
theorem decodeCommand_eq_ok (v : Word) (c : Command) : decodeCommand v = .ok c ↔ v = commandWordOf c := by
  have words : ∀ c, decodeCommand (commandWordOf c) = .ok c := by
    intro c
    cases c <;> rfl
  constructor
  · intro h
    have hv : v = (v.extractLsb' 4 28 ++ v.extractLsb' 0 4 : BitVec 32) := by
      apply BitVec.eq_of_toNat_eq
      have := v.isLt
      rw [BitVec.toNat_append, ← Nat.shiftLeft_add_eq_or_of_lt (BitVec.isLt _), Nat.shiftLeft_eq]
      simp only [BitVec.extractLsb'_toNat, Nat.shiftRight_eq_div_pow]
      omega
    unfold decodeCommand commandFields CommandWord.problem at h
    simp only at h
    generalize v.extractLsb' 4 28 = rsv at h hv
    generalize v.extractLsb' 0 4 = op at h hv
    have ops : ∀ op : BitVec 4, op = 0#4 ∨ op = 1#4 ∨ op = 2#4 ∨ op = 3#4 ∨ 4#4 ≤ op := by decide
    by_cases hr : rsv = 0#28
    · subst hr
      subst hv
      rcases ops op with rfl | rfl | rfl | rfl | h4
      · cases h
        rfl
      · cases h
        rfl
      · cases h
        rfl
      · cases h
        rfl
      · simp [h4] at h
    · simp [hr] at h
  · rintro rfl
    exact words c

end Sys2Proof
end

