-- ==== Sys2Proof/Laws/Design.lean ====
section
/-! SUPPORT. What a cut design holds: how many sections, and which section stands in which slot. -/

namespace Sys2Proof.Machine

open Sys2Proof

theorem sectionCount_eq (n : BitVec 2) : sectionCount n = n.toNat + 1 := by
  revert n
  decide

@[simp] theorem length_cutDesign (lm : Libm) (section1 : Libm → FVal → FVal → FVal → CoefVals) (f fs : FVal)
    (n : BitVec 2) : (cutDesign lm section1 f fs n).length = n.toNat + 1 := by
  simp [cutDesign, sectionCount_eq]

/-- Slot k's section has quality Q_k. -/
theorem getElem?_cutDesign (lm : Libm) (section1 : Libm → FVal → FVal → FVal → CoefVals) (f fs : FVal)
    {n : BitVec 2} {k : Nat} (h : k < n.toNat + 1) :
    (cutDesign lm section1 f fs n)[k]? = some (section1 lm f fs (butterworthQ lm (n.toNat + 1) k)) := by
  simp [cutDesign, sectionCount_eq, h]

/-- Every section is the stage's one formula at some quality. -/
theorem mem_cutDesign {lm : Libm} {section1 : Libm → FVal → FVal → FVal → CoefVals} {f fs : FVal} {n : BitVec 2}
    {c : CoefVals} (h : c ∈ cutDesign lm section1 f fs n) : ∃ q, c = section1 lm f fs q := by
  simp only [cutDesign, List.mem_map] at h
  obtain ⟨k, -, h⟩ := h
  exact ⟨_, h.symm⟩

/-- The quality of slot k, its angle written with 4·nsec. -/
theorem butterworthQ_eq (lm : Libm) (nsec k : Nat) :
    butterworthQ lm nsec k = (int64 1).div64 ((int64 2).mul64
      (call64 lm.cos (((int64 (2 * k + 1)).mul64 pi64).div64 (int64 (4 * nsec))))) := by
  have h : ((2 * (2 * nsec : Nat) : Nat) : Int) = 4 * nsec := by push_cast; ring
  unfold butterworthQ
  simp only [← h]
  norm_cast

end Sys2Proof.Machine
end

