-- ==== Sys2Proof/Laws/State.lean ====
section
/-! SUPPORT. One lemma per field per update of State, each true by rfl: what an update sets, and that it leaves
every other field. -/

namespace Sys2Proof.Machine

open Sys2Proof

section

variable (s : State)

/-! `State.raise` -/

@[simp] theorem State.raise_ctrl (e : ErrBit) : (s.raise e).ctrl = s.ctrl := rfl

@[simp] theorem State.raise_lcFreq (e : ErrBit) : (s.raise e).lcFreq = s.lcFreq := rfl

@[simp] theorem State.raise_hcFreq (e : ErrBit) : (s.raise e).hcFreq = s.hcFreq := rfl

@[simp] theorem State.raise_pkFreq (e : ErrBit) : (s.raise e).pkFreq = s.pkFreq := rfl

@[simp] theorem State.raise_pkGain (e : ErrBit) : (s.raise e).pkGain = s.pkGain := rfl

@[simp] theorem State.raise_pkQ (e : ErrBit) : (s.raise e).pkQ = s.pkQ := rfl

@[simp] theorem State.raise_slope (e : ErrBit) : (s.raise e).slope = s.slope := rfl

@[simp] theorem State.raise_fs (e : ErrBit) : (s.raise e).fs = s.fs := rfl

@[simp] theorem State.raise_magFreq (e : ErrBit) : (s.raise e).magFreq = s.magFreq := rfl

@[simp] theorem State.raise_magResult (e : ErrBit) : (s.raise e).magResult = s.magResult := rfl

@[simp] theorem State.raise_gen (e : ErrBit) : (s.raise e).gen = s.gen := rfl

@[simp] theorem State.raise_activeFs (e : ErrBit) : (s.raise e).activeFs = s.activeFs := rfl

@[simp] theorem State.raise_chg (e : ErrBit) : (s.raise e).chg = s.chg := rfl

@[simp] theorem State.raise_sticky (e : ErrBit) : (s.raise e).sticky = raiseBit e s.sticky := rfl

@[simp] theorem State.raise_actLC (e : ErrBit) : (s.raise e).actLC = s.actLC := rfl

@[simp] theorem State.raise_actHC (e : ErrBit) : (s.raise e).actHC = s.actHC := rfl

@[simp] theorem State.raise_bank (e : ErrBit) : (s.raise e).bank = s.bank := rfl

@[simp] theorem State.raise_delay (e : ErrBit) : (s.raise e).delay = s.delay := rfl

@[simp] theorem State.raise_seq (e : ErrBit) : (s.raise e).seq = s.seq := rfl

@[simp] theorem State.raise_draws (e : ErrBit) : (s.raise e).draws = s.draws := rfl

@[simp] theorem State.raise_inbox (e : ErrBit) : (s.raise e).inbox = s.inbox := rfl

@[simp] theorem State.raise_outbox (e : ErrBit) : (s.raise e).outbox = s.outbox := rfl


/-! `State.respond` -/

@[simp] theorem State.respond_ctrl (r : Response) : (s.respond r).ctrl = s.ctrl := rfl

@[simp] theorem State.respond_lcFreq (r : Response) : (s.respond r).lcFreq = s.lcFreq := rfl

@[simp] theorem State.respond_hcFreq (r : Response) : (s.respond r).hcFreq = s.hcFreq := rfl

@[simp] theorem State.respond_pkFreq (r : Response) : (s.respond r).pkFreq = s.pkFreq := rfl

@[simp] theorem State.respond_pkGain (r : Response) : (s.respond r).pkGain = s.pkGain := rfl

@[simp] theorem State.respond_pkQ (r : Response) : (s.respond r).pkQ = s.pkQ := rfl

@[simp] theorem State.respond_slope (r : Response) : (s.respond r).slope = s.slope := rfl

@[simp] theorem State.respond_fs (r : Response) : (s.respond r).fs = s.fs := rfl

@[simp] theorem State.respond_magFreq (r : Response) : (s.respond r).magFreq = s.magFreq := rfl

@[simp] theorem State.respond_magResult (r : Response) : (s.respond r).magResult = s.magResult := rfl

@[simp] theorem State.respond_gen (r : Response) : (s.respond r).gen = s.gen := rfl

@[simp] theorem State.respond_activeFs (r : Response) : (s.respond r).activeFs = s.activeFs := rfl

@[simp] theorem State.respond_chg (r : Response) : (s.respond r).chg = s.chg := rfl

@[simp] theorem State.respond_sticky (r : Response) : (s.respond r).sticky = s.sticky := rfl

@[simp] theorem State.respond_actLC (r : Response) : (s.respond r).actLC = s.actLC := rfl

@[simp] theorem State.respond_actHC (r : Response) : (s.respond r).actHC = s.actHC := rfl

@[simp] theorem State.respond_bank (r : Response) : (s.respond r).bank = s.bank := rfl

@[simp] theorem State.respond_delay (r : Response) : (s.respond r).delay = s.delay := rfl

@[simp] theorem State.respond_seq (r : Response) : (s.respond r).seq = s.seq := rfl

@[simp] theorem State.respond_draws (r : Response) : (s.respond r).draws = s.draws := rfl

@[simp] theorem State.respond_inbox (r : Response) : (s.respond r).inbox = s.inbox := rfl

@[simp] theorem State.respond_outbox (r : Response) : (s.respond r).outbox = r :: s.outbox := rfl


/-! `State.withInbox` -/

@[simp] theorem State.withInbox_ctrl (l : List Event) : (s.withInbox l).ctrl = s.ctrl := rfl

@[simp] theorem State.withInbox_lcFreq (l : List Event) : (s.withInbox l).lcFreq = s.lcFreq := rfl

@[simp] theorem State.withInbox_hcFreq (l : List Event) : (s.withInbox l).hcFreq = s.hcFreq := rfl

@[simp] theorem State.withInbox_pkFreq (l : List Event) : (s.withInbox l).pkFreq = s.pkFreq := rfl

@[simp] theorem State.withInbox_pkGain (l : List Event) : (s.withInbox l).pkGain = s.pkGain := rfl

@[simp] theorem State.withInbox_pkQ (l : List Event) : (s.withInbox l).pkQ = s.pkQ := rfl

@[simp] theorem State.withInbox_slope (l : List Event) : (s.withInbox l).slope = s.slope := rfl

@[simp] theorem State.withInbox_fs (l : List Event) : (s.withInbox l).fs = s.fs := rfl

@[simp] theorem State.withInbox_magFreq (l : List Event) : (s.withInbox l).magFreq = s.magFreq := rfl

@[simp] theorem State.withInbox_magResult (l : List Event) : (s.withInbox l).magResult = s.magResult := rfl

@[simp] theorem State.withInbox_gen (l : List Event) : (s.withInbox l).gen = s.gen := rfl

@[simp] theorem State.withInbox_activeFs (l : List Event) : (s.withInbox l).activeFs = s.activeFs := rfl

@[simp] theorem State.withInbox_chg (l : List Event) : (s.withInbox l).chg = s.chg := rfl

@[simp] theorem State.withInbox_sticky (l : List Event) : (s.withInbox l).sticky = s.sticky := rfl

@[simp] theorem State.withInbox_actLC (l : List Event) : (s.withInbox l).actLC = s.actLC := rfl

@[simp] theorem State.withInbox_actHC (l : List Event) : (s.withInbox l).actHC = s.actHC := rfl

@[simp] theorem State.withInbox_bank (l : List Event) : (s.withInbox l).bank = s.bank := rfl

@[simp] theorem State.withInbox_delay (l : List Event) : (s.withInbox l).delay = s.delay := rfl

@[simp] theorem State.withInbox_seq (l : List Event) : (s.withInbox l).seq = s.seq := rfl

@[simp] theorem State.withInbox_draws (l : List Event) : (s.withInbox l).draws = s.draws := rfl

@[simp] theorem State.withInbox_inbox (l : List Event) : (s.withInbox l).inbox = l := rfl

@[simp] theorem State.withInbox_outbox (l : List Event) : (s.withInbox l).outbox = s.outbox := rfl


/-! `State.storeCtrl` -/

@[simp] theorem State.storeCtrl_ctrl (v : Word) : (s.storeCtrl v).ctrl = v &&& 0x00000007#32 := rfl

@[simp] theorem State.storeCtrl_lcFreq (v : Word) : (s.storeCtrl v).lcFreq = s.lcFreq := rfl

@[simp] theorem State.storeCtrl_hcFreq (v : Word) : (s.storeCtrl v).hcFreq = s.hcFreq := rfl

@[simp] theorem State.storeCtrl_pkFreq (v : Word) : (s.storeCtrl v).pkFreq = s.pkFreq := rfl

@[simp] theorem State.storeCtrl_pkGain (v : Word) : (s.storeCtrl v).pkGain = s.pkGain := rfl

@[simp] theorem State.storeCtrl_pkQ (v : Word) : (s.storeCtrl v).pkQ = s.pkQ := rfl

@[simp] theorem State.storeCtrl_slope (v : Word) : (s.storeCtrl v).slope = s.slope := rfl

@[simp] theorem State.storeCtrl_fs (v : Word) : (s.storeCtrl v).fs = s.fs := rfl

@[simp] theorem State.storeCtrl_magFreq (v : Word) : (s.storeCtrl v).magFreq = s.magFreq := rfl

@[simp] theorem State.storeCtrl_magResult (v : Word) : (s.storeCtrl v).magResult = s.magResult := rfl

@[simp] theorem State.storeCtrl_gen (v : Word) : (s.storeCtrl v).gen = s.gen := rfl

@[simp] theorem State.storeCtrl_activeFs (v : Word) : (s.storeCtrl v).activeFs = s.activeFs := rfl

@[simp] theorem State.storeCtrl_chg (v : Word) : (s.storeCtrl v).chg = s.chg := rfl

@[simp] theorem State.storeCtrl_sticky (v : Word) : (s.storeCtrl v).sticky = s.sticky := rfl

@[simp] theorem State.storeCtrl_actLC (v : Word) : (s.storeCtrl v).actLC = s.actLC := rfl

@[simp] theorem State.storeCtrl_actHC (v : Word) : (s.storeCtrl v).actHC = s.actHC := rfl

@[simp] theorem State.storeCtrl_bank (v : Word) : (s.storeCtrl v).bank = s.bank := rfl

@[simp] theorem State.storeCtrl_delay (v : Word) : (s.storeCtrl v).delay = s.delay := rfl

@[simp] theorem State.storeCtrl_seq (v : Word) : (s.storeCtrl v).seq = s.seq := rfl

@[simp] theorem State.storeCtrl_draws (v : Word) : (s.storeCtrl v).draws = s.draws := rfl

@[simp] theorem State.storeCtrl_inbox (v : Word) : (s.storeCtrl v).inbox = s.inbox := rfl

@[simp] theorem State.storeCtrl_outbox (v : Word) : (s.storeCtrl v).outbox = s.outbox := rfl


/-! `State.clearSticky` -/

@[simp] theorem State.clearSticky_ctrl (v : Word) : (s.clearSticky v).ctrl = s.ctrl := rfl

@[simp] theorem State.clearSticky_lcFreq (v : Word) : (s.clearSticky v).lcFreq = s.lcFreq := rfl

@[simp] theorem State.clearSticky_hcFreq (v : Word) : (s.clearSticky v).hcFreq = s.hcFreq := rfl

@[simp] theorem State.clearSticky_pkFreq (v : Word) : (s.clearSticky v).pkFreq = s.pkFreq := rfl

@[simp] theorem State.clearSticky_pkGain (v : Word) : (s.clearSticky v).pkGain = s.pkGain := rfl

@[simp] theorem State.clearSticky_pkQ (v : Word) : (s.clearSticky v).pkQ = s.pkQ := rfl

@[simp] theorem State.clearSticky_slope (v : Word) : (s.clearSticky v).slope = s.slope := rfl

@[simp] theorem State.clearSticky_fs (v : Word) : (s.clearSticky v).fs = s.fs := rfl

@[simp] theorem State.clearSticky_magFreq (v : Word) : (s.clearSticky v).magFreq = s.magFreq := rfl

@[simp] theorem State.clearSticky_magResult (v : Word) : (s.clearSticky v).magResult = s.magResult := rfl

@[simp] theorem State.clearSticky_gen (v : Word) : (s.clearSticky v).gen = s.gen := rfl

@[simp] theorem State.clearSticky_activeFs (v : Word) : (s.clearSticky v).activeFs = s.activeFs := rfl

@[simp] theorem State.clearSticky_chg (v : Word) : (s.clearSticky v).chg = s.chg := rfl

@[simp] theorem State.clearSticky_sticky (v : Word) : (s.clearSticky v).sticky = clearBits v s.sticky := rfl

@[simp] theorem State.clearSticky_actLC (v : Word) : (s.clearSticky v).actLC = s.actLC := rfl

@[simp] theorem State.clearSticky_actHC (v : Word) : (s.clearSticky v).actHC = s.actHC := rfl

@[simp] theorem State.clearSticky_bank (v : Word) : (s.clearSticky v).bank = s.bank := rfl

@[simp] theorem State.clearSticky_delay (v : Word) : (s.clearSticky v).delay = s.delay := rfl

@[simp] theorem State.clearSticky_seq (v : Word) : (s.clearSticky v).seq = s.seq := rfl

@[simp] theorem State.clearSticky_draws (v : Word) : (s.clearSticky v).draws = s.draws := rfl

@[simp] theorem State.clearSticky_inbox (v : Word) : (s.clearSticky v).inbox = s.inbox := rfl

@[simp] theorem State.clearSticky_outbox (v : Word) : (s.clearSticky v).outbox = s.outbox := rfl


/-! `State.clearDelay` -/

@[simp] theorem State.clearDelay_ctrl : s.clearDelay.ctrl = s.ctrl := rfl

@[simp] theorem State.clearDelay_lcFreq : s.clearDelay.lcFreq = s.lcFreq := rfl

@[simp] theorem State.clearDelay_hcFreq : s.clearDelay.hcFreq = s.hcFreq := rfl

@[simp] theorem State.clearDelay_pkFreq : s.clearDelay.pkFreq = s.pkFreq := rfl

@[simp] theorem State.clearDelay_pkGain : s.clearDelay.pkGain = s.pkGain := rfl

@[simp] theorem State.clearDelay_pkQ : s.clearDelay.pkQ = s.pkQ := rfl

@[simp] theorem State.clearDelay_slope : s.clearDelay.slope = s.slope := rfl

@[simp] theorem State.clearDelay_fs : s.clearDelay.fs = s.fs := rfl

@[simp] theorem State.clearDelay_magFreq : s.clearDelay.magFreq = s.magFreq := rfl

@[simp] theorem State.clearDelay_magResult : s.clearDelay.magResult = s.magResult := rfl

@[simp] theorem State.clearDelay_gen : s.clearDelay.gen = s.gen := rfl

@[simp] theorem State.clearDelay_activeFs : s.clearDelay.activeFs = s.activeFs := rfl

@[simp] theorem State.clearDelay_chg : s.clearDelay.chg = s.chg := rfl

@[simp] theorem State.clearDelay_sticky : s.clearDelay.sticky = s.sticky := rfl

@[simp] theorem State.clearDelay_actLC : s.clearDelay.actLC = s.actLC := rfl

@[simp] theorem State.clearDelay_actHC : s.clearDelay.actHC = s.actHC := rfl

@[simp] theorem State.clearDelay_bank : s.clearDelay.bank = s.bank := rfl

@[simp] theorem State.clearDelay_delay : s.clearDelay.delay = Vector.replicate 9 Delay.zero := rfl

@[simp] theorem State.clearDelay_seq : s.clearDelay.seq = s.seq := rfl

@[simp] theorem State.clearDelay_draws : s.clearDelay.draws = s.draws := rfl

@[simp] theorem State.clearDelay_inbox : s.clearDelay.inbox = s.inbox := rfl

@[simp] theorem State.clearDelay_outbox : s.clearDelay.outbox = s.outbox := rfl


/-! `State.commitPeak` -/

@[simp] theorem State.commitPeak_ctrl (sh : Shadow) : (s.commitPeak sh).ctrl = s.ctrl := rfl

@[simp] theorem State.commitPeak_lcFreq (sh : Shadow) : (s.commitPeak sh).lcFreq = s.lcFreq := rfl

@[simp] theorem State.commitPeak_hcFreq (sh : Shadow) : (s.commitPeak sh).hcFreq = s.hcFreq := rfl

@[simp] theorem State.commitPeak_pkFreq (sh : Shadow) : (s.commitPeak sh).pkFreq = s.pkFreq := rfl

@[simp] theorem State.commitPeak_pkGain (sh : Shadow) : (s.commitPeak sh).pkGain = s.pkGain := rfl

@[simp] theorem State.commitPeak_pkQ (sh : Shadow) : (s.commitPeak sh).pkQ = s.pkQ := rfl

@[simp] theorem State.commitPeak_slope (sh : Shadow) : (s.commitPeak sh).slope = s.slope := rfl

@[simp] theorem State.commitPeak_fs (sh : Shadow) : (s.commitPeak sh).fs = s.fs := rfl

@[simp] theorem State.commitPeak_magFreq (sh : Shadow) : (s.commitPeak sh).magFreq = s.magFreq := rfl

@[simp] theorem State.commitPeak_magResult (sh : Shadow) : (s.commitPeak sh).magResult = s.magResult := rfl

@[simp] theorem State.commitPeak_gen (sh : Shadow) : (s.commitPeak sh).gen = s.gen := rfl

@[simp] theorem State.commitPeak_activeFs (sh : Shadow) : (s.commitPeak sh).activeFs = s.activeFs := rfl

@[simp] theorem State.commitPeak_chg (sh : Shadow) : (s.commitPeak sh).chg = s.chg := rfl

@[simp] theorem State.commitPeak_sticky (sh : Shadow) : (s.commitPeak sh).sticky = s.sticky := rfl

@[simp] theorem State.commitPeak_actLC (sh : Shadow) : (s.commitPeak sh).actLC = s.actLC := rfl

@[simp] theorem State.commitPeak_actHC (sh : Shadow) : (s.commitPeak sh).actHC = s.actHC := rfl

@[simp] theorem State.commitPeak_bank (sh : Shadow) : (s.commitPeak sh).bank = s.bank.set 4 sh.pk := rfl

@[simp] theorem State.commitPeak_delay (sh : Shadow) : (s.commitPeak sh).delay = s.delay := rfl

@[simp] theorem State.commitPeak_seq (sh : Shadow) : (s.commitPeak sh).seq = s.seq := rfl

@[simp] theorem State.commitPeak_draws (sh : Shadow) : (s.commitPeak sh).draws = s.draws := rfl

@[simp] theorem State.commitPeak_inbox (sh : Shadow) : (s.commitPeak sh).inbox = s.inbox := rfl

@[simp] theorem State.commitPeak_outbox (sh : Shadow) : (s.commitPeak sh).outbox = s.outbox := rfl


/-! `State.finishUpdate` -/

@[simp] theorem State.finishUpdate_ctrl (w : Word) : (s.finishUpdate w).ctrl = s.ctrl := rfl

@[simp] theorem State.finishUpdate_lcFreq (w : Word) : (s.finishUpdate w).lcFreq = s.lcFreq := rfl

@[simp] theorem State.finishUpdate_hcFreq (w : Word) : (s.finishUpdate w).hcFreq = s.hcFreq := rfl

@[simp] theorem State.finishUpdate_pkFreq (w : Word) : (s.finishUpdate w).pkFreq = s.pkFreq := rfl

@[simp] theorem State.finishUpdate_pkGain (w : Word) : (s.finishUpdate w).pkGain = s.pkGain := rfl

@[simp] theorem State.finishUpdate_pkQ (w : Word) : (s.finishUpdate w).pkQ = s.pkQ := rfl

@[simp] theorem State.finishUpdate_slope (w : Word) : (s.finishUpdate w).slope = s.slope := rfl

@[simp] theorem State.finishUpdate_fs (w : Word) : (s.finishUpdate w).fs = s.fs := rfl

@[simp] theorem State.finishUpdate_magFreq (w : Word) : (s.finishUpdate w).magFreq = s.magFreq := rfl

@[simp] theorem State.finishUpdate_magResult (w : Word) : (s.finishUpdate w).magResult = s.magResult := rfl

@[simp] theorem State.finishUpdate_gen (w : Word) : (s.finishUpdate w).gen = s.gen + 1#32 := rfl

@[simp] theorem State.finishUpdate_activeFs (w : Word) : (s.finishUpdate w).activeFs = w := rfl

@[simp] theorem State.finishUpdate_chg (w : Word) : (s.finishUpdate w).chg = s.chg := rfl

@[simp] theorem State.finishUpdate_sticky (w : Word) : (s.finishUpdate w).sticky = s.sticky := rfl

@[simp] theorem State.finishUpdate_actLC (w : Word) : (s.finishUpdate w).actLC = s.actLC := rfl

@[simp] theorem State.finishUpdate_actHC (w : Word) : (s.finishUpdate w).actHC = s.actHC := rfl

@[simp] theorem State.finishUpdate_bank (w : Word) : (s.finishUpdate w).bank = s.bank := rfl

@[simp] theorem State.finishUpdate_delay (w : Word) : (s.finishUpdate w).delay = s.delay := rfl

@[simp] theorem State.finishUpdate_seq (w : Word) : (s.finishUpdate w).seq = .idle := rfl

@[simp] theorem State.finishUpdate_draws (w : Word) : (s.finishUpdate w).draws = s.draws := rfl

@[simp] theorem State.finishUpdate_inbox (w : Word) : (s.finishUpdate w).inbox = s.inbox := rfl

@[simp] theorem State.finishUpdate_outbox (w : Word) : (s.finishUpdate w).outbox = s.outbox := rfl


/-! `State.finishMag` -/

@[simp] theorem State.finishMag_ctrl (lm : Libm) (f r : Word) (c : BitVec 3) : (s.finishMag lm f r c).ctrl = s.ctrl := rfl

@[simp] theorem State.finishMag_lcFreq (lm : Libm) (f r : Word) (c : BitVec 3) : (s.finishMag lm f r c).lcFreq = s.lcFreq := rfl

@[simp] theorem State.finishMag_hcFreq (lm : Libm) (f r : Word) (c : BitVec 3) : (s.finishMag lm f r c).hcFreq = s.hcFreq := rfl

@[simp] theorem State.finishMag_pkFreq (lm : Libm) (f r : Word) (c : BitVec 3) : (s.finishMag lm f r c).pkFreq = s.pkFreq := rfl

@[simp] theorem State.finishMag_pkGain (lm : Libm) (f r : Word) (c : BitVec 3) : (s.finishMag lm f r c).pkGain = s.pkGain := rfl

@[simp] theorem State.finishMag_pkQ (lm : Libm) (f r : Word) (c : BitVec 3) : (s.finishMag lm f r c).pkQ = s.pkQ := rfl

@[simp] theorem State.finishMag_slope (lm : Libm) (f r : Word) (c : BitVec 3) : (s.finishMag lm f r c).slope = s.slope := rfl

@[simp] theorem State.finishMag_fs (lm : Libm) (f r : Word) (c : BitVec 3) : (s.finishMag lm f r c).fs = s.fs := rfl

@[simp] theorem State.finishMag_magFreq (lm : Libm) (f r : Word) (c : BitVec 3) : (s.finishMag lm f r c).magFreq = s.magFreq := rfl

@[simp] theorem State.finishMag_magResult (lm : Libm) (f r : Word) (c : BitVec 3) : (s.finishMag lm f r c).magResult = round32 (nanWord s.draws) (magFn lm s c f r) := rfl

@[simp] theorem State.finishMag_gen (lm : Libm) (f r : Word) (c : BitVec 3) : (s.finishMag lm f r c).gen = s.gen := rfl

@[simp] theorem State.finishMag_activeFs (lm : Libm) (f r : Word) (c : BitVec 3) : (s.finishMag lm f r c).activeFs = s.activeFs := rfl

@[simp] theorem State.finishMag_chg (lm : Libm) (f r : Word) (c : BitVec 3) : (s.finishMag lm f r c).chg = s.chg := rfl

@[simp] theorem State.finishMag_sticky (lm : Libm) (f r : Word) (c : BitVec 3) : (s.finishMag lm f r c).sticky = s.sticky := rfl

@[simp] theorem State.finishMag_actLC (lm : Libm) (f r : Word) (c : BitVec 3) : (s.finishMag lm f r c).actLC = s.actLC := rfl

@[simp] theorem State.finishMag_actHC (lm : Libm) (f r : Word) (c : BitVec 3) : (s.finishMag lm f r c).actHC = s.actHC := rfl

@[simp] theorem State.finishMag_bank (lm : Libm) (f r : Word) (c : BitVec 3) : (s.finishMag lm f r c).bank = s.bank := rfl

@[simp] theorem State.finishMag_delay (lm : Libm) (f r : Word) (c : BitVec 3) : (s.finishMag lm f r c).delay = s.delay := rfl

@[simp] theorem State.finishMag_seq (lm : Libm) (f r : Word) (c : BitVec 3) : (s.finishMag lm f r c).seq = .idle := rfl

@[simp] theorem State.finishMag_draws (lm : Libm) (f r : Word) (c : BitVec 3) : (s.finishMag lm f r c).draws = s.draws + 1 := rfl

@[simp] theorem State.finishMag_inbox (lm : Libm) (f r : Word) (c : BitVec 3) : (s.finishMag lm f r c).inbox = s.inbox := rfl

@[simp] theorem State.finishMag_outbox (lm : Libm) (f r : Word) (c : BitVec 3) : (s.finishMag lm f r c).outbox = s.outbox := rfl


/-! `State.process` -/

@[simp] theorem State.process_ctrl (z : Bool) (x : Word) : (s.process z x).ctrl = s.ctrl := rfl

@[simp] theorem State.process_lcFreq (z : Bool) (x : Word) : (s.process z x).lcFreq = s.lcFreq := rfl

@[simp] theorem State.process_hcFreq (z : Bool) (x : Word) : (s.process z x).hcFreq = s.hcFreq := rfl

@[simp] theorem State.process_pkFreq (z : Bool) (x : Word) : (s.process z x).pkFreq = s.pkFreq := rfl

@[simp] theorem State.process_pkGain (z : Bool) (x : Word) : (s.process z x).pkGain = s.pkGain := rfl

@[simp] theorem State.process_pkQ (z : Bool) (x : Word) : (s.process z x).pkQ = s.pkQ := rfl

@[simp] theorem State.process_slope (z : Bool) (x : Word) : (s.process z x).slope = s.slope := rfl

@[simp] theorem State.process_fs (z : Bool) (x : Word) : (s.process z x).fs = s.fs := rfl

@[simp] theorem State.process_magFreq (z : Bool) (x : Word) : (s.process z x).magFreq = s.magFreq := rfl

@[simp] theorem State.process_magResult (z : Bool) (x : Word) : (s.process z x).magResult = s.magResult := rfl

@[simp] theorem State.process_gen (z : Bool) (x : Word) : (s.process z x).gen = s.gen := rfl

@[simp] theorem State.process_activeFs (z : Bool) (x : Word) : (s.process z x).activeFs = s.activeFs := rfl

@[simp] theorem State.process_chg (z : Bool) (x : Word) : (s.process z x).chg = s.chg := rfl

@[simp] theorem State.process_sticky (z : Bool) (x : Word) : (s.process z x).sticky = s.sticky := rfl

@[simp] theorem State.process_actLC (z : Bool) (x : Word) : (s.process z x).actLC = s.actLC := rfl

@[simp] theorem State.process_actHC (z : Bool) (x : Word) : (s.process z x).actHC = s.actHC := rfl

@[simp] theorem State.process_bank (z : Bool) (x : Word) : (s.process z x).bank = s.bank := rfl

@[simp] theorem State.process_delay (z : Bool) (x : Word) : (s.process z x).delay = (chain z s x).2 := rfl

@[simp] theorem State.process_seq (z : Bool) (x : Word) : (s.process z x).seq = s.seq := rfl

@[simp] theorem State.process_draws (z : Bool) (x : Word) : (s.process z x).draws = s.draws + procDraws := rfl

@[simp] theorem State.process_inbox (z : Bool) (x : Word) : (s.process z x).inbox = s.inbox := rfl

@[simp] theorem State.process_outbox (z : Bool) (x : Word) : (s.process z x).outbox = .sample (chain z s x).1 :: s.outbox := rfl

end

end Sys2Proof.Machine
end

