-- ==== Sys2Proof/Laws/Ops.lean ====
section
/-! SUPPORT. For each shared operation one lemma that says everything it can do, for the proofs to cite instead of
unfolding it. -/

namespace Sys2Proof.Machine

open Sys2Proof

/-! ### Sticky bits -/

theorem raiseBit_getElem (e : ErrBit) (k : BitVec 8) (j : Fin 8) :
    (raiseBit e k)[j.val] = (k[j.val] || decide (j.val = e.index)) := by
  cases e <;> revert k j <;> decide

theorem clearBits_getElem (v : Word) (k : BitVec 8) (j : Fin 8) :
    (clearBits v k)[j.val] = (k[j.val] && !v[8 + j.val]) := by
  have hj : 8 + j.val < 32 := by omega
  simp [clearBits, BitVec.getLsbD_eq_getElem hj]

/-- A sticky byte that has lost no bit of an earlier one. -/
def stickyGrows (k k' : BitVec 8) : Prop := ∀ j : Fin 8, k[j.val] = true → k'[j.val] = true

theorem stickyGrows_refl (k : BitVec 8) : stickyGrows k k := fun _ h => h

theorem stickyGrows_trans {a b c : BitVec 8} (h : stickyGrows a b) (h' : stickyGrows b c) :
    stickyGrows a c := fun j hj => h' j (h j hj)

theorem stickyGrows_raise (e : ErrBit) (k : BitVec 8) : stickyGrows k (raiseBit e k) := by
  intro j hj
  rw [raiseBit_getElem, hj, Bool.true_or]

/-- Raising under a condition changes the sticky byte only, and loses no bit. -/
theorem raiseIf_spec (s : State) (c : Bool) (e : ErrBit) :
    ∃ k, s.raiseIf c e = { s with sticky := k } ∧ stickyGrows s.sticky k := by
  cases c
  · exact ⟨s.sticky, rfl, stickyGrows_refl _⟩
  · exact ⟨_, rfl, stickyGrows_raise e _⟩

/-! ### Commands -/

/-- The accept part of UPDATE writes the sticky byte and the sequencer's state and nothing else. -/
theorem acceptUpdate_frame (s : State) (lm : Libm) :
    ∃ k q, s.acceptUpdate lm = { s with sticky := k, seq := q } ∧ stickyGrows s.sticky k := by
  unfold State.acceptUpdate
  split
  · obtain ⟨k1, h1, g1⟩ := raiseIf_spec s (design lm s.snapshot).clampF .clampF
    obtain ⟨k2, h2, g2⟩ := raiseIf_spec { s with sticky := k1 } (design lm s.snapshot).clampQ .clampQ
    simp only [h1, h2]
    split
    · exact ⟨_, _, rfl, stickyGrows_trans g1 g2⟩
    · exact ⟨_, _, rfl, stickyGrows_trans (stickyGrows_trans g1 g2) (stickyGrows_raise _ _)⟩
  · exact ⟨_, _, rfl, stickyGrows_raise _ _⟩

/-- The same for the accept part of MAG. -/
theorem acceptMag_frame (s : State) :
    ∃ k q, s.acceptMag = { s with sticky := k, seq := q } ∧ stickyGrows s.sticky k := by
  unfold State.acceptMag
  obtain ⟨k1, h1, g1⟩ := raiseIf_spec s (!fsValid s.fs) .errFs
  obtain ⟨k2, h2, g2⟩ := raiseIf_spec { s with sticky := k1 } (!isFinite32 s.magFreq) .errArg
  simp only [h1, h2]
  split
  · exact ⟨_, _, rfl, stickyGrows_trans g1 g2⟩
  · exact ⟨_, _, rfl, stickyGrows_trans g1 g2⟩

theorem busy_iff (s : State) : s.busy = true ↔ s.seq ≠ .idle := by
  unfold State.busy
  cases s.seq <;> simp [Seq.busy]

theorem busy_idle {s : State} (h : s.seq = .idle) : s.busy = false := by
  simp [State.busy, h, Seq.busy]

theorem whenIdle_idle {s : State} (accept : State → State) (h : s.seq = .idle) :
    s.whenIdle accept = accept s := by
  simp [State.whenIdle, busy_idle h]

theorem whenIdle_busy {s : State} (accept : State → State) (h : s.seq ≠ .idle) :
    s.whenIdle accept = s.raise .errBusy := by
  simp [State.whenIdle, (busy_iff s).2 h]

/-- What the accept part of any command may do: the sticky byte grows, the sequencer may be started, and the
delay state is zeroed by CLEAR on an idle block. -/
theorem runCommand_frame (s : State) (lm : Libm) (c : Command) :
    ∃ k q d, s.runCommand lm c = { s with sticky := k, seq := q, delay := d }
      ∧ stickyGrows s.sticky k
      ∧ (s.seq ≠ .idle → q = s.seq)
      ∧ (d = s.delay ∨ c = .clear ∧ s.seq = .idle ∧ d = Vector.replicate 9 Delay.zero) := by
  have nop : s.runCommand lm .nop = s := rfl
  by_cases hs : s.seq = .idle
  · have idle := fun accept : State → State => whenIdle_idle accept hs
    cases c with
    | nop => exact ⟨_, _, _, nop, stickyGrows_refl _, fun _ => rfl, .inl rfl⟩
    | update =>
      obtain ⟨k, q, h, g⟩ := acceptUpdate_frame s lm
      exact ⟨k, q, s.delay, by simp only [State.runCommand, idle, h], g, fun h => absurd hs h, .inl rfl⟩
    | mag =>
      obtain ⟨k, q, h, g⟩ := acceptMag_frame s
      exact ⟨k, q, s.delay, by simp only [State.runCommand, idle, h], g, fun h => absurd hs h, .inl rfl⟩
    | clear =>
      exact ⟨s.sticky, s.seq, _, by simp only [State.runCommand, idle]; rfl, stickyGrows_refl _,
        fun _ => rfl, .inr ⟨rfl, hs, rfl⟩⟩
  · have busy := fun accept : State → State => whenIdle_busy accept hs
    cases c with
    | nop => exact ⟨_, _, _, nop, stickyGrows_refl _, fun _ => rfl, .inl rfl⟩
    | _ =>
      exact ⟨_, s.seq, s.delay, by simp only [State.runCommand, busy]; rfl, stickyGrows_raise .errBusy _,
        fun _ => rfl, .inl rfl⟩

/-- What a WR to CMD may do. -/
theorem deliver_frame (s : State) (lm : Libm) (v : Word) :
    ∃ k q d, s.deliver lm v = { s with sticky := k, seq := q, delay := d }
      ∧ stickyGrows s.sticky k
      ∧ (s.seq ≠ .idle → q = s.seq)
      ∧ (d = s.delay ∨ decodeCommand v = .ok .clear ∧ s.seq = .idle
          ∧ d = Vector.replicate 9 Delay.zero) := by
  unfold State.deliver
  split
  · exact ⟨_, _, _, rfl, stickyGrows_raise _ _, fun _ => rfl, .inl rfl⟩
  · rename_i c hc
    obtain ⟨k, q, d, h, g, i, r⟩ := runCommand_frame s lm c
    refine ⟨k, q, d, h, g, i, r.imp id ?_⟩
    rintro ⟨rfl, r1, r2⟩
    exact ⟨hc, r1, r2⟩

/-! ### RD and WR -/

/-- A RD writes CHG, the sticky byte and the responses and nothing else. -/
theorem read_frame (s : State) (ftz : Bool) (p : Place) :
    ∃ k c, s.read ftz p = { s with sticky := k, chg := c, outbox := .word (s.readValue ftz p) :: s.outbox }
      ∧ stickyGrows s.sticky k ∧ (c = s.chg ∨ p = .chgTake ∧ c = false) := by
  cases p <;>
    first
      | exact ⟨_, _, rfl, stickyGrows_refl _, .inl rfl⟩
      | exact ⟨_, _, rfl, stickyGrows_raise _ _, .inl rfl⟩
      | exact ⟨_, _, rfl, stickyGrows_refl _, .inr ⟨rfl, rfl⟩⟩

/-- What a WR leaves alone and what it may do: it never writes the filter, the results or the model's own records;
it writes the delay state by CLEAR only, clears sticky bits at STATUS only, sets CHG at a settings register
only, and starts the sequencer only when it is idle. -/
structure WriteFrame (s t : State) (p : Place) (v : Word) : Prop where
  bank : t.bank = s.bank
  actLC : t.actLC = s.actLC
  actHC : t.actHC = s.actHC
  gen : t.gen = s.gen
  activeFs : t.activeFs = s.activeFs
  magResult : t.magResult = s.magResult
  draws : t.draws = s.draws
  inbox : t.inbox = s.inbox
  outbox : t.outbox = s.outbox
  sticky : p ≠ .status → stickyGrows s.sticky t.sticky
  chgKept : (∀ r, p ≠ .setting r) → t.chg = s.chg
  chgSet : ∀ r, p = .setting r → t.chg = true
  busy : s.seq ≠ .idle → t.seq = s.seq
  delay : t.delay = s.delay ∨ p = .cmd ∧ decodeCommand v = .ok .clear ∧ s.seq = .idle
    ∧ t.delay = Vector.replicate 9 Delay.zero

theorem write_frame (s : State) (lm : Libm) (p : Place) (v : Word) :
    WriteFrame s (s.write lm p v) p v := by
  cases p with
  | cmd =>
    obtain ⟨k, q, d, h, g, i, r⟩ := deliver_frame s lm v
    have ht : s.write lm .cmd v = { s with sticky := k, seq := q, delay := d } := h
    rw [ht]
    constructor <;> first | rfl | exact fun _ => g | exact fun _ => rfl | exact i | skip
    · intro _ h
      cases h
    · exact r.imp id fun r => ⟨rfl, r⟩
  | setting r =>
    cases r <;> constructor <;>
      (first | rfl | exact fun _ => stickyGrows_refl _ | exact fun _ _ => rfl | exact .inl rfl
             | exact fun _ => rfl | exact fun h => absurd rfl (h _))
  | status =>
    constructor <;>
      (first | rfl | exact fun h => absurd rfl h | exact fun _ => rfl | exact .inl rfl | (intro _ h; cases h))
  | misaligned =>
    constructor <;>
      (first | rfl | exact fun _ => stickyGrows_raise .errAddr _ | exact fun _ => rfl | exact .inl rfl
             | (intro _ h; cases h))
  | unmapped =>
    constructor <;>
      (first | rfl | exact fun _ => stickyGrows_raise .errAddr _ | exact fun _ => rfl | exact .inl rfl
             | (intro _ h; cases h))
  | _ =>
    constructor <;>
      (first | rfl | exact fun _ => stickyGrows_refl _ | exact fun _ => rfl | exact .inl rfl | (intro _ h; cases h))

/-! ### The sequencer -/

/-- What a commit step installs: the bank and the act flags change, nothing else (42_update.md R198, R201). -/
theorem commit_frame (s : State) (k : Fin 10) (sh : Shadow) :
    ∃ b l h, s.commit k sh = { s with bank := b, actLC := l, actHC := h } := by
  have lc : ∀ j, ∃ b l h, s.commitLC sh j = { s with bank := b, actLC := l, actHC := h } := by
    intro j
    unfold State.commitLC
    split <;> exact ⟨_, _, _, rfl⟩
  have hc : ∀ j, ∃ b l h, s.commitHC sh j = { s with bank := b, actLC := l, actHC := h } := by
    intro j
    unfold State.commitHC
    split <;> exact ⟨_, _, _, rfl⟩
  match k with
  | 0 => exact ⟨_, _, _, rfl⟩
  | 1 => exact lc 0
  | 2 => exact lc 1
  | 3 => exact lc 2
  | 4 => exact lc 3
  | 5 => exact hc 0
  | 6 => exact hc 1
  | 7 => exact hc 2
  | 8 => exact hc 3
  | 9 => exact ⟨_, _, _, rfl⟩

/-- One step of an UPDATE: below 9 the commit and the next step number, at 9 done. -/
theorem updateStep_lt {k : Fin 10} (s : State) (sh : Shadow) (f : Word) (h : k.val < 9) :
    s.updateStep k sh f = { s.commit k sh with seq := .upd ⟨k.val + 1, by omega⟩ sh f } := by
  simp [State.updateStep, h]

theorem updateStep_last (s : State) (sh : Shadow) (f : Word) :
    s.updateStep 9 sh f = s.finishUpdate f := rfl

/-- What one sequencer step may do, by the sequencer's state. -/
theorem sequencerStep_idle {s : State} (lm : Libm) (h : s.seq = .idle) : s.sequencerStep lm = s := by
  simp [State.sequencerStep, h]

theorem sequencerStep_upd {s : State} {k sh f} (lm : Libm) (h : s.seq = .upd k sh f) :
    s.sequencerStep lm = s.updateStep k sh f := by
  simp [State.sequencerStep, h]

theorem sequencerStep_mag {s : State} {f r c} (lm : Libm) (h : s.seq = .mag f r c) :
    s.sequencerStep lm = s.finishMag lm f r c := by
  simp [State.sequencerStep, h]

end Sys2Proof.Machine
end

