-- ==== Sys2Proof/Laws/PerInstr.lean ====
section
/-! SUPPORT. A statement about every instruction as syntax, one lemma per constructor: what encodes it is well-formed
(30_encoding.md R111, R115). -/

namespace Sys2Proof

/-- An encoded object that spells what its kind should: a descriptor of R111's, or one of the four command words. -/
def Packet.wellFormed : Packet → Bool
  | .descriptor w => (descriptorFields w).wellFormed
  | .command v => (commandFields v).wellFormed

namespace Laws.EncodeWellFormed

/-- The encoding of an instruction is well-formed. -/
def Statement (i : Instr) : Prop := (encode i).wellFormed = true

theorem rd (a : Addr) : Statement (.rd a) := by
  show (descriptorFields (descriptorOf ⟨0#2, 0#2, a, 0#32⟩)).wellFormed = true
  rw [descriptorFields_descriptorOf]
  rfl

theorem wr (a : Addr) (v : Word) : Statement (.wr a v) := by
  show (descriptorFields (descriptorOf ⟨1#2, 0#2, a, v⟩)).wellFormed = true
  rw [descriptorFields_descriptorOf]
  rfl

theorem proc (x : Word) : Statement (.proc x) := by
  show (descriptorFields (descriptorOf ⟨2#2, 0#2, 0#12, x⟩)).wellFormed = true
  rw [descriptorFields_descriptorOf]
  rfl

theorem nop : Statement .nop := rfl

theorem update : Statement .update := rfl

theorem mag : Statement .mag := rfl

theorem clear : Statement .clear := rfl

end Laws.EncodeWellFormed

end Sys2Proof
end

