-- ==== Sys2Proof/Laws/Places.lean ====
section
/-! SUPPORT. The address map: which place each address is, and the converse (20_memory.md R83, R84). -/

namespace Sys2Proof.Machine

open Sys2Proof

theorem registerAt_lt {n : Nat} {p : Place} (h : registerAt n = some p) : n ≤ 0x048 := by
  unfold registerAt at h
  split at h <;> first | omega | cases h

/-- Where the map has a word. -/
theorem placeAt_unmapped_iff (n : Nat) (h4 : n % 4 = 0) :
    placeAt n = .unmapped ↔ (0x04C ≤ n ∧ n < 0x100) ∨ (0x220 ≤ n ∧ n < 0x300) ∨ 0x348 ≤ n := by
  unfold placeAt
  rw [if_neg (by omega)]
  split
  · simp; omega
  · split
    · simp; omega
    · constructor
      · intro h
        by_contra hc
        have : n ≤ 0x048 := by omega
        have all : ∀ m : Fin 0x04C, m.val % 4 = 0 → (registerAt m.val).getD .unmapped ≠ .unmapped := by
          decide
        exact all ⟨n, by omega⟩ h4 h
      · intro h
        cases hr : registerAt n with
        | none => rfl
        | some p => have := registerAt_lt hr; omega

theorem placeAt_misaligned_iff (n : Nat) : placeAt n = .misaligned ↔ n % 4 ≠ 0 := by
  unfold placeAt
  split
  · simp_all
  · split
    · simp_all
    · split
      · simp_all
      · constructor
        · intro h
          cases hr : registerAt n with
          | none => rw [hr] at h; cases h
          | some p =>
            rw [hr] at h
            unfold registerAt at hr
            split at hr <;> cases hr <;> cases h
        · intro h; omega

/-- An address is bad exactly when it is misaligned or unmapped. -/
theorem badAddress_iff (a : Addr) :
    badAddress a ↔ placeOf a = .misaligned ∨ placeOf a = .unmapped := by
  unfold badAddress placeOf
  rw [placeAt_misaligned_iff]
  by_cases h4 : a.toNat % 4 = 0
  · rw [placeAt_unmapped_iff _ h4]
  · simp [h4]

/-- A register's place is at its own offset only. -/
theorem registerAt_eq_some {n : Nat} {p : Place} (h : registerAt n = some p) :
    (n, p) ∈ [(0x000, Place.id), (0x004, .version), (0x008, .ctrl), (0x00C, .param),
      (0x010, .setting .lcFreq), (0x014, .setting .hcFreq), (0x018, .setting .pkFreq),
      (0x01C, .setting .pkGain), (0x020, .setting .pkQ), (0x024, .setting .slope), (0x028, .setting .fs),
      (0x02C, .cmd), (0x030, .status), (0x034, .chgTake), (0x038, .magFreq), (0x03C, .magResult),
      (0x040, .gen), (0x044, .activeFs), (0x048, .secAct)] := by
  unfold registerAt at h
  split at h <;> cases h <;> decide

/-- The four kinds of place an address can be. -/
theorem placeOf_cases (a : Addr) :
    placeOf a = .misaligned ∨ placeOf a = .unmapped ∨ (∃ s c, placeOf a = .coef s c)
      ∨ (∃ s j, placeOf a = .delay s j) ∨ registerAt a.toNat = some (placeOf a) := by
  unfold placeOf placeAt
  split
  · exact .inl rfl
  · split
    · exact .inr (.inr (.inl ⟨_, _, rfl⟩))
    · split
      · exact .inr (.inr (.inr (.inl ⟨_, _, rfl⟩)))
      · cases h : registerAt a.toNat with
        | none => exact .inr (.inl rfl)
        | some p => exact .inr (.inr (.inr (.inr rfl)))

theorem placeOf_register {a : Addr} {p : Place} (h : placeOf a = p) (h1 : p ≠ .misaligned) (h2 : p ≠ .unmapped)
    (h3 : ∀ s c, p ≠ .coef s c) (h4 : ∀ s j, p ≠ .delay s j) : registerAt a.toNat = some p := by
  subst h
  rcases placeOf_cases a with h | h | ⟨s, c, h⟩ | ⟨s, j, h⟩ | h
  · exact absurd h h1
  · exact absurd h h2
  · exact absurd h (h3 s c)
  · exact absurd h (h4 s j)
  · exact h

theorem addr_eq_of_toNat {a : Addr} {n : Nat} (h : a.toNat = n) : a = BitVec.ofNat 12 n := by
  rw [← h]
  simp

/-- The addresses of the registers whose writes or reads have effects of their own. -/
theorem placeOf_eq_setting {a : Addr} {r : Setting} (h : placeOf a = .setting r) :
    a ∈ settingAddresses := by
  have hm := registerAt_eq_some (placeOf_register h (by simp) (by simp) (by simp) (by simp))
  simp only [List.mem_cons, Prod.mk.injEq, List.not_mem_nil, or_false, reduceCtorEq, and_false,
    false_or] at hm
  rcases hm with h | h | h | h | h | h | h <;> rw [addr_eq_of_toNat h.1] <;> decide

theorem placeOf_eq_status {a : Addr} (h : placeOf a = .status) : a = 0x030#12 := by
  have hm := registerAt_eq_some (placeOf_register h (by simp) (by simp) (by simp) (by simp))
  simp at hm
  exact addr_eq_of_toNat hm

theorem placeOf_eq_chgTake {a : Addr} (h : placeOf a = .chgTake) : a = 0x034#12 := by
  have hm := registerAt_eq_some (placeOf_register h (by simp) (by simp) (by simp) (by simp))
  simp at hm
  exact addr_eq_of_toNat hm

theorem placeOf_eq_cmd {a : Addr} (h : placeOf a = .cmd) : a = cmdAddr := by
  have hm := registerAt_eq_some (placeOf_register h (by simp) (by simp) (by simp) (by simp))
  simp at hm
  exact addr_eq_of_toNat hm

theorem placeOf_setting_of_mem {a : Addr} (h : a ∈ settingAddresses) : ∃ r, placeOf a = .setting r := by
  simp only [settingAddresses, List.mem_cons, List.not_mem_nil, or_false] at h
  rcases h with rfl | rfl | rfl | rfl | rfl | rfl | rfl <;> exact ⟨_, rfl⟩

/-- Word `c` of section `sec` of the COEF window (10_state.md R54). -/
theorem placeAt_coef (sec : Fin 9) (c : Fin 8) :
    placeAt (0x100 + 0x20 * sec.val + 4 * c.val) = .coef sec c := by
  revert sec c
  decide

/-- Word `j` of section `sec` of the STATE window (10_state.md R57). -/
theorem placeAt_delay (sec : Fin 9) (j : Fin 2) :
    placeAt (0x300 + 8 * sec.val + 4 * j.val) = .delay sec j := by
  revert sec j
  decide

end Sys2Proof.Machine
end

