-- ==== Sys2Proof/Laws/Step.lean ====
section
/-! SUPPORT. What an instruction and a step can do, said once: the frame of exec over all instructions, and the
inversion of step. -/

namespace Sys2Proof.Machine

open Sys2Proof

theorem withInbox_self (s : State) : s.withInbox s.inbox = s := rfl

/-- Every instruction answers a next state. -/
theorem exec_completes (i : Instr) (s : State) : ∃ t, exec i s = .next t := by
  cases i <;> exact ⟨_, rfl⟩

/-- No instruction changes the filter, the completed-update records or the events to come. -/
structure ExecFrame (s t : State) : Prop where
  bank : t.bank = s.bank
  actLC : t.actLC = s.actLC
  actHC : t.actHC = s.actHC
  gen : t.gen = s.gen
  activeFs : t.activeFs = s.activeFs
  magResult : t.magResult = s.magResult
  inbox : t.inbox = s.inbox
  busy : s.seq ≠ .idle → t.seq = s.seq

theorem runCommand_execFrame (s : State) (lm : Libm) (c : Command) : ExecFrame s (s.runCommand lm c) := by
  obtain ⟨k, q, d, h, -, b, -⟩ := runCommand_frame s lm c
  rw [h]
  exact ⟨rfl, rfl, rfl, rfl, rfl, rfl, rfl, b⟩

/-- A command's own arm of exec is its accept part with the dispatch checks. -/
theorem exec_command (s : State) (c : Command) :
    exec c.instr s = .next (s.runCommand Config.libm c) := by
  cases c <;> rfl

theorem exec_frame {i : Instr} {s t : State} (h : exec i s = .next t) : ExecFrame s t := by
  have command (c : Command) (hc : exec c.instr s = .next t) : ExecFrame s t := by
    rw [exec_command] at hc
    cases hc
    exact runCommand_execFrame s Config.libm c
  cases i with
  | rd a =>
    cases h
    obtain ⟨k, c, e, -⟩ := read_frame s Config.ftz (placeOf a)
    rw [e]
    exact ⟨rfl, rfl, rfl, rfl, rfl, rfl, rfl, fun _ => rfl⟩
  | wr a v =>
    cases h
    have w := write_frame s Config.libm (placeOf a) v
    exact ⟨w.bank, w.actLC, w.actHC, w.gen, w.activeFs, w.magResult, w.inbox, w.busy⟩
  | proc x =>
    cases h
    exact ⟨rfl, rfl, rfl, rfl, rfl, rfl, rfl, fun _ => rfl⟩
  | nop => exact command .nop h
  | update => exact command .update h
  | mag => exact command .mag h
  | clear => exact command .clear h

/-- What a step may be: a sequencer step, a reset, or the instruction a packet decodes to. -/
theorem step_cases {s t : State} (h : step s = .next t) :
    (∃ rest, sequencerNext s rest ∧ t = (s.withInbox rest).sequencerStep Config.libm)
      ∨ (∃ rest, s.inbox = .reset :: rest ∧ t = (s.withInbox rest).resetEvent)
      ∨ (∃ p rest i, s.inbox = .port p :: rest ∧ decode p = .ok i ∧ exec i (s.withInbox rest) = .next t) := by
  unfold step at h
  split at h
  · rename_i he
    cases h
    exact .inl ⟨[], .inr ⟨he, rfl⟩, by rw [← he, withInbox_self]⟩
  · rename_i rest he
    cases h
    exact .inl ⟨rest, .inl he, rfl⟩
  · rename_i rest he
    cases h
    exact .inr (.inl ⟨rest, he, rfl⟩)
  · rename_i p rest he
    split at h
    · rename_i i hi
      exact .inr (.inr ⟨p, rest, i, he, hi, h⟩)
    · cases h

/-- A sequencer step when one is next. -/
theorem step_sequencer {s : State} {rest : List Event} (h : sequencerNext s rest) :
    step s = .next ((s.withInbox rest).sequencerStep Config.libm) := by
  rcases h with h | ⟨h, rfl⟩
  · simp only [step, h]
  · simp only [step, h]
    rw [← h, withInbox_self]

/-- What one sequencer step may do: nothing, a commit step, done, or a MAG's completion. -/
theorem sequencerStep_cases (s : State) (lm : Libm) :
    (s.seq = .idle ∧ s.sequencerStep lm = s)
      ∨ (∃ k sh f, ∃ h : k.val < 9, s.seq = .upd k sh f
          ∧ s.sequencerStep lm = { s.commit k sh with seq := .upd ⟨k.val + 1, by omega⟩ sh f })
      ∨ (∃ sh f, s.seq = .upd 9 sh f ∧ s.sequencerStep lm = s.finishUpdate f)
      ∨ (∃ f r c, s.seq = .mag f r c ∧ s.sequencerStep lm = s.finishMag lm f r c) := by
  rcases hs : s.seq with _ | ⟨k, sh, f⟩ | ⟨f, r, c⟩
  · exact .inl ⟨rfl, sequencerStep_idle lm hs⟩
  · by_cases hk : k.val < 9
    · exact .inr (.inl ⟨k, sh, f, hk, rfl, (sequencerStep_upd lm hs).trans (updateStep_lt s sh f hk)⟩)
    · have : k = 9 := by omega
      subst this
      exact .inr (.inr (.inl ⟨sh, f, rfl, (sequencerStep_upd lm hs).trans (updateStep_last s sh f)⟩))
  · exact .inr (.inr (.inr ⟨f, r, c, rfl, sequencerStep_mag lm hs⟩))

end Sys2Proof.Machine
end

