-- ==== Sys2Proof/Laws/Update.lean ====
section
/-! SUPPORT. What one commit step installs, slot by slot, and runs of several steps. -/

namespace Sys2Proof.Machine

open Sys2Proof

/-- What committing LowCut slot `k` does to every act flag and every section. -/
theorem commitLC_spec (s : State) (sh : Shadow) (k : Fin 4) :
    ∃ (b : Vector CoefSet 9) (a : Vector Bool 4), s.commitLC sh k = { s with bank := b, actLC := a }
      ∧ (∀ i : Fin 4, a[i] = if i = k then decide (k.val < sh.lc.length) else s.actLC[i])
      ∧ (∀ sec : Fin 9, b[sec] = if sec.val = k.val then sh.lc[k.val]?.getD s.bank[sec] else s.bank[sec]) := by
  unfold State.commitLC
  cases h : sh.lc[k.val]? with
  | none =>
    have hl : ¬ k.val < sh.lc.length := by
      rw [List.getElem?_eq_none_iff] at h
      omega
    refine ⟨s.bank, _, rfl, fun i => ?_, fun sec => by simp⟩
    by_cases hi : i = k
    · subst hi
      simp [hl]
    · have : k.val ≠ i.val := fun hc => hi (Fin.ext hc.symm)
      simp [hi, Vector.getElem_set_ne _ _ this]
  | some c =>
    obtain ⟨hl, -⟩ := List.getElem?_eq_some_iff.1 h
    refine ⟨_, _, rfl, fun i => ?_, fun sec => ?_⟩
    · by_cases hi : i = k
      · subst hi
        simp [hl]
      · have : k.val ≠ i.val := fun hc => hi (Fin.ext hc.symm)
        simp [hi, Vector.getElem_set_ne _ _ this]
    · by_cases hi : sec.val = k.val
      · simp [hi, lcSec]
      · simp [hi, lcSec, Vector.getElem_set_ne _ _ (Ne.symm hi)]

/-- The same for HighCut slot `k`, which is section 5 + k. -/
theorem commitHC_spec (s : State) (sh : Shadow) (k : Fin 4) :
    ∃ (b : Vector CoefSet 9) (a : Vector Bool 4), s.commitHC sh k = { s with bank := b, actHC := a }
      ∧ (∀ i : Fin 4, a[i] = if i = k then decide (k.val < sh.hc.length) else s.actHC[i])
      ∧ (∀ sec : Fin 9, b[sec] = if sec.val = 5 + k.val then sh.hc[k.val]?.getD s.bank[sec] else s.bank[sec]) := by
  unfold State.commitHC
  cases h : sh.hc[k.val]? with
  | none =>
    have hl : ¬ k.val < sh.hc.length := by
      rw [List.getElem?_eq_none_iff] at h
      omega
    refine ⟨s.bank, _, rfl, fun i => ?_, fun sec => by simp⟩
    by_cases hi : i = k
    · subst hi
      simp [hl]
    · have : k.val ≠ i.val := fun hc => hi (Fin.ext hc.symm)
      simp [hi, Vector.getElem_set_ne _ _ this]
  | some c =>
    obtain ⟨hl, -⟩ := List.getElem?_eq_some_iff.1 h
    refine ⟨_, _, rfl, fun i => ?_, fun sec => ?_⟩
    · by_cases hi : i = k
      · subst hi
        simp [hl]
      · have : k.val ≠ i.val := fun hc => hi (Fin.ext hc.symm)
        simp [hi, Vector.getElem_set_ne _ _ this]
    · by_cases hi : sec.val = 5 + k.val
      · simp [hi, hcSec]
      · simp [hi, hcSec, Vector.getElem_set_ne _ _ (Ne.symm hi)]

/-- Steps 1 to 4 commit the LowCut slots, steps 5 to 8 the HighCut slots (42_update.md R194). -/
theorem commit_eq_commitLC (s : State) (sh : Shadow) (k : Fin 4) :
    s.commit ⟨1 + k.val, by omega⟩ sh = s.commitLC sh k := by
  match k with
  | 0 => rfl
  | 1 => rfl
  | 2 => rfl
  | 3 => rfl

theorem commit_eq_commitHC (s : State) (sh : Shadow) (k : Fin 4) :
    s.commit ⟨5 + k.val, by omega⟩ sh = s.commitHC sh k := by
  match k with
  | 0 => rfl
  | 1 => rfl
  | 2 => rfl
  | 3 => rfl

/-- A run, one step taken off its front. -/
theorem run_of_step {s t : State} (h : step s = .next t) (n : Nat) : core.run (n + 1) s = core.run n t := by
  have h' : core.step s = .next t := h
  simp only [Host.Core.run, h']

/-- A run, one step put on its end. -/
theorem run_then_step {n : Nat} {s t u : State} (h : core.run n s = .next t) (h' : step t = .next u) :
    core.run (n + 1) s = .next u := by
  induction n generalizing s with
  | zero =>
    cases h
    exact run_of_step h' 0
  | succ n ih =>
    cases hs : step s with
    | next v =>
      rw [run_of_step hs] at h ⊢
      exact ih h
    | fault r => cases r
    | refused r =>
      have hc : core.step s = .refused r := hs
      simp only [Host.Core.run, hc] at h
      cases h

end Sys2Proof.Machine
end

