-- ==== Sys2Proof/Tests/Slice0.lean ====
section
/-! SUPPORT. Tests of the model's words and steps against spec/95_test_vectors.md (the vector is named on each), and
for every statement with hypotheses a concrete state that meets them. -/

namespace Sys2Proof.Tests

open Sys2Proof Sys2Proof.Machine

/-! ### Helpers -/

def after : Host.Outcome State Fault Refusal → Option State
  | .next t => some t
  | _ => none

/-- The scenario's sets, as words (V-D3, V-D15b, V-D16a). -/
def scenarioPk : CoefSet := ⟨0x3F85A041#32, 0xBFF299DF#32, 0x3F5E230C#32, 0xBFF299DF#32, 0x3F69638F#32⟩

def scenarioLc : List CoefSet :=
  [⟨0x3F7CEE28#32, 0xBFFCEE28#32, 0x3F7CEE28#32, 0xBFFCEB62#32, 0x3F79E1DC#32⟩,
   ⟨0x3F7EB690#32, 0xBFFEB690#32, 0x3F7EB690#32, 0xBFFEB3C5#32, 0x3F7D72B6#32⟩]

def scenarioHc : CoefSet := ⟨0x3E1EC5B2#32, 0x3E9EC5B2#32, 0x3E1EC5B2#32, 0xBF1EC5B2#32, 0x3E762D92#32⟩

def scenario : Shadow := ⟨scenarioPk, scenarioLc, [scenarioHc]⟩

def rate48k : Word := 0x473B8000#32

def atRate : State := { State.reset with fs := rate48k }

def updating (k : Fin 10) (rest : List Event) : State :=
  { State.reset with seq := .upd k scenario rate48k, inbox := rest }

def magPending (ctrl : BitVec 3) (rest : List Event) : State :=
  { State.reset with seq := .mag 0x447A0000#32 rate48k ctrl, inbox := rest }

def allBypassed : State := { State.reset with ctrl := 7#32 }

def nextIs (s : State) (w : BitVec 48) : State := s.withInbox [.port (.descriptor w)]

/-- A Libm with simple values, for the statements that hold of every Libm. -/
def plainLibm : Libm := ⟨fun _ => int64 1, fun _ => (int64 1).half, fun _ => int64 1, fun _ => int64 1⟩

/-- A Libm with one value for each function, and sin 0 as 0. -/
def flatLibm (cos tan : FVal) : Libm := ⟨fun _ => int64 0, fun _ => cos, fun _ => tan, fun _ => int64 1⟩

/-- A Libm whose tangent 5 · 2^67 makes c1 round to a subnormal: 2^-134 / 25 is 1310.72 units of 2^-149. -/
def steepLibm : Libm := flatLibm (int64 1) (.fin false 5 67)

/-- A quarter of the rate as an angle, and a Libm with its sines and cosines there and at the double angle. -/
def quarter : FVal := (((int64 2).mul64 pi64).mul64 (widen 0x463B8000#32)).div64 (widen rate48k)

def quarterLibm : Libm :=
  ⟨fun v => if v = quarter then int64 1 else int64 0, fun v => if v = quarter then int64 0 else int64 (-1),
    fun _ => int64 1, fun _ => int64 4⟩

/-- A set with |H| = |6 − 8i| / |3 − 4i| at a quarter of the rate, and a state that has it in the Peak section, the
only one processed with CTRL = 5. -/
def quarterSet : CoefSet := ⟨0x40E00000#32, 0x41000000#32, 0x3F800000#32, 0x40800000#32, 0xC0000000#32⟩

def peakOnly : State := { State.reset with bank := State.reset.bank.set 4 quarterSet }

/-- The scenario's first LowCut set in slot 0 (V-D15b). -/
def lowCutIn : State := { State.reset with bank := State.reset.bank.set 0 (scenarioLc.headD scenarioPk) }

/-! ### Well-formedness: each check refuses an ill-formed term -/

theorem test_wf_kind : (Descriptor.mk 3#2 0#2 0#12 0#32).problem = some .kindReserved := by decide

theorem test_wf_rsv : (Descriptor.mk 0#2 1#2 0x030#12 0#32).problem = some .rsvNonzero := by decide

theorem test_wf_proc_addr : (Descriptor.mk 2#2 0#2 1#12 0x3F800000#32).problem = some .procAddrNonzero := by
  decide

theorem test_wf_rd_data : (Descriptor.mk 0#2 0#2 0x030#12 1#32).problem = some .rdDataNonzero := by decide

theorem test_wf_command_rsv : (CommandWord.mk 1#28 1#4).problem = some .commandRsvNonzero := by decide

theorem test_wf_command_op : (CommandWord.mk 0#28 4#4).problem = some .commandOpReserved
    ∧ (CommandWord.mk 0#28 15#4).problem = some .commandOpReserved
    ∧ (CommandWord.mk 0#28 3#4).wellFormed = true := by decide

/-! ### Decoding: words written out from the encoding -/

/-- V-E1 and V-E10. -/
theorem test_decode_rd : decodeTableWord 48 0x003000000000 = some (.rd 0x030#12)
    ∧ decodeTableWord 48 0x000200000000 = some (.rd 0x002#12) := by decide

/-- V-E4 and V-E5. -/
theorem test_decode_wr : decodeTableWord 48 0x4028473B8000 = some (.wr 0x028#12 0x473B8000#32)
    ∧ decodeTableWord 48 0x40300000FF00 = some (.wr 0x030#12 0x0000FF00#32) := by decide

/-- V-E3. -/
theorem test_decode_proc : decodeTableWord 48 0x80003F800000 = some (.proc 0x3F800000#32) := by decide

/-- V-E11. -/
theorem test_decode_commands : decodeTableWord 32 0 = some .nop ∧ decodeTableWord 32 1 = some .update
    ∧ decodeTableWord 32 2 = some .mag ∧ decodeTableWord 32 3 = some .clear := by decide

/-- V-E6 to V-E9. -/
theorem test_decode_refuses : decodeTableWord 48 0xC00000000000 = none
    ∧ decodeTableWord 48 0x103000000000 = none ∧ decodeTableWord 48 0x80013F800000 = none
    ∧ decodeTableWord 48 0x003000000001 = none := by decide

/-- V-E12 and V-E13. -/
theorem test_decode_malformed_commands : (∀ n : Fin 12, decodeCommand (BitVec.ofNat 32 (4 + n.val))
      = .error .commandOpReserved)
    ∧ decodeCommand 0x10#32 = .error .commandRsvNonzero
    ∧ decodeCommand 0x80000001#32 = .error .commandRsvNonzero := by decide

/-! ### One step of each instruction -/

/-- V-C2 and V-C8. -/
theorem test_rd_misaligned :
    (State.reset.read false (placeOf 0x002#12)).outbox = [.word 0#32]
      ∧ (State.reset.read false (placeOf 0x002#12)).sticky = 0x80#8
      ∧ (State.reset.read false (placeOf 0x114#12)).sticky = 0#8 := by decide

/-- V-C1 and V-C10. -/
theorem test_rd_param_and_take :
    (State.reset.read false (placeOf 0x00C#12)).outbox = [.word 4#32]
      ∧ ({ State.reset with chg := true }.read false (placeOf 0x034#12)).outbox = [.word 1#32]
      ∧ ({ State.reset with chg := true }.read false (placeOf 0x034#12)).chg = false := by decide

/-- V-C5, V-C6. -/
theorem test_wr_masks :
    (after (exec (.wr 0x024#12 0xFFFFFFFF#32) State.reset)).map (fun t => (t.slope, t.chg)) = some (0x33#32, true)
      ∧ (after (exec (.wr 0x008#12 0xFFFFFFFA#32) State.reset)).map (fun t => (t.ctrl, t.chg))
        = some (2#32, false) := by decide

/-- V-C7 and V-C9. -/
theorem test_wr_ignored_and_malformed_command :
    after (exec (.wr 0x100#12 0#32) State.reset) = some State.reset
      ∧ (after (exec (.wr 0x02C#12 0x10#32) State.reset)).map State.sticky = some 0x20#8
      ∧ (after (exec (.wr 0x02C#12 7#32) State.reset)).map State.sticky = some 0x20#8 := by decide

/-- V-P3 and V-P2. -/
theorem test_proc_identity :
    (chain false State.reset 0x80000000#32).1 = 0x00000000#32
      ∧ (chain false State.reset 0x80000000#32).2[0] = ⟨0x00000000#32, 0x80000000#32⟩
      ∧ (chain false State.reset 0x7F7FFFFF#32).1 = 0x7F7FFFFF#32
      ∧ (chain false State.reset 0x00000001#32).1 = 0x00000001#32 := by decide +kernel

/-- V-P12, first sample, and V-P11. -/
theorem test_proc_sections :
    bq false 0 scenarioHc Delay.zero 0x3F800000#32 = (0x3E1EC5B2#32, ⟨0x3ED00202#32, 0x3DF13446#32⟩)
      ∧ bq false 0 scenarioPk Delay.zero 0x00000100#32 = (0x0000010B#32, ⟨0x00000015#32, 0x80000015#32⟩) := by
  decide +kernel

/-- V-U12: NOP while an UPDATE is in progress. -/
theorem test_nop_busy : after (exec .nop (updating 0 [])) = some (updating 0 []) := by decide

/-- V-U1. -/
theorem test_update_invalid_rate :
    after (exec .update State.reset) = some { State.reset with sticky := 0x01#8 } := by decide +kernel

/-- V-U6, the shape at the end. -/
theorem test_update_steps : (sequencerSteps plainLibm 10 (updating 0 [])).gen = 1#32
    ∧ secActWord (sequencerSteps plainLibm 10 (updating 0 [])).actLC
        (sequencerSteps plainLibm 10 (updating 0 [])).actHC = 0x13#32
    ∧ (sequencerSteps plainLibm 1 (updating 0 [])).bank[4].b0 = 0x3F85A041#32 := by decide +kernel

/-- V-M6 and V-M7. -/
theorem test_mag_checks :
    after (exec .mag State.reset) = some { State.reset with sticky := 0x01#8 }
      ∧ (after (exec .mag { State.reset with magFreq := 0x7FC00000#32 })).map State.sticky = some 0x11#8 := by
  decide +kernel

/-- V-M2 with CTRL = 7. -/
theorem test_mag_all_bypassed :
    (after (step (magPending 7#3 []))).map (fun t => (t.magResult, t.seq)) = some (0x3F800000#32, .idle) := by
  decide +kernel

/-- V-M4 and V-M5: the identity bank gives 1.0, an active LowCut section +0.0 at DC; and |H| at a quarter of the
rate by hand. -/
theorem test_mag_values :
    (State.reset.finishMag quarterLibm 0x463B8000#32 rate48k 0#3).magResult = 0x3F800000#32
      ∧ (lowCutIn.finishMag (flatLibm (int64 1) (int64 1)) 0#32 rate48k 0#3).magResult = 0x00000000#32
      ∧ (peakOnly.finishMag quarterLibm 0x463B8000#32 rate48k 5#3).magResult = 0x40000000#32 := by decide +kernel

/-- V-P10 and R171: an infinite first delay word gives an infinite output, and a NaN in the second comes out one
PROC later (log 18). -/
theorem test_proc_nonfinite_state :
    (bq false 0 CoefSet.identity ⟨0x7F800000#32, 0#32⟩ 0#32).1 = 0x7F800000#32
      ∧ (bq false 0 CoefSet.identity ⟨0#32, 0x7FC00000#32⟩ 0x3F800000#32).1 = 0x3F800000#32 := by decide +kernel

/-- V-P6 and V-U12. -/
theorem test_clear :
    after (exec .clear { State.reset with delay := Vector.replicate 9 ⟨0x7FC00000#32, 1#32⟩ }) = some State.reset
      ∧ (after (exec .clear (updating 0 []))).map State.sticky = some 0x40#8 := by decide

/-! ### Clamps -/

/-- V-D2a to V-D2d. -/
theorem test_clampF :
    clampF 0x46BB8000#32 rate48k = (0x46BB7FFF#32, true)
      ∧ clampF 0x00000000#32 rate48k = (0x3F800000#32, true)
      ∧ clampF 0xC0A00000#32 rate48k = (0x3F800000#32, true)
      ∧ clampF 0x7FC00000#32 rate48k = (0x3F800000#32, true)
      ∧ clampF 0x46AC4400#32 0x472C4400#32 = (0x46AC43FF#32, true)
      ∧ clampF 0x447A0000#32 rate48k = (0x447A0000#32, false) := by decide +kernel

/-- V-D2e, V-D2f. -/
theorem test_clampQ :
    clampQ 0#32 = (0x3A800000#32, true) ∧ clampQ 0xBF800000#32 = (0x3A800000#32, true)
      ∧ clampQ 0x7FC00000#32 = (0x3A800000#32, true) ∧ clampQ 0x7F800000#32 = (0x7F800000#32, false) := by
  decide +kernel

/-- V-U5 and V-D22: a NaN and −0.0 are no rates, the smallest subnormal is one. -/
theorem test_fsValid : fsValid 0x7FC00000#32 = false ∧ fsValid 0x80000000#32 = false
    ∧ fsValid 0x00000001#32 = true ∧ fsValid 0x7F800000#32 = false := by decide +kernel

/-! ### The cut design -/

/-- 43_magnitude.md R226 case 1 where b0 is subnormal: b0 is 1311 units, b1 is −2 · 1311 of them (the 2621 that
rounding −2 · c1 gives would not cancel), and the magnitude at DC is +0. -/
theorem test_lowcut_b1_is_b0_doubled :
    (lowCutSection steepLibm (int64 1) (int64 2) (int64 1)).words
        = ⟨0x0000051F#32, 0x80000A3E#32, 0x0000051F#32, 0x40000000#32, 0x3F800000#32⟩
      ∧ magSec steepLibm (lowCutSection steepLibm (int64 1) (int64 2) (int64 1)).words (int64 0)
        = .fin false 0 b64.emin := by decide +kernel

/-- V-D22: at the smallest rate the tangent is 0, LowCut has its poles on z = 1 and HighCut is all NaN. -/
theorem test_cuts_at_tangent_zero :
    ((design (flatLibm (int64 1) (int64 0)) { atRate with fs := 1#32 }.snapshot).lc.map CoefVals.words
        = [⟨0x3F800000#32, 0xC0000000#32, 0x3F800000#32, 0xC0000000#32, 0x3F800000#32⟩])
      ∧ (design (flatLibm (int64 1) (int64 0)) { atRate with fs := 1#32 }.snapshot).ok = false := by
  decide +kernel

/-! ### Witnesses -/

theorem witness_InstructionsDecodeFromTheirEncodings :
    decode (.descriptor 0x402C00000002#48) = .ok (.wr 0x02C#12 2#32)
      ∧ decodeCommand 0x00000003#32 = .ok .clear := by decide

/-- The condition of the statement, as a Bool. -/
def illFormed (w : BitVec 48) : Bool :=
  decide (w.extractLsb' 46 2 = 3#2 ∨ w.extractLsb' 44 2 ≠ 0#2
    ∨ (w.extractLsb' 46 2 = 2#2 ∧ w.extractLsb' 32 12 ≠ 0#12)
    ∨ (w.extractLsb' 46 2 = 0#2 ∧ w.extractLsb' 0 32 ≠ 0#32))

theorem witness_DescriptorsDecodeByKindOrAreRefused :
    [0xC00000000000#48, 0x103000000000#48, 0x80013F800000#48, 0x003000000001#48].all illFormed = true
      ∧ [0x0FFF00000000#48, 0x4FFFFFFFFFFF#48, 0x8000FFFFFFFF#48].any illFormed = false := by decide

theorem witness_refused_descriptor :
    step (nextIs State.reset 0xC00000000000#48) = .refused (.illFormedDescriptor .kindReserved) := rfl

theorem witness_StepRunsTheDecodedInstruction :
    (nextIs State.reset 0x003000000000#48).inbox = .port (.descriptor 0x003000000000#48) :: []
      ∧ decode (.descriptor 0x003000000000#48) = .ok (.rd 0x030#12)
      ∧ decodeTableWord 32 2 = some .mag ∧ decodeTableWord 48 0x402C00000002 = some (.wr 0x02C#12 2#32) := by
  decide

theorem witness_StepTakesSequencerAndResetEvents :
    sequencerNext (updating 0 [.sequencer, .reset]) [.reset] ∧ sequencerNext (updating 0 []) []
      ∧ (sequencerNext atRate [] ∧ atRate.seq = .idle) ∧ (updating 0 [.reset]).inbox = .reset :: [] :=
  ⟨.inl rfl, .inr ⟨rfl, rfl⟩, ⟨.inr ⟨rfl, rfl⟩, rfl⟩, rfl⟩

theorem witness_WellFormedInputNeverStopsTheMachine :
    inboxWellFormed (updating 0 [.port (.command 0x80000001#32), .sequencer, .reset,
      .port (.descriptor 0x000200000000#48)]) := by
  unfold inboxWellFormed; decide

theorem witness_ResetSetsEveryElement : (updating 3 [.reset]).inbox = .reset :: [] := rfl

theorem witness_EveryStepKeepsTheInvariant :
    Inv (updating 0 []) ∧ ∃ t, step (updating 0 []) = .next t := by
  refine ⟨⟨by decide, by decide, by decide +kernel, ?_⟩, _, rfl⟩
  show Shadow.legal scenario ∧ _
  unfold Shadow.legal activeMix
  decide +kernel

theorem witness_ResetStateMeetsTheInvariant_boundary :
    shapeSettled { State.reset with actLC := Vector.replicate 4 true } := by
  unfold shapeSettled activePrefix; decide

theorem witness_BadAddressesRaiseErrAddr :
    badAddress 0x001#12 ∧ badAddress 0x002#12 ∧ badAddress 0x003#12
      ∧ badAddress 0x04C#12 ∧ badAddress 0x0FC#12 ∧ badAddress 0x220#12
      ∧ badAddress 0x2FC#12 ∧ badAddress 0x348#12 ∧ badAddress 0xFFC#12
      ∧ badAddress 0xFFF#12 := by
  simp [badAddress]

theorem witness_OnlyChgTakeHasAReadSideEffect :
    ¬ badAddress 0x000#12 ∧ ¬ badAddress 0x048#12 ∧ ¬ badAddress 0x100#12
      ∧ ¬ badAddress 0x21C#12 ∧ ¬ badAddress 0x300#12 ∧ ¬ badAddress 0x344#12 := by
  simp [badAddress]

theorem witness_WritesToReadOnlyWordsAreIgnored :
    readOnlyAddress 0x000#12 ∧ readOnlyAddress 0x034#12 ∧ readOnlyAddress 0x048#12
      ∧ readOnlyAddress 0x100#12 ∧ readOnlyAddress 0x21C#12 ∧ readOnlyAddress 0x300#12
      ∧ readOnlyAddress 0x344#12 := by
  simp [readOnlyAddress]

theorem witness_CmdWritesDispatch :
    (∀ c : Command, (0x00000004#32 : Word) ≠ commandWordOf c) ∧ (∀ c : Command, (0x0000000F#32 : Word) ≠ commandWordOf c)
      ∧ (∀ c : Command, (0x00000010#32 : Word) ≠ commandWordOf c)
      ∧ ∀ c : Command, (0x80000001#32 : Word) ≠ commandWordOf c := by
  refine ⟨?_, ?_, ?_, ?_⟩ <;> intro c <;> cases c <;> decide

theorem witness_WritesNeverReachTheFilter :
    ∃ t, exec (.wr cmdAddr 3#32) { State.reset with delay := Vector.replicate 9 ⟨1#32, 1#32⟩ } = .next t
      ∧ t.delay ≠ Vector.replicate 9 ⟨1#32, 1#32⟩ := ⟨_, rfl, by decide⟩

theorem witness_ClearZeroesTheDelayState : atRate.seq = .idle := rfl

theorem witness_CommandsWhileBusyAreDropped :
    (updating 9 []).seq ≠ .idle ∧ (magPending 0#3 []).seq ≠ .idle := by decide

theorem witness_UpdateWithAnInvalidRateOnlyRaisesErrFs :
    State.reset.seq = .idle ∧ fsValid State.reset.fs = false := by decide +kernel

theorem witness_UpdateDesignsAndStartsItsCommits : atRate.seq = .idle ∧ fsValid atRate.fs = true := by
  decide +kernel

theorem witness_MagChecksItsArgumentsAndStarts :
    (atRate.seq = .idle ∧ fsValid atRate.fs = true ∧ isFinite32 atRate.magFreq = true)
      ∧ isFinite32 0x7F7FFFFF#32 = true ∧ isFinite32 0x7F800000#32 = false := by decide +kernel

theorem witness_PeakCommitReplacesThePeakSet :
    sequencerNext (updating 0 [.sequencer]) [] ∧ (updating 0 [.sequencer]).seq = .upd 0 scenario rate48k :=
  ⟨.inl rfl, rfl⟩

theorem witness_CutCommitsTakeSlotAndFlagTogether :
    ∀ k : Fin 4, (∃ j : Fin 10, j.val = 1 + k.val ∧ (updating j []).seq = .upd j scenario rate48k)
      ∧ ∃ j : Fin 10, j.val = 5 + k.val ∧ (updating j []).seq = .upd j scenario rate48k := by decide

theorem witness_DoneStepCountsTheUpdate :
    sequencerNext (updating 9 []) [] ∧ (updating 9 []).seq = .upd 9 scenario rate48k := ⟨.inr ⟨rfl, rfl⟩, rfl⟩

theorem witness_UpdateCompletesInTenSteps :
    (updating 0 []).inbox = [] ∧ (updating 0 []).seq = .upd 0 scenario rate48k := ⟨rfl, rfl⟩

theorem witness_UpdateCommandInstallsSlopePlusOneSections :
    (atRate.withInbox [.port (.command 1#32)]).inbox = [.port (.command 0x00000001#32)]
      ∧ (atRate.withInbox [.port (.command 1#32)]).seq = .idle
      ∧ fsValid (atRate.withInbox [.port (.command 1#32)]).fs = true := by decide +kernel

theorem witness_RepeatedUpdatesInstallTheSameBits :
    atRate.seq = .idle ∧ (updateRun plainLibm atRate).gen = 1#32 := by decide +kernel

theorem witness_UpdateLeavesEverythingElseAlone :
    (∃ t, exec .update State.reset = .next t)
      ∧ ∃ k sh fsnap rest t, (updating 5 []).seq = .upd k sh fsnap ∧ sequencerNext (updating 5 []) rest
        ∧ step (updating 5 []) = .next t :=
  ⟨⟨_, rfl⟩, 5, scenario, rate48k, [], _, rfl, .inr ⟨rfl, rfl⟩, rfl⟩

theorem witness_MagCompletionMultipliesTheProcessedSections :
    sequencerNext (magPending 7#3 []) [] ∧ (magPending 7#3 []).seq = .mag 0x447A0000#32 rate48k 7#3
      ∧ ∀ sec : Fin 9, processed 7#3 (magPending 7#3 []).actLC (magPending 7#3 []).actHC sec = false :=
  ⟨.inr ⟨rfl, rfl⟩, rfl, by decide⟩

theorem witness_MagCompletion_values :
    (∀ sec : Fin 9, processed 0#3 State.reset.actLC State.reset.actHC sec = true →
        State.reset.bank[sec] = ⟨0x3F800000#32, 0#32, 0#32, 0#32, 0#32⟩)
      ∧ (∀ sec : Fin 9, processed 5#3 peakOnly.actLC peakOnly.actHC sec = decide (sec = 4))
      ∧ call64 quarterLibm.cos quarter = int64 0 ∧ call64 quarterLibm.sin quarter = int64 1
      ∧ call64 quarterLibm.cos ((int64 2).mul64 quarter) = int64 (-1)
      ∧ call64 quarterLibm.sin ((int64 2).mul64 quarter) = int64 0 := by decide +kernel

theorem witness_MagCompletion_dc :
    fsValid rate48k = true ∧ processed 0#3 lowCutIn.actLC lowCutIn.actHC (lcSec 0) = true
      ∧ (∀ k : Fin 4, processed 0#3 lowCutIn.actLC lowCutIn.actHC (lcSec k) = true → k = 0)
      ∧ lowCutIn.bank[lcSec 0].b2 = lowCutIn.bank[lcSec 0].b0
      ∧ (val32 lowCutIn.bank[lcSec 0].b1).real = -2 * (val32 lowCutIn.bank[lcSec 0].b0).real
      ∧ ∀ sec : Fin 9, (magSec (flatLibm (int64 1) (int64 1)) lowCutIn.bank[sec] (int64 0)).isFinite = true := by
  have h0 : val32 lowCutIn.bank[lcSec 0].b0 = .fin false 16576040 (-24) := by decide +kernel
  have h1 : val32 lowCutIn.bank[lcSec 0].b1 = .fin true 16576040 (-23) := by decide +kernel
  refine ⟨by decide +kernel, by decide, by decide, by decide, ?_, by decide +kernel⟩
  rw [h0, h1]
  norm_num [FVal.real]

/-- The second point's cosines and sines: 1, 1 at the angle, 0, 1 at its double. -/
theorem witness_MagCompletion_second :
    call64 (fun v => if v = quarter then int64 1 else int64 0) quarter = int64 1
      ∧ call64 (fun v => if v = quarter then int64 1 else int64 0) ((int64 2).mul64 quarter) = int64 0
      ∧ call64 (flatLibm (int64 1) (int64 1)).tan quarter = int64 1 := by decide +kernel

theorem witness_UnprocessedSectionsKeepTheirState :
    (∃ t, exec (.proc 0x3F800000#32) State.reset = .next t)
      ∧ processed State.reset.ctrlBits State.reset.actLC State.reset.actHC 1 = false
      ∧ processed State.reset.ctrlBits State.reset.actLC State.reset.actHC 8 = false :=
  ⟨⟨_, rfl⟩, by decide⟩

theorem witness_BypassedChainPassesEveryBit :
    ∀ sec : Fin 9, processed allBypassed.ctrlBits allBypassed.actLC allBypassed.actHC sec = false := by decide

theorem witness_IdentityChainPassesFiniteSamples :
    (∀ sec : Fin 9, State.reset.bank[sec] = ⟨0x3F800000#32, 0#32, 0#32, 0#32, 0#32⟩)
      ∧ (∀ sec : Fin 9, State.reset.delay[sec] = ⟨0#32, 0#32⟩)
      ∧ isFinite32 0x00800000#32 = true ∧ (0x00800000#32 : Word) ≠ 0x80000000#32
      ∧ isSubnormal32 0x00800000#32 = false := by decide +kernel

theorem witness_NaNsAndInfinitiesPoisonASection :
    isNaN32 0x7FC00000#32 = true ∧ isNaN32 0xFF800001#32 = true ∧ isNaN32 0x7F800000#32 = false
      ∧ (CoefSet.identity.b1 = 0x00000000#32 ∨ CoefSet.identity.b1 = 0x80000000#32)
      ∧ (CoefSet.mk 0x80000000#32 1#32 1#32 1#32 1#32).b0 = 0x80000000#32
      ∧ isFinite32 0x7F800000#32 = false ∧ isFinite32 0xFFC00000#32 = false := by
  decide +kernel

theorem witness_OnlyCommitsAndResetChangeTheFilter :
    (∃ t, step (updating 0 []) = .next t ∧ t.bank ≠ (updating 0 []).bank)
      ∧ ∃ t, step (updating 9 []) = .next t ∧ t.gen ≠ (updating 9 []).gen :=
  ⟨⟨_, rfl, by decide⟩, _, rfl, by decide⟩

theorem witness_OnlyTheirWritersChangeMagResultAndDelay :
    (∃ t, step (magPending 7#3 []) = .next t ∧ t.magResult ≠ (magPending 7#3 []).magResult)
      ∧ ∃ t, step ({ State.reset with delay := Vector.replicate 9 ⟨1#32, 1#32⟩ }.withInbox
        [.port (.command 3#32)]) = .next t ∧ t.delay ≠ Vector.replicate 9 ⟨1#32, 1#32⟩ :=
  ⟨⟨_, rfl, by decide +kernel⟩, _, rfl, by decide⟩

theorem witness_OnlySettingsWritesSetChg :
    (∃ t, step (nextIs State.reset 0x4028473B8000#48) = .next t
        ∧ (nextIs State.reset 0x4028473B8000#48).chg = false ∧ t.chg = true)
      ∧ (∃ t, step (nextIs { State.reset with chg := true } 0x003400000000#48) = .next t ∧ t.chg = false)
      ∧ (0x028#12 ∈ settingAddresses ∧ instrNext (nextIs State.reset 0x4028473B8000#48) (.wr 0x028#12 rate48k)) :=
  ⟨⟨_, rfl, rfl, rfl⟩, ⟨_, rfl, rfl⟩, by decide, _, _, rfl, rfl⟩

theorem witness_StickyBitsStayUntilCleared :
    ∃ t, step (nextIs { State.reset with sticky := 0xFF#8 } 0x40300000FF00#48) = .next t
      ∧ (∀ j : Fin 8, (0xFF#8)[j.val] = true) ∧ ∀ j : Fin 8, t.sticky[j.val] = false :=
  ⟨_, rfl, by decide, by decide⟩

theorem witness_BankIsStableDuringAMag :
    (magPending 0#3 [.port (.command 1#32)]).seq = .mag 0x447A0000#32 rate48k 0#3
      ∧ instrNext (magPending 0#3 [.port (.command 1#32)]) .update
      ∧ ∃ t, step (magPending 0#3 [.port (.command 1#32)]) = .next t :=
  ⟨rfl, ⟨_, _, rfl, rfl⟩, _, rfl⟩

theorem witness_NextDownIsTheLargestValueBelow :
    0 < 1 ∧ (FVal.fin false 1 (-150)).real < (FVal.fin false 1 128).real
      ∧ nextDown32 1 (-150) = 0x00000000#32 := by
  refine ⟨by decide, ?_, by decide +kernel⟩
  norm_num [FVal.real]

theorem val32_rate48k : val32 rate48k = .fin false 12288000 (-8) := by decide +kernel

/-- The rate 48 kHz is valid, NaN is low, +∞ is high, and Nyquist lies above F_MIN; 1 Hz as a rate puts it below. -/
theorem witness_ClampedFrequenciesLieBelowNyquist :
    fsValid rate48k = true ∧ isNaN32 0x7FC00000#32 = true ∧ 1 < (val32 rate48k).real / 2
      ∧ fsValid 0x3F800000#32 = true ∧ (val32 0x3F800000#32).real / 2 ≤ 1
      ∧ ¬ (isNaN32 0x7F800000#32 = true) ∧ isFinite32 0x7F800000#32 = false := by
  refine ⟨by decide +kernel, by decide +kernel, ?_, by decide +kernel, ?_, by decide +kernel, by decide +kernel⟩
  · rw [val32_rate48k]; norm_num [FVal.real]
  · have h : val32 0x3F800000#32 = .fin false 8388608 (-23) := by decide +kernel
    rw [h]; norm_num [FVal.real]

theorem witness_AcceptedDesignsAreFiniteAndSized :
    (design plainLibm { atRate with slope := 0x33#32 }.snapshot).ok = true
      ∧ (design plainLibm { atRate with slope := 0x33#32 }.snapshot).lc.length = 4 := by decide +kernel

/-- Two high-cut settings from Nyquist on clamp to one word (V-D2a). -/
theorem witness_AcceptedDesigns_settings :
    (clampF 0x46BB8000#32 rate48k).1 = (clampF 0x46EA6000#32 rate48k).1 ∧ (0x46BB8000#32 : Word) ≠ 0x46EA6000#32
      ∧ (clampQ 0#32).1 = (clampQ 0xBF800000#32).1 := by decide +kernel

/-- The sections of this design are finite, and their b0, a third, lies above the subnormals. -/
theorem witness_AcceptedDesigns_sections :
    (∀ c ∈ (design plainLibm atRate.snapshot).lc, c.isFinite = true)
      ∧ ∀ c ∈ (design plainLibm atRate.snapshot).hc, c.isFinite = true
        ∧ (FVal.fin false 1 (-126)).real < |c.b0.real| := by
  have h : (design plainLibm atRate.snapshot).hc = [⟨.fin false 11184811 (-25), .fin false 11184811 (-24),
      .fin false 11184811 (-25), .fin false 0 (-149), .fin false 11184811 (-25)⟩] := by decide +kernel
  refine ⟨by decide +kernel, ?_⟩
  rw [h]
  simp only [List.mem_singleton, forall_eq]
  exact ⟨rfl, by norm_num [FVal.real]⟩

/-- The values of cosine and tangent that the statement names. -/
theorem witness_AcceptedDesigns_values :
    call64 (flatLibm (int64 1) (int64 0)).tan (int64 1) = int64 0
      ∧ call64 (flatLibm (int64 1) (int64 1)).tan (int64 1) = int64 1
      ∧ call64 (flatLibm (int64 1) (int64 1)).cos (int64 1) = int64 1
      ∧ call64 plainLibm.cos (int64 1) = val64 0x3FE0000000000000#64
      ∧ call64 (flatLibm (int64 1) (int64 1).half).tan (int64 1) = val64 0x3FE0000000000000#64 := by decide +kernel

theorem witness_PeakAtZeroDecibelsIsTheIdentity :
    call64 plainLibm.pow10 ((widen 0x00000000#32).div64 (int64 20)) = int64 1
      ∧ (peakDesign plainLibm (int64 1000) (int64 48000) (widen 0x00000000#32) (int64 1)).isFinite = true := by
  decide +kernel

/-- The boost points: pow10 is 4, the sine 1, the cosine 3/4, the quality 1/2 or 1. -/
theorem witness_PeakAtABoost :
    let lm : Libm := ⟨fun _ => int64 1, fun _ => val64 0x3FE8000000000000#64, fun _ => int64 1, fun _ => int64 4⟩
    let snap := { atRate with pkQ := 0x3F000000#32, pkGain := 0x41400000#32 }.snapshot
    call64 lm.pow10 ((widen snap.gdb).div64 (int64 20)) = int64 4 ∧ call64 lm.sin (int64 1) = int64 1
      ∧ call64 lm.cos (int64 1) = val64 0x3FE8000000000000#64 ∧ (clampQ snap.q).1 = 0x3F000000#32
      ∧ (clampQ { snap with q := 0x3F800000#32 }.q).1 = 0x3F800000#32
      ∧ (design lm { snap with q := 0x3F800000#32 }).pk.words
        = ⟨0x3FCCCCCD#32, 0xBF99999A#32, 0x00000000#32, 0xBF99999A#32, 0x3F19999A#32⟩
      ∧ (design lm snap).pk.words
        = ⟨0x40000000#32, 0xBF800000#32, 0xBF2AAAAB#32, 0xBF800000#32, 0x3EAAAAAB#32⟩ := by decide +kernel

/-- A magnitude just past the largest binary32 value by half a unit rounds to the infinity, and one below does not. -/
theorem witness_RoundingIsToNearestEven :
    b32.roundMag (2 ^ 25 - 1) 103 = b32.infMag ∧ b32.roundMag (2 ^ 25 - 2) 103 < b32.infMag
      ∧ b64.roundMag 1 0 < b64.infMag := by decide +kernel

/-- The zero sum and the zero difference are those of 3/4 and its negation. -/
theorem witness_SumsAndProductsAreExactBeforeRounding :
    (FVal.fin false 3 (-2)).isFinite = true ∧ (FVal.fin true 5 7).isFinite = true
      ∧ ((FVal.fin false 3 (-2)).add (.fin true 3 (-2))).real = 0
      ∧ ((FVal.fin false 3 (-2)).sub (.fin false 3 (-2))).real = 0 := by
  refine ⟨rfl, rfl, ?_, ?_⟩ <;> norm_num [FVal.add, FVal.sub, FVal.neg, FVal.real, signedInt]

theorem witness_QuotientsRoundToNearest :
    0 < 3 ∧ ((FVal.fin false 1 0).div64 (.fin false 3 0)).isFinite = true
      ∧ (FVal.fin false 1 0).div64 (.fin false 3 0) = val64 0x3FD5555555555555#64 := by decide +kernel

theorem witness_RootsRoundToNearest :
    0 < 2 ∧ (FVal.fin false 2 0).sqrt64.isFinite = true
      ∧ (FVal.fin false 2 0).sqrt64 = val64 0x3FF6A09E667F3BCD#64 := by decide +kernel

end Sys2Proof.Tests
end

section
/-! PROOF. `nextDown32` and the neighbours rounding chooses between (00_scope.md R10). -/

namespace Sys2Proof

/-- Where nothing overflows, rounding brackets the value strictly from below: the result is below the value and its
successor above it, or the result is the successor of a magnitude below the value and is not itself below it. -/
theorem roundMag_neighbours (f : Fmt) {m : Nat} (e : Int) (hF : 1 ≤ f.fracBits) (hm : m ≠ 0)
    (hlt : m * (2 : ℚ) ^ e < f.magReal f.infMag) :
    (f.roundMag m e < f.infMag ∧ f.magReal (f.roundMag m e) < m * 2 ^ e
        ∧ m * 2 ^ e < f.magReal (f.roundMag m e + 1))
      ∨ ∃ g < f.infMag, f.roundMag m e = g + 1 ∧ f.magReal g < m * 2 ^ e ∧ m * 2 ^ e ≤ f.magReal (g + 1) := by
  obtain ⟨lo, hi, -⟩ := floorMag_bracket f e hm
  have hg : f.floorMag m e < f.infMag := (magReal_strictMono f).lt_iff_lt.1 (lo.trans_lt hlt)
  rcases roundMag_spec f e hF hm with ⟨hr, -⟩ | ⟨hr, hmid⟩
  · rw [min_eq_right hg.le] at hr
    rw [hr]
    rcases lo.lt_or_eq with hlo | heq
    · exact .inl ⟨hg, hlo, hi⟩
    · have hv : (0 : ℚ) < m * 2 ^ e := by positivity
      obtain ⟨g, hgs⟩ : ∃ g, f.floorMag m e = g + 1 :=
        Nat.exists_eq_succ_of_ne_zero fun h0 => by rw [h0, magReal_zero] at heq; exact hv.ne heq
      have hstep := magReal_strictMono f (Nat.lt_add_one g)
      rw [hgs] at heq hg
      exact .inr ⟨g, by omega, hgs, heq ▸ hstep, heq.ge⟩
  · rw [min_eq_right (Nat.succ_le_of_lt hg)] at hr
    have hstep := magReal_strictMono f (Nat.lt_add_one (f.floorMag m e))
    refine .inr ⟨_, hg, hr, ?_, hi.le⟩
    rcases hmid with hmid | ⟨hmid, -⟩ <;> linarith

/-- The infinity of binary32 would be worth `2^128` if its exponent field were an ordinary one. -/
theorem b32_magReal_infMag : b32.magReal b32.infMag = 2 ^ (128 : ℤ) := by
  have h := magReal_of (f := b32) 254 (2 ^ 23) (by decide) (.inr le_rfl)
  rw [show b32.infMag = 254 * 2 ^ b32.fracBits + 2 ^ 23 by decide, h, show b32.emin = -149 by decide]
  norm_num

/-- The comparison `nextDown32` makes is the one of the reals, for magnitude bits of a finite value. -/
theorem value_lt_fin_iff {f : Fmt} {g m : Nat} {e : Int} (hg : g < f.infMag) :
    (f.value false g).lt (.fin false m e) = true ↔ f.magReal g < m * 2 ^ e := by
  have hreal := value_real false hg
  obtain ⟨m', e', hv, -⟩ := value_finite false hg
  rw [hv] at hreal ⊢
  rw [lt_iff_real, hreal, real_fin]
  simp

/-- `nextDown32` returns the magnitude whose value is below `m · 2^e` and whose successor's is not. -/
theorem nextDown32_bracket {m : Nat} {e : Int} (hm : 0 < m) (hlt : m * (2 : ℚ) ^ e < 2 ^ (128 : ℤ)) :
    ∃ g < b32.infMag, nextDown32 m e = word32 false g
      ∧ b32.magReal g < m * 2 ^ e ∧ m * 2 ^ e ≤ b32.magReal (g + 1) := by
  rw [← b32_magReal_infMag] at hlt
  rcases roundMag_neighbours b32 e (by decide) hm.ne' hlt with
    ⟨hr, hbelow, habove⟩ | ⟨g, hg, hr, hbelow, habove⟩
  · exact ⟨_, hr, if_pos ((value_lt_fin_iff hr).2 hbelow), hbelow, habove.le⟩
  · have hnot : ¬ (b32.value false (g + 1)).lt (.fin false m e) = true := by
      rcases (Nat.succ_le_of_lt hg).lt_or_eq with h | h
      · rw [value_lt_fin_iff h]
        exact habove.not_gt
      · rw [← Nat.succ_eq_add_one, h, value_infMag]
        simp [FVal.lt]
    refine ⟨g, hg, ?_, hbelow, habove⟩
    simp only [nextDown32, hr, if_neg hnot, Nat.add_sub_cancel]

/-- No finite word is worth more than `g` and less than its successor; one with the sign bit set is worth at
most 0. -/
theorem val32_real_le_magReal {w : Word} {g : Nat} (hw : isFinite32 w = true)
    (hlt : (val32 w).real < b32.magReal (g + 1)) : (val32 w).real ≤ b32.magReal g := by
  rw [val32_real hw] at hlt ⊢
  cases hs : w.msb with
  | true =>
    rw [signOf_true]
    linarith [magReal_nonneg b32 g, magReal_nonneg b32 (w.toNat % 2 ^ 31)]
  | false =>
    rw [hs, signOf_false, one_mul] at hlt
    rw [signOf_false, one_mul]
    exact (magReal_strictMono b32).monotone (Nat.le_of_lt_succ ((magReal_strictMono b32).lt_iff_lt.1 hlt))

/-- Settles O52: the returned magnitude is below the value and its successor is not, and no word lies between
the two. -/
theorem nextDownIsTheLargestValueBelow : Obligations.NextDownIsTheLargestValueBelow := by
  intro m e hm hlt
  simp only [real_fin, signOf_false, one_mul, Nat.cast_one] at hlt ⊢
  obtain ⟨g, hg, hword, hbelow, habove⟩ := nextDown32_bracket hm hlt
  have hval : val32 (nextDown32 m e) = b32.value false g := by
    rw [hword, val32_word32 false (hg.trans (by decide))]
  have hreal : (val32 (nextDown32 m e)).real = b32.magReal g := by
    rw [hval, value_real false hg, signOf_false, one_mul]
  rw [hreal]
  refine ⟨?_, hbelow, fun w hw hwlt => val32_real_le_magReal hw (hwlt.trans_le habove)⟩
  rw [isFinite32, hval, isFinite_value, decide_eq_true hg]

end Sys2Proof
end

section
/-! PROOF. What a commit step installs in every slot of the filter, and how far a run of commit steps has come
(42_update.md R194 to R199). -/

namespace Sys2Proof.Machine

open Sys2Proof

/-- The nine sections: the Peak section, and the slots of the two cut stages. -/
theorem section_cases (sec : Fin 9) : sec = 4 ∨ (∃ i : Fin 4, sec = lcSec i) ∨ ∃ i : Fin 4, sec = hcSec i := by
  revert sec
  decide

/-- The ten steps of the table of R194. -/
theorem commitIndex_cases (k : Fin 10) :
    k = 0 ∨ (∃ j : Fin 4, k = ⟨1 + j.val, by omega⟩) ∨ (∃ j : Fin 4, k = ⟨5 + j.val, by omega⟩) ∨ k = 9 := by
  revert k
  decide

/-- What step `k` makes of the filter of state `s`: its entry of the table of R194, the rest as it was. The frame
outside the filter is `commit_frame`. -/
structure CommitStep (s : State) (k : Fin 10) (sh : Shadow) (t : State) : Prop where
  actLC : ∀ i : Fin 4, t.actLC[i] = if k.val = 1 + i.val then decide (i.val < sh.lc.length) else s.actLC[i]
  actHC : ∀ i : Fin 4, t.actHC[i] = if k.val = 5 + i.val then decide (i.val < sh.hc.length) else s.actHC[i]
  peak : t.bank[(4 : Fin 9)] = if k.val = 0 then sh.pk else s.bank[(4 : Fin 9)]
  lowCut : ∀ i : Fin 4, t.bank[lcSec i]
    = if k.val = 1 + i.val then sh.lc[i.val]?.getD s.bank[lcSec i] else s.bank[lcSec i]
  highCut : ∀ i : Fin 4, t.bank[hcSec i]
    = if k.val = 5 + i.val then sh.hc[i.val]?.getD s.bank[hcSec i] else s.bank[hcSec i]

theorem commitPeak_commitStep (s : State) (sh : Shadow) : CommitStep s 0 sh (s.commitPeak sh) where
  actLC i := (if_neg (by show 0 ≠ _; omega)).symm
  actHC i := (if_neg (by show 0 ≠ _; omega)).symm
  peak := by simp
  lowCut i := by
    rw [if_neg (by show 0 ≠ _; omega)]
    exact Vector.getElem_set_ne (by decide) (lcSec i).isLt (by show 4 ≠ i.val; omega)
  highCut i := by
    rw [if_neg (by show 0 ≠ _; omega)]
    exact Vector.getElem_set_ne (by decide) (hcSec i).isLt (by show 4 ≠ 5 + i.val; omega)

/-- A write to slot `j` of a stage, as step `c + j` sees slot `i`. -/
theorem ite_slot {α : Type} {p : Prop} [Decidable p] {c : Nat} {i j : Fin 4} (hp : p ↔ i = j) (new : Fin 4 → α)
    (old : α) : (if p then new j else old) = if c + j.val = c + i.val then new i else old := by
  rcases eq_or_ne i j with rfl | hne
  · rw [if_pos (hp.2 rfl), if_pos rfl]
  · rw [if_neg (hne ∘ hp.1), if_neg (by omega)]

theorem commitLC_commitStep (s : State) (sh : Shadow) (j : Fin 4) :
    CommitStep s ⟨1 + j.val, by omega⟩ sh (s.commitLC sh j) := by
  obtain ⟨bank, act, hcommit, hact, hbank⟩ := commitLC_spec s sh j
  have hother (i : Fin 4) : 1 + j.val ≠ 5 + i.val := by omega
  rw [hcommit]
  exact {
    actLC := fun i => (hact i).trans (ite_slot .rfl (fun i => decide (i.val < sh.lc.length)) _)
    actHC := fun i => (if_neg (hother i)).symm
    peak := (hbank 4).trans ((if_neg (by show 4 ≠ j.val; omega)).trans (if_neg (by show 1 + j.val ≠ 0; omega)).symm)
    lowCut := fun i => (hbank (lcSec i)).trans
      (ite_slot (p := i.val = j.val) Fin.val_inj (fun i' => sh.lc[i'.val]?.getD s.bank[lcSec i]) _)
    highCut := fun i => (hbank (hcSec i)).trans
      ((if_neg (by show 5 + i.val ≠ j.val; omega)).trans (if_neg (hother i)).symm) }

theorem commitHC_commitStep (s : State) (sh : Shadow) (j : Fin 4) :
    CommitStep s ⟨5 + j.val, by omega⟩ sh (s.commitHC sh j) := by
  obtain ⟨bank, act, hcommit, hact, hbank⟩ := commitHC_spec s sh j
  have hother (i : Fin 4) : 5 + j.val ≠ 1 + i.val := by omega
  rw [hcommit]
  exact {
    actLC := fun i => (if_neg (hother i)).symm
    actHC := fun i => (hact i).trans (ite_slot .rfl (fun i => decide (i.val < sh.hc.length)) _)
    peak := (hbank 4).trans
      ((if_neg (by show 4 ≠ 5 + j.val; omega)).trans (if_neg (by show 5 + j.val ≠ 0; omega)).symm)
    lowCut := fun i => (hbank (lcSec i)).trans
      ((if_neg (by show i.val ≠ 5 + j.val; omega)).trans (if_neg (hother i)).symm)
    highCut := fun i => (hbank (hcSec i)).trans
      (ite_slot (p := 5 + i.val = 5 + j.val) (by omega) (fun i' => sh.hc[i'.val]?.getD s.bank[hcSec i]) _) }

/-- Every step of the sequence installs its entry of the table; step 9 has none. -/
theorem commit_commitStep (s : State) (k : Fin 10) (sh : Shadow) : CommitStep s k sh (s.commit k sh) := by
  rcases commitIndex_cases k with rfl | ⟨j, rfl⟩ | ⟨j, rfl⟩ | rfl
  · exact commitPeak_commitStep s sh
  · rw [commit_eq_commitLC]
    exact commitLC_commitStep s sh j
  · rw [commit_eq_commitHC]
    exact commitHC_commitStep s sh j
  · exact ⟨fun i => (if_neg (by show 9 ≠ _; omega)).symm, fun i => (if_neg (by show 9 ≠ _; omega)).symm, rfl,
      fun i => (if_neg (by show 9 ≠ _; omega)).symm, fun i => (if_neg (by show 9 ≠ _; omega)).symm⟩

/-- Taking step `k` after the steps below `k`: what slot `c` is to get, it has once its own step is done. -/
theorem install_step {α : Type} {k c : Nat} (new : α → α) {old mid cur : α}
    (hmid : mid = if c < k then new old else old) (hcur : cur = if k = c then new mid else mid) :
    cur = if c < k + 1 then new old else old := by
  rcases lt_trichotomy c k with h | rfl | h
  · rw [hcur, hmid, if_pos h, if_neg h.ne', if_pos (by omega)]
  · rw [hcur, hmid, if_neg (lt_irrefl _), if_pos rfl, if_pos (by omega)]
  · rw [hcur, hmid, if_neg h.not_gt, if_neg h.ne, if_neg (by omega)]

/-- `u` is `s` after the steps below `k` of an UPDATE that commits `sh`, whatever its sequencer says. -/
structure Committed (s : State) (sh : Shadow) (k : Nat) (u : State) : Prop where
  frame : ∃ bank lc hc seq, u = { s with bank := bank, actLC := lc, actHC := hc, seq := seq }
  actLC : ∀ i : Fin 4, u.actLC[i] = if 1 + i.val < k then decide (i.val < sh.lc.length) else s.actLC[i]
  actHC : ∀ i : Fin 4, u.actHC[i] = if 5 + i.val < k then decide (i.val < sh.hc.length) else s.actHC[i]
  peak : u.bank[(4 : Fin 9)] = if 0 < k then sh.pk else s.bank[(4 : Fin 9)]
  lowCut : ∀ i : Fin 4, u.bank[lcSec i]
    = if 1 + i.val < k then sh.lc[i.val]?.getD s.bank[lcSec i] else s.bank[lcSec i]
  highCut : ∀ i : Fin 4, u.bank[hcSec i]
    = if 5 + i.val < k then sh.hc[i.val]?.getD s.bank[hcSec i] else s.bank[hcSec i]

theorem committed_zero (s : State) (sh : Shadow) : Committed s sh 0 s :=
  ⟨⟨_, _, _, _, rfl⟩, fun _ => rfl, fun _ => rfl, rfl, fun _ => rfl, fun _ => rfl⟩

theorem committed_inbox {s u : State} {sh : Shadow} {k : Nat} (h : Committed s sh k u) : u.inbox = s.inbox := by
  obtain ⟨_, _, _, _, rfl⟩ := h.frame
  rfl

theorem committed_succ {s u : State} {sh : Shadow} {k : Fin 10} (h : Committed s sh k u) (q : Seq) :
    Committed s sh (k + 1) { u.commit k sh with seq := q } := by
  have step := commit_commitStep u k sh
  refine ⟨?_, fun i => install_step (fun _ => _) (h.actLC i) (step.actLC i),
    fun i => install_step (fun _ => _) (h.actHC i) (step.actHC i),
    install_step (fun _ => _) h.peak step.peak,
    fun i => install_step (sh.lc[i.val]?.getD ·) (h.lowCut i) (step.lowCut i),
    fun i => install_step (sh.hc[i.val]?.getD ·) (h.highCut i) (step.highCut i)⟩
  obtain ⟨_, _, _, _, hu⟩ := h.frame
  obtain ⟨_, _, _, hc⟩ := commit_frame u k sh
  rw [hc, hu]
  exact ⟨_, _, _, _, rfl⟩

/-! ### Runs on the empty inbox -/

/-- With nothing to come, a step is the sequencer's (log 8). -/
theorem step_emptyInbox {s : State} (h : s.inbox = []) : step s = .next (s.sequencerStep Config.libm) := by
  simp only [step, h]

/-- An idle block with nothing to come stays as it is. -/
theorem run_idle {s : State} (hinbox : s.inbox = []) (hseq : s.seq = .idle) (n : Nat) : core.run n s = .next s := by
  induction n with
  | zero => rfl
  | succ n ih =>
    have hstep : step s = .next s := by rw [step_emptyInbox hinbox, sequencerStep_idle _ hseq]
    rw [run_of_step hstep, ih]

/-- The first `k` steps of an UPDATE commit the first `k` entries of the table. -/
theorem run_committed {s : State} {sh : Shadow} {f : Word} (hinbox : s.inbox = []) (hseq : s.seq = .upd 0 sh f)
    (k : Nat) (hk : k < 10) :
    ∃ u, core.run k s = .next u ∧ u.seq = .upd ⟨k, hk⟩ sh f ∧ Committed s sh k u := by
  induction k with
  | zero => exact ⟨s, rfl, hseq, committed_zero s sh⟩
  | succ k ih =>
    obtain ⟨u, hrun, hu, hc⟩ := ih (by omega)
    have hstep := step_emptyInbox ((committed_inbox hc).trans hinbox)
    rw [sequencerStep_upd _ hu, updateStep_lt u sh f (by show k < 9; omega)] at hstep
    exact ⟨_, run_then_step hrun hstep, rfl, committed_succ (k := ⟨k, by omega⟩) hc _⟩

/-- Ten steps complete an UPDATE: the whole table, then done (R199). -/
theorem run_update {s : State} {sh : Shadow} {f : Word} (hinbox : s.inbox = []) (hseq : s.seq = .upd 0 sh f) :
    ∃ u, core.run 10 s = .next (u.finishUpdate f) ∧ Committed s sh 9 u := by
  obtain ⟨u, hrun, hu, hc⟩ := run_committed hinbox hseq 9 (by omega)
  have hstep := step_emptyInbox ((committed_inbox hc).trans hinbox)
  rw [sequencerStep_upd _ hu] at hstep
  exact ⟨u, run_then_step hrun hstep, hc⟩

end Sys2Proof.Machine
end

section
/-! PROOF. What the accept parts of UPDATE and MAG may start: a legal shadow at a valid rate, or a finite frequency
(40_design.md R155, 42_update.md R190 to R193, 43_magnitude.md R220). -/

namespace Sys2Proof

/-- A value that was rounded once is kept by rounding again. -/
theorem round_round {f : Fmt} (hF : 1 ≤ f.fracBits) (v : FVal) : (v.round f).round f = v.round f := by
  cases v with
  | nan => rfl
  | inf n => rfl
  | fin n m e => exact round_value hF n _

namespace Machine

/-- The words of a stored set are finite exactly when its values are. -/
theorem isFinite_words_stored (b0 b1 b2 a1 a2 : FVal) :
    (CoefVals.stored b0 b1 b2 a1 a2).words.isFinite = (CoefVals.stored b0 b1 b2 a1 a2).isFinite := by
  simp only [CoefSet.isFinite, CoefVals.words, CoefVals.stored, CoefVals.isFinite, isFinite32_drawn,
    round_round (show 1 ≤ b32.fracBits by decide)]

/-- The sets of a finite cut design are finite as words, for a section formula that stores what it computes. -/
theorem isFinite_words_cutDesign {lm : Libm} {section1 : Libm → FVal → FVal → FVal → CoefVals} {f fs : FVal}
    {n : BitVec 2} (hstored : ∀ q, (section1 lm f fs q).words.isFinite = (section1 lm f fs q).isFinite)
    (hfin : (cutDesign lm section1 f fs n).all CoefVals.isFinite = true) :
    ∀ c ∈ (cutDesign lm section1 f fs n).map CoefVals.words, c.isFinite = true := by
  intro c hc
  obtain ⟨v, hv, rfl⟩ := List.mem_map.1 hc
  obtain ⟨q, rfl⟩ := mem_cutDesign hv
  rw [hstored]
  exact List.all_eq_true.1 hfin _ hv

/-- R155, R157: an accepted design is a legal shadow. -/
theorem design_shadow_legal {lm : Libm} {snap : Snapshot} (h : (design lm snap).ok = true) :
    (design lm snap).shadow.legal := by
  simp only [design, Bool.and_eq_true] at h
  obtain ⟨⟨hpk, hlc⟩, hhc⟩ := h
  have := snap.nl.isLt
  have := snap.nh.isLt
  refine ⟨(isFinite_words_stored ..).trans hpk,
    isFinite_words_cutDesign (fun _ => isFinite_words_stored ..) hlc,
    isFinite_words_cutDesign (fun _ => isFinite_words_stored ..) hhc, ?_⟩
  simp only [design, Design.shadow, List.length_map, length_cutDesign]
  omega

/-- R150: as many sections in each cut stage as the slope index says, plus one. -/
theorem length_shadow_lc (lm : Libm) (snap : Snapshot) :
    (design lm snap).shadow.lc.length = snap.nl.toNat + 1 := by
  simp [design, Design.shadow]

theorem length_shadow_hc (lm : Libm) (snap : Snapshot) :
    (design lm snap).shadow.hc.length = snap.nh.toNat + 1 := by
  simp [design, Design.shadow]

/-- R191: an UPDATE at an invalid rate. -/
theorem acceptUpdate_invalidRate {s : State} (lm : Libm) (hfs : fsValid s.fs = false) :
    s.acceptUpdate lm = s.raise .errFs := by
  simp [State.acceptUpdate, hfs]

/-- R193: an accepted design goes to the sequencer and nothing is installed yet. -/
theorem acceptUpdate_accepted {s : State} {lm : Libm} (hfs : fsValid s.fs = true)
    (hok : (design lm s.snapshot).ok = true) :
    ∃ k, s.acceptUpdate lm = { s with sticky := k, seq := .upd 0 (design lm s.snapshot).shadow s.fs } := by
  obtain ⟨k1, h1, -⟩ := raiseIf_spec s (design lm s.snapshot).clampF .clampF
  obtain ⟨k2, h2, -⟩ := raiseIf_spec { s with sticky := k1 } (design lm s.snapshot).clampQ .clampQ
  exact ⟨k2, by simp only [State.acceptUpdate, hfs, hok, if_true, h1, h2]⟩

/-- R192: a rejected design raises flags, ERR_COEF among them, and changes nothing else. -/
theorem acceptUpdate_rejected {s : State} {lm : Libm} (hfs : fsValid s.fs = true)
    (hok : (design lm s.snapshot).ok = false) :
    ∃ k : BitVec 8, s.acceptUpdate lm = { s with sticky := k } ∧ k[3] = true := by
  obtain ⟨k1, h1, -⟩ := raiseIf_spec s (design lm s.snapshot).clampF .clampF
  obtain ⟨k2, h2, -⟩ := raiseIf_spec { s with sticky := k1 } (design lm s.snapshot).clampQ .clampQ
  refine ⟨raiseBit .errCoef k2, ?_, ?_⟩
  · simp only [State.acceptUpdate, hfs, hok, if_true, h1, h2]
    rfl
  · have h := raiseBit_getElem .errCoef k2 3
    simpa [ErrBit.index] using h

/-- What MAG starts: nothing, or a completion step for a finite frequency and a valid rate. -/
theorem acceptMag_seq (s : State) :
    s.acceptMag.seq = s.seq
      ∨ s.acceptMag.seq = .mag s.magFreq s.fs s.ctrlBits ∧ isFinite32 s.magFreq = true ∧ fsValid s.fs = true := by
  obtain ⟨k1, h1, -⟩ := raiseIf_spec s (!fsValid s.fs) .errFs
  obtain ⟨k2, h2, -⟩ := raiseIf_spec { s with sticky := k1 } (!isFinite32 s.magFreq) .errArg
  simp only [State.acceptMag, h1, h2, Bool.and_eq_true]
  split
  · rename_i hvalid
    exact .inr ⟨rfl, hvalid.2, hvalid.1⟩
  · exact .inl rfl

end Machine

end Sys2Proof
end

section
/-! PROOF. The invariant: the state after reset meets it, and every event keeps it (10_state.md R60, 44_control.md
R253, 42_update.md R192). -/

namespace Sys2Proof.Machine

open Sys2Proof

/-! ### The sequencer's promise, by its state -/

theorem seqInv_idle {s : State} (h : s.seq = .idle) : seqInv s ↔ shapeSettled s := by
  simp [seqInv, h]

theorem seqInv_mag {s : State} {f r : Word} {c : BitVec 3} (h : s.seq = .mag f r c) :
    seqInv s ↔ shapeSettled s ∧ isFinite32 f = true ∧ fsValid r = true := by
  simp [seqInv, h]

theorem seqInv_upd {s : State} {k : Fin 10} {sh : Shadow} {f : Word} (h : s.seq = .upd k sh f) :
    seqInv s ↔ sh.legal ∧ fsValid f = true ∧ (∃ n < 4, activeMix s.actLC (k.val - 1) sh.lc.length n)
      ∧ ∃ n < 4, activeMix s.actHC (k.val - 5) sh.hc.length n := by
  simp only [seqInv, h]

/-! ### The act flags of a stage through an UPDATE -/

/-- Before the first commit of a stage its flags show the old shape. -/
theorem activeMix_zero {act : Vector Bool 4} {m n : Nat} (h : activePrefix act n) : activeMix act 0 m n := by
  intro k
  rw [if_neg (Nat.not_lt_zero _)]
  exact h k

/-- The step of slot `k − c` of a stage, and every step of the other stage, keeps the mix. -/
theorem activeMix_succ {act act' : Vector Bool 4} {k c m n : Nat} (h : activeMix act (k - c) m n)
    (hstep : ∀ i : Fin 4, act'[i] = if k = c + i.val then decide (i.val < m) else act[i]) :
    activeMix act' (k + 1 - c) m n := by
  intro i
  rw [hstep, h]
  split_ifs <;> first | rfl | omega

/-- A stage all of whose slots are committed shows the shape of their number. -/
theorem activePrefix_of_lt {act : Vector Bool 4} {m n : Nat} (hm : m = n + 1)
    (h : ∀ i : Fin 4, act[i] = decide (i.val < m)) : activePrefix act n := by
  intro i
  rw [h, hm, decide_eq_decide]
  omega

/-- After the last commit of a stage its flags show the new shape. -/
theorem activePrefix_of_activeMix {act : Vector Bool 4} {c m n : Nat} (hc : 4 ≤ c) (h1 : 1 ≤ m) (h4 : m ≤ 4)
    (h : activeMix act c m n) : ∃ n' < 4, activePrefix act n' :=
  ⟨m - 1, by omega, activePrefix_of_lt (by omega) fun k => (h k).trans (if_pos (by omega))⟩

/-! ### Every operation keeps the invariant -/

/-- The invariant speaks of six fields only. -/
theorem Inv.congr {s t : State} (h : Inv s) (hctrl : t.ctrl = s.ctrl) (hslope : t.slope = s.slope)
    (hbank : t.bank = s.bank) (hlc : t.actLC = s.actLC) (hhc : t.actHC = s.actHC) (hseq : t.seq = s.seq) :
    Inv t := by
  refine ⟨hctrl ▸ h.ctrlReserved, hslope ▸ h.slopeReserved, hbank ▸ h.bankFinite, ?_⟩
  simpa only [seqInv, shapeSettled, hlc, hhc, hseq] using h.seq

theorem Inv.shape {s : State} (h : Inv s) (hidle : s.seq = .idle) : shapeSettled s := (seqInv_idle hidle).1 h.seq

theorem inv_reset : Inv State.reset where
  ctrlReserved := by decide
  slopeReserved := by decide
  bankFinite sec := by
    have hidentity : CoefSet.identity.isFinite = true := by decide +kernel
    rw [show State.reset.bank[sec] = CoefSet.identity from Vector.getElem_replicate sec.isLt]
    exact hidentity
  seq := (seqInv_idle rfl).2
    ⟨⟨0, by decide, by unfold activePrefix; decide⟩, 0, by decide, by unfold activePrefix; decide⟩

theorem Inv.raise {s : State} (h : Inv s) (e : ErrBit) : Inv (s.raise e) := h.congr rfl rfl rfl rfl rfl rfl

theorem Inv.acceptUpdate {s : State} (h : Inv s) (hidle : s.seq = .idle) (lm : Libm) : Inv (s.acceptUpdate lm) := by
  cases hfs : fsValid s.fs with
  | false =>
    rw [acceptUpdate_invalidRate lm hfs]
    exact h.raise .errFs
  | true =>
    cases hok : (design lm s.snapshot).ok with
    | false =>
      obtain ⟨k, hk, -⟩ := acceptUpdate_rejected hfs hok
      rw [hk]
      exact h.congr rfl rfl rfl rfl rfl rfl
    | true =>
      obtain ⟨k, hk⟩ := acceptUpdate_accepted hfs hok
      obtain ⟨⟨n, hn, hlc⟩, n', hn', hhc⟩ := h.shape hidle
      rw [hk]
      exact ⟨h.ctrlReserved, h.slopeReserved, h.bankFinite, (seqInv_upd (k := 0) rfl).2
        ⟨design_shadow_legal hok, hfs, ⟨n, hn, activeMix_zero hlc⟩, n', hn', activeMix_zero hhc⟩⟩

theorem Inv.acceptMag {s : State} (h : Inv s) (hidle : s.seq = .idle) : Inv s.acceptMag := by
  have hstart := acceptMag_seq s
  obtain ⟨k, q, hk, -⟩ := acceptMag_frame s
  rw [hk] at hstart ⊢
  rcases hstart with hq | ⟨hq, hf, hfs⟩
  · exact h.congr rfl rfl rfl rfl rfl hq
  · exact ⟨h.ctrlReserved, h.slopeReserved, h.bankFinite, (seqInv_mag hq).2 ⟨h.shape hidle, hf, hfs⟩⟩

theorem Inv.whenIdle {s : State} (h : Inv s) {accept : State → State} (haccept : s.seq = .idle → Inv (accept s)) :
    Inv (s.whenIdle accept) := by
  by_cases hidle : s.seq = .idle
  · rw [whenIdle_idle accept hidle]
    exact haccept hidle
  · rw [whenIdle_busy accept hidle]
    exact h.raise .errBusy

theorem Inv.runCommand {s : State} (h : Inv s) (lm : Libm) (c : Command) : Inv (s.runCommand lm c) := by
  cases c with
  | nop => exact h
  | update => exact h.whenIdle (accept := fun s => s.acceptUpdate lm) fun hidle => h.acceptUpdate hidle lm
  | mag => exact h.whenIdle h.acceptMag
  | clear => exact h.whenIdle fun _ => h.congr rfl rfl rfl rfl rfl rfl

theorem Inv.deliver {s : State} (h : Inv s) (lm : Libm) (v : Word) : Inv (s.deliver lm v) := by
  unfold State.deliver
  split
  · exact h.raise .errCmd
  · exact h.runCommand lm _

theorem Inv.storeCtrl {s : State} (h : Inv s) (v : Word) : Inv (s.storeCtrl v) where
  ctrlReserved := by simp [BitVec.and_assoc]
  slopeReserved := h.slopeReserved
  bankFinite := h.bankFinite
  seq := h.seq

theorem Inv.storeSetting {s : State} (h : Inv s) (r : Setting) (v : Word) : Inv (s.storeSetting r v) := by
  cases r with
  | slope => exact ⟨h.ctrlReserved, by simp [State.storeSetting, BitVec.and_assoc], h.bankFinite, h.seq⟩
  | _ => exact h.congr rfl rfl rfl rfl rfl rfl

theorem Inv.write {s : State} (h : Inv s) (lm : Libm) (p : Place) (v : Word) : Inv (s.write lm p v) := by
  cases p with
  | setting r => exact h.storeSetting r v
  | ctrl => exact h.storeCtrl v
  | cmd => exact h.deliver lm v
  | misaligned => exact h.raise .errAddr
  | unmapped => exact h.raise .errAddr
  | _ => exact h.congr rfl rfl rfl rfl rfl rfl

theorem Inv.exec {i : Instr} {s t : State} (h : Inv s) (ht : exec i s = .next t) : Inv t := by
  have command (c : Command) (hc : Machine.exec c.instr s = .next t) : Inv t := by
    rw [exec_command] at hc
    cases hc
    exact h.runCommand Config.libm c
  cases i with
  | rd a =>
    cases ht
    obtain ⟨k, c, hread, -⟩ := read_frame s Config.ftz (placeOf a)
    rw [hread]
    exact h.congr rfl rfl rfl rfl rfl rfl
  | wr a v =>
    cases ht
    exact h.write Config.libm (placeOf a) v
  | proc x =>
    cases ht
    exact h.congr rfl rfl rfl rfl rfl rfl
  | nop => exact command .nop ht
  | update => exact command .update ht
  | mag => exact command .mag ht
  | clear => exact command .clear ht

/-! ### The sequencer's steps -/

/-- What may come out of a list of finite sets, or stay, is finite. -/
theorem isFinite_getD {l : List CoefSet} {c : CoefSet} (hl : ∀ d ∈ l, d.isFinite = true) (hc : c.isFinite = true)
    (i : Nat) : (l[i]?.getD c).isFinite = true := by
  cases h : l[i]? with
  | none => exact hc
  | some d => exact hl d (List.mem_of_getElem? h)

/-- R192: a commit step puts finite sets into a finite bank. -/
theorem CommitStep.bankFinite {s t : State} {k : Fin 10} {sh : Shadow} (h : CommitStep s k sh t)
    (hs : ∀ sec : Fin 9, s.bank[sec].isFinite = true) (hsh : sh.legal) (sec : Fin 9) :
    t.bank[sec].isFinite = true := by
  obtain ⟨hpk, hlc, hhc, -⟩ := hsh
  rcases section_cases sec with rfl | ⟨i, rfl⟩ | ⟨i, rfl⟩
  · rw [h.peak]
    split
    · exact hpk
    · exact hs 4
  · rw [h.lowCut]
    split
    · exact isFinite_getD hlc (hs _) _
    · exact hs _
  · rw [h.highCut]
    split
    · exact isFinite_getD hhc (hs _) _
    · exact hs _

theorem Inv.commit {s : State} {k : Fin 10} {sh : Shadow} {f : Word} (h : Inv s) (hseq : s.seq = .upd k sh f)
    (hk : k.val < 9) : Inv { s.commit k sh with seq := .upd ⟨k.val + 1, by omega⟩ sh f } := by
  obtain ⟨hlegal, hfs, ⟨n, hn, hlc⟩, n', hn', hhc⟩ := (seqInv_upd hseq).1 h.seq
  have step := commit_commitStep s k sh
  obtain ⟨bank, lc, hc, hcommit⟩ := commit_frame s k sh
  rw [hcommit] at step ⊢
  exact ⟨h.ctrlReserved, h.slopeReserved, step.bankFinite h.bankFinite hlegal, (seqInv_upd rfl).2
    ⟨hlegal, hfs, ⟨n, hn, activeMix_succ hlc step.actLC⟩, n', hn', activeMix_succ hhc step.actHC⟩⟩

theorem Inv.finishUpdate {s : State} {sh : Shadow} {f : Word} (h : Inv s) (hseq : s.seq = .upd 9 sh f) :
    Inv (s.finishUpdate f) := by
  obtain ⟨⟨-, -, -, hlc1, hlc4, hhc1, hhc4⟩, -, ⟨n, -, hlc⟩, n', -, hhc⟩ := (seqInv_upd hseq).1 h.seq
  exact ⟨h.ctrlReserved, h.slopeReserved, h.bankFinite, (seqInv_idle rfl).2
    ⟨activePrefix_of_activeMix (by decide) hlc1 hlc4 hlc, activePrefix_of_activeMix (by decide) hhc1 hhc4 hhc⟩⟩

theorem Inv.finishMag {s : State} {f r : Word} {c : BitVec 3} (h : Inv s) (hseq : s.seq = .mag f r c) (lm : Libm) :
    Inv (s.finishMag lm f r c) :=
  ⟨h.ctrlReserved, h.slopeReserved, h.bankFinite, (seqInv_idle rfl).2 ((seqInv_mag hseq).1 h.seq).1⟩

theorem Inv.sequencerStep {s : State} (h : Inv s) (lm : Libm) : Inv (s.sequencerStep lm) := by
  rcases sequencerStep_cases s lm with ⟨-, ht⟩ | ⟨k, sh, f, hk, hseq, ht⟩ | ⟨sh, f, hseq, ht⟩ | ⟨f, r, c, hseq, ht⟩
  · rw [ht]
    exact h
  · rw [ht]
    exact h.commit hseq hk
  · rw [ht]
    exact h.finishUpdate hseq
  · rw [ht]
    exact h.finishMag hseq lm

/-- Settles O11: the filter after reset is nine identity sets, one active slot in each cut stage. -/
theorem resetStateMeetsTheInvariant : Obligations.ResetStateMeetsTheInvariant := inv_reset

/-- Settles O12, by the kind of event: a sequencer step by what it commits, a reset, or an instruction. -/
theorem everyStepKeepsTheInvariant : Obligations.EveryStepKeepsTheInvariant := by
  intro s t h hstep
  have taken (rest : List Event) : Inv (s.withInbox rest) := h.congr rfl rfl rfl rfl rfl rfl
  rcases step_cases hstep with ⟨rest, -, rfl⟩ | ⟨rest, -, rfl⟩ | ⟨p, rest, i, -, -, hexec⟩
  · exact (taken rest).sequencerStep Config.libm
  · exact inv_reset.congr rfl rfl rfl rfl rfl rfl
  · exact (taken rest).exec hexec

end Sys2Proof.Machine
end

section
/-! PROOF. Reads through the control port (44_control.md R251, 10_state.md R33 to R36, R54, R57). -/

namespace Sys2Proof.Machine

open Sys2Proof

/-- A RD of a place whose read has no side effect in this state returns the place's word and does nothing else. -/
theorem readsAs_readValue {s : State} {a : Addr} {p : Place} (hplace : placeOf a = p) (heffect : s.readEffect p = s) :
    readsAs s a (s.readValue Config.ftz p) := by
  show Host.Outcome.next ((s.readEffect (placeOf a)).respond (.word (s.readValue Config.ftz (placeOf a)))) = _
  rw [hplace, heffect]
  rfl

/-- R35: PARAM is 4 slots, one channel, and FTZ in bit 8. -/
theorem paramWord_eq (ftz : Bool) : paramWord ftz = if ftz then 0x00000104#32 else 0x00000004#32 := by
  cases ftz <;> rfl

/-- The addresses of the COEF window (R54). -/
theorem placeOf_coef (sec : Fin 9) (c : Fin 8) :
    placeOf (BitVec.ofNat 12 (0x100 + 0x20 * sec.val + 4 * c.val)) = .coef sec c := by
  unfold placeOf
  rw [BitVec.toNat_ofNat, Nat.mod_eq_of_lt (by omega), placeAt_coef]

/-- The addresses of the STATE window (R57). -/
theorem placeOf_delay (sec : Fin 9) (j : Fin 2) :
    placeOf (BitVec.ofNat 12 (0x300 + 8 * sec.val + 4 * j.val)) = .delay sec j := by
  unfold placeOf
  rw [BitVec.toNat_ofNat, Nat.mod_eq_of_lt (by omega), placeAt_delay]

/-- Settles O13, register by register of the map. -/
theorem readsOfConstantsAndStoredRegisters : Obligations.ReadsOfConstantsAndStoredRegisters := by
  intro s
  rw [← paramWord_eq]
  exact ⟨readsAs_readValue (p := .id) rfl rfl, readsAs_readValue (p := .version) rfl rfl,
    readsAs_readValue (p := .param) rfl rfl, readsAs_readValue (p := .ctrl) rfl rfl,
    readsAs_readValue (p := .setting .lcFreq) rfl rfl, readsAs_readValue (p := .setting .hcFreq) rfl rfl,
    readsAs_readValue (p := .setting .pkFreq) rfl rfl, readsAs_readValue (p := .setting .pkGain) rfl rfl,
    readsAs_readValue (p := .setting .pkQ) rfl rfl, readsAs_readValue (p := .setting .slope) rfl rfl,
    readsAs_readValue (p := .setting .fs) rfl rfl, readsAs_readValue (p := .magFreq) rfl rfl,
    readsAs_readValue (p := .magResult) rfl rfl, readsAs_readValue (p := .gen) rfl rfl,
    readsAs_readValue (p := .activeFs) rfl rfl⟩

/-- Settles O15: word `c` of a section's set, and word `j` of its delay state, at their addresses. -/
theorem readsOfTheWindows : Obligations.ReadsOfTheWindows := by
  intro s sec
  have coef (c : Fin 8) :
      readsAs s (BitVec.ofNat 12 (0x100 + 0x20 * sec.val + 4 * c.val)) (s.bank[sec].word c) :=
    readsAs_readValue (placeOf_coef sec c) rfl
  have delay (j : Fin 2) :
      readsAs s (BitVec.ofNat 12 (0x300 + 8 * sec.val + 4 * j.val)) (s.delay[sec].word j) :=
    readsAs_readValue (placeOf_delay sec j) rfl
  exact ⟨coef 0, coef 1, coef 2, coef 3, coef 4, coef 5, coef 6, coef 7, delay 0, delay 1⟩

/-- Settles O10: the constants and registers read what reset puts there; the read of CHG_TAKE clears a flag that is
0 already. -/
theorem registersReadTheirResetValues : Obligations.RegistersReadTheirResetValues := by
  obtain ⟨-, -, -, ctrl, lcFreq, hcFreq, pkFreq, pkGain, pkQ, slope, fs, magFreq, magResult, gen, activeFs⟩ :=
    readsOfConstantsAndStoredRegisters State.reset
  exact ⟨ctrl, lcFreq, hcFreq, pkFreq, pkGain, pkQ, slope, fs, readsAs_readValue (p := .cmd) rfl rfl,
    readsAs_readValue (p := .status) rfl rfl, readsAs_readValue (p := .chgTake) rfl rfl, magFreq, magResult, gen,
    activeFs, readsAs_readValue (p := .secAct) rfl rfl⟩

end Sys2Proof.Machine
end

section
/-! PROOF. One UPDATE run from its command, and who writes CHG (42_update.md R190 to R199, 10_state.md R58). -/

namespace Sys2Proof.Machine

open Sys2Proof

/-- A transaction that is next is run, the inbox going on behind it (20_memory.md R89). -/
theorem step_port {s : State} {p : Packet} {rest : List Event} {i : Instr} (hinbox : s.inbox = .port p :: rest)
    (hdecode : decode p = .ok i) : step s = exec i (s.withInbox rest) := by
  simp only [step, hinbox, hdecode]

/-- The command UPDATE on an idle block is its accept part. -/
theorem exec_update_idle {s : State} (hidle : s.seq = .idle) :
    exec .update s = .next (s.acceptUpdate Config.libm) :=
  congrArg Host.Outcome.next (whenIdle_idle (fun s => s.acceptUpdate Config.libm) hidle)

/-- Settles O36: the command's step, then the ten steps of an accepted design, or ten steps of an idle block. -/
theorem updateCommandInstallsSlopePlusOneSections : Obligations.UpdateCommandInstallsSlopePlusOneSections := by
  intro s hinbox hidle hfs
  have hstep : step s = .next ((s.withInbox []).acceptUpdate Config.libm) :=
    (step_port hinbox rfl).trans (exec_update_idle hidle)
  cases hok : (design Config.libm s.snapshot).ok with
  | true =>
    obtain ⟨k, hk⟩ := acceptUpdate_accepted (s := s.withInbox []) hfs hok
    rw [hk] at hstep
    obtain ⟨u, hrun, hc⟩ := run_update
      (s := { s.withInbox [] with sticky := k, seq := .upd 0 (design Config.libm s.snapshot).shadow s.fs }) rfl rfl
    have hlc := activePrefix_of_lt (length_shadow_lc ..) fun i => (hc.actLC i).trans (if_pos (by omega))
    have hhc := activePrefix_of_lt (length_shadow_hc ..) fun i => (hc.actHC i).trans (if_pos (by omega))
    have hpeak := hc.peak.trans (if_pos (by decide))
    obtain ⟨bank, lc, hcut, seq, rfl⟩ := hc.frame
    exact ⟨_, (run_of_step hstep 10).trans hrun, rfl, rfl, hlc, hhc, hpeak, rfl, rfl⟩
  | false =>
    obtain ⟨k, hk, hbit⟩ := acceptUpdate_rejected (s := s.withInbox []) hfs hok
    rw [hk] at hstep
    have hrun := run_idle (s := { s.withInbox [] with sticky := k }) rfl hidle 10
    exact ⟨_, (run_of_step hstep 10).trans hrun, hidle, rfl, rfl, rfl, rfl, rfl, rfl, hbit⟩

/-! ### CHG -/

@[simp] theorem sequencerStep_chg (s : State) (lm : Libm) : (s.sequencerStep lm).chg = s.chg := by
  rcases sequencerStep_cases s lm with ⟨-, ht⟩ | ⟨k, sh, f, hk, -, ht⟩ | ⟨sh, f, -, ht⟩ | ⟨f, r, c, -, ht⟩
  · rw [ht]
  · obtain ⟨bank, lc, hc, hcommit⟩ := commit_frame s k sh
    rw [ht, hcommit]
  · rw [ht, State.finishUpdate_chg]
  · rw [ht, State.finishMag_chg]

theorem runCommand_chg (s : State) (lm : Libm) (c : Command) : (s.runCommand lm c).chg = s.chg := by
  obtain ⟨k, q, d, h, -⟩ := runCommand_frame s lm c
  rw [h]

/-- R58: what an instruction does to CHG. -/
theorem exec_chg {i : Instr} {s t : State} (h : exec i s = .next t) :
    t.chg = s.chg ∨ (∃ a v, i = .wr a v ∧ a ∈ settingAddresses ∧ t.chg = true)
      ∨ i = .rd 0x034#12 ∧ t.chg = false := by
  have command (c : Command) (hc : exec c.instr s = .next t) : t.chg = s.chg := by
    rw [exec_command] at hc
    cases hc
    exact runCommand_chg s Config.libm c
  cases i with
  | rd a =>
    cases h
    obtain ⟨k, c, hread, -, hc⟩ := read_frame s Config.ftz (placeOf a)
    rw [hread]
    rcases hc with hc | ⟨hplace, hc⟩
    · exact .inl hc
    · exact .inr (.inr ⟨by rw [placeOf_eq_chgTake hplace], hc⟩)
  | wr a v =>
    cases h
    have w := write_frame s Config.libm (placeOf a) v
    by_cases hplace : ∃ r, placeOf a = .setting r
    · obtain ⟨r, hr⟩ := hplace
      exact .inr (.inl ⟨a, v, rfl, placeOf_eq_setting hr, w.chgSet r hr⟩)
    · exact .inl (w.chgKept fun r hr => hplace ⟨r, hr⟩)
  | proc x =>
    cases h
    exact .inl rfl
  | nop => exact .inl (command .nop h)
  | update => exact .inl (command .update h)
  | mag => exact .inl (command .mag h)
  | clear => exact .inl (command .clear h)

/-- R242: a WR to a settings register always sets CHG. -/
theorem exec_wr_setting_chg {a : Addr} {v : Word} {s t : State} (ha : a ∈ settingAddresses)
    (h : exec (.wr a v) s = .next t) : t.chg = true := by
  cases h
  obtain ⟨r, hr⟩ := placeOf_setting_of_mem ha
  exact (write_frame s Config.libm (placeOf a) v).chgSet r hr

/-- A step that changes CHG is a reset or an instruction that does. -/
theorem step_chg {s t : State} (h : step s = .next t) :
    t.chg = s.chg ∨ (resetNext s ∧ t.chg = false)
      ∨ (∃ a v, a ∈ settingAddresses ∧ instrNext s (.wr a v) ∧ t.chg = true)
      ∨ instrNext s (.rd 0x034#12) ∧ t.chg = false := by
  rcases step_cases h with ⟨rest, -, rfl⟩ | ⟨rest, hnext, rfl⟩ | ⟨p, rest, i, hinbox, hdecode, hexec⟩
  · exact .inl (sequencerStep_chg _ _)
  · exact .inr (.inl ⟨⟨rest, hnext⟩, rfl⟩)
  · rcases exec_chg hexec with hc | ⟨a, v, rfl, ha, hc⟩ | ⟨rfl, hc⟩
    · exact .inl hc
    · exact .inr (.inr (.inl ⟨a, v, ha, ⟨p, rest, hinbox, hdecode⟩, hc⟩))
    · exact .inr (.inr (.inr ⟨⟨p, rest, hinbox, hdecode⟩, hc⟩))

/-- Settles O48, from what a step can do to CHG. -/
theorem onlySettingsWritesSetChg : Obligations.OnlySettingsWritesSetChg := by
  intro s t h
  refine ⟨fun hs ht => ?_, fun hs ht => ?_, fun a v ha hnext => ?_⟩
  · rcases step_chg h with hc | ⟨-, hc⟩ | ⟨a, v, ha, hnext, -⟩ | ⟨-, hc⟩
    · simp [hc, hs] at ht
    · simp [hc] at ht
    · exact ⟨a, v, ha, hnext⟩
    · simp [hc] at ht
  · rcases step_chg h with hc | ⟨hnext, -⟩ | ⟨a, v, -, -, hc⟩ | ⟨hnext, -⟩
    · simp [hc, hs] at ht
    · exact .inl hnext
    · simp [hc] at ht
    · exact .inr hnext
  · obtain ⟨p, rest, hinbox, hdecode⟩ := hnext
    rw [step_port hinbox hdecode] at h
    exact exec_wr_setting_chg ha h

end Sys2Proof.Machine
end

section
/-! PROOF. What a RD and a WR leave alone (20_memory.md R88, R91, 44_control.md R255). -/

namespace Sys2Proof.Machine

open Sys2Proof

/-- R88: only a bad address and CHG_TAKE have a read side effect. -/
theorem readEffect_eq_self (s : State) {p : Place} (hmisaligned : p ≠ .misaligned) (hunmapped : p ≠ .unmapped)
    (hchgTake : p ≠ .chgTake) : s.readEffect p = s := by
  cases p with
  | misaligned => exact absurd rfl hmisaligned
  | unmapped => exact absurd rfl hunmapped
  | chgTake => exact absurd rfl hchgTake
  | _ => rfl

/-- Settles O19: an address that is not bad is a mapped word, and CHG_TAKE is at its own address only. -/
theorem onlyChgTakeHasAReadSideEffect : Obligations.OnlyChgTakeHasAReadSideEffect := by
  intro s a hmapped hother
  have hmisaligned : placeOf a ≠ .misaligned := fun h => hmapped ((badAddress_iff a).2 (.inl h))
  have hunmapped : placeOf a ≠ .unmapped := fun h => hmapped ((badAddress_iff a).2 (.inr h))
  have hchgTake : placeOf a ≠ .chgTake := fun h => hother (placeOf_eq_chgTake h)
  exact ⟨_, readsAs_readValue rfl (readEffect_eq_self s hmisaligned hunmapped hchgTake)⟩

/-- A WR changes the delay state only as an accepted CLEAR, whose word is 3 (R249). -/
theorem exec_wr_delay {a : Addr} {v : Word} {s t : State} (h : exec (.wr a v) s = .next t) :
    t.delay = s.delay
      ∨ a = cmdAddr ∧ v = 0x00000003#32 ∧ s.seq = .idle ∧ t.delay = Vector.replicate 9 Delay.zero := by
  cases h
  refine (write_frame s Config.libm (placeOf a) v).delay.imp_right ?_
  rintro ⟨hplace, hclear, hidle, hdelay⟩
  exact ⟨placeOf_eq_cmd hplace, (decodeCommand_eq_ok v .clear).1 hclear, hidle, hdelay⟩

/-- Settles O25: the frame of a WR, and what it can do to the delay state. -/
theorem writesNeverReachTheFilter : Obligations.WritesNeverReachTheFilter := by
  intro s t a v h
  have hdelay : t.delay = s.delay ∨ (a = cmdAddr ∧ v = 0x00000003#32 ∧ s.seq = .idle
      ∧ ∀ sec : Fin 9, t.delay[sec] = ⟨0#32, 0#32⟩) := by
    refine (exec_wr_delay h).imp_right ?_
    rintro ⟨ha, hv, hidle, hzero⟩
    exact ⟨ha, hv, hidle, fun sec => by rw [hzero]; exact Vector.getElem_replicate sec.isLt⟩
  cases h
  have w := write_frame s Config.libm (placeOf a) v
  exact ⟨w.bank, w.actLC, w.actHC, w.gen, w.activeFs, w.magResult, w.outbox, w.inbox, hdelay⟩

end Sys2Proof.Machine
end

section
/-! PROOF. What each kind of event does in a step, and who writes the filter, the results and the delay state
(20_memory.md R89, R91). -/

namespace Sys2Proof.Machine

open Sys2Proof

/-- A reset that is next happens, the inbox going on behind it. -/
theorem step_reset {s : State} {rest : List Event} (hinbox : s.inbox = .reset :: rest) :
    step s = .next (s.withInbox rest).resetEvent := by
  simp only [step, hinbox]

theorem decode_of_decodeTableWord {nbits w : Nat} {i : Instr} (h : decodeTableWord nbits w = some i) :
    decode (packetOf nbits w) = .ok i := by
  unfold decodeTableWord at h
  split at h
  · next hdecode =>
    cases h
    exact hdecode
  · cases h

/-- Settles O6: taking the word that `withFetchWord` placed gives the original state back. -/
theorem stepRunsTheDecodedInstruction : Obligations.StepRunsTheDecodedInstruction :=
  ⟨fun _ _ _ _ => step_port,
    fun s nbits w _ h => step_port (s := s.withFetchWord nbits w) rfl (decode_of_decodeTableWord h)⟩

/-- Settles O7, by the kind of event. -/
theorem stepTakesSequencerAndResetEvents : Obligations.StepTakesSequencerAndResetEvents := by
  intro s rest
  refine ⟨step_sequencer, fun hnext hidle => ?_, step_reset⟩
  rw [step_sequencer hnext, sequencerStep_idle (s := s.withInbox rest) Config.libm hidle]
  rfl

/-! ### Who writes what -/

/-- What a sequencer step leaves alone: the delay state always, the filter except in an UPDATE, GEN and ACTIVE_FS
except at its step 9, MAG_RESULT except in a MAG (R91). -/
structure SequencerFrame (s t : State) : Prop where
  delay : t.delay = s.delay
  filter : (t.bank = s.bank ∧ t.actLC = s.actLC ∧ t.actHC = s.actHC) ∨ ∃ k sh f, s.seq = .upd k sh f
  finished : (t.gen = s.gen ∧ t.activeFs = s.activeFs) ∨ ∃ sh f, s.seq = .upd 9 sh f
  magResult : t.magResult = s.magResult ∨ ∃ f r c, s.seq = .mag f r c

theorem sequencerStep_frame (s : State) (lm : Libm) : SequencerFrame s (s.sequencerStep lm) := by
  rcases sequencerStep_cases s lm with ⟨-, ht⟩ | ⟨k, sh, f, _, hseq, ht⟩ | ⟨sh, f, hseq, ht⟩ | ⟨f, r, c, hseq, ht⟩
  · rw [ht]
    exact ⟨rfl, .inl ⟨rfl, rfl, rfl⟩, .inl ⟨rfl, rfl⟩, .inl rfl⟩
  · obtain ⟨bank, lc, hc, hcommit⟩ := commit_frame s k sh
    rw [ht, hcommit]
    exact ⟨rfl, .inr ⟨k, sh, f, hseq⟩, .inl ⟨rfl, rfl⟩, .inl rfl⟩
  · rw [ht]
    exact ⟨rfl, .inl ⟨rfl, rfl, rfl⟩, .inr ⟨sh, f, hseq⟩, .inl rfl⟩
  · rw [ht]
    exact ⟨rfl, .inl ⟨rfl, rfl, rfl⟩, .inl ⟨rfl, rfl⟩, .inr ⟨f, r, c, hseq⟩⟩

/-- A step is a reset, or a sequencer step or an instruction within its frame. -/
theorem step_frame {s t : State} (h : step s = .next t) :
    resetNext s ∨ (∃ rest, sequencerNext s rest ∧ SequencerFrame (s.withInbox rest) t)
      ∨ ∃ rest, ExecFrame (s.withInbox rest) t := by
  rcases step_cases h with ⟨rest, hnext, rfl⟩ | ⟨rest, hinbox, -⟩ | ⟨p, rest, i, -, -, hexec⟩
  · exact .inr (.inl ⟨rest, hnext, sequencerStep_frame _ _⟩)
  · exact .inl ⟨rest, hinbox⟩
  · exact .inr (.inr ⟨rest, exec_frame hexec⟩)

theorem step_filter {s t : State} (h : step s = .next t) :
    (t.bank = s.bank ∧ t.actLC = s.actLC ∧ t.actHC = s.actHC)
      ∨ resetNext s ∨ ∃ k sh fsnap rest, s.seq = .upd k sh fsnap ∧ sequencerNext s rest := by
  rcases step_frame h with hreset | ⟨rest, hnext, frame⟩ | ⟨rest, frame⟩
  · exact .inr (.inl hreset)
  · refine frame.filter.imp_right ?_
    rintro ⟨k, sh, f, hseq⟩
    exact .inr ⟨k, sh, f, rest, hseq, hnext⟩
  · exact .inl ⟨frame.bank, frame.actLC, frame.actHC⟩

theorem step_finished {s t : State} (h : step s = .next t) :
    (t.gen = s.gen ∧ t.activeFs = s.activeFs)
      ∨ resetNext s ∨ ∃ sh fsnap rest, s.seq = .upd 9 sh fsnap ∧ sequencerNext s rest := by
  rcases step_frame h with hreset | ⟨rest, hnext, frame⟩ | ⟨rest, frame⟩
  · exact .inr (.inl hreset)
  · refine frame.finished.imp_right ?_
    rintro ⟨sh, f, hseq⟩
    exact .inr ⟨sh, f, rest, hseq, hnext⟩
  · exact .inl ⟨frame.gen, frame.activeFs⟩

theorem step_magResult {s t : State} (h : step s = .next t) :
    t.magResult = s.magResult
      ∨ resetNext s ∨ ∃ f fs ctrl rest, s.seq = .mag f fs ctrl ∧ sequencerNext s rest := by
  rcases step_frame h with hreset | ⟨rest, hnext, frame⟩ | ⟨rest, frame⟩
  · exact .inr (.inl hreset)
  · refine frame.magResult.imp_right ?_
    rintro ⟨f, r, c, hseq⟩
    exact .inr ⟨f, r, c, rest, hseq, hnext⟩
  · exact .inl frame.magResult

/-- A command changes the delay state only as CLEAR. -/
theorem runCommand_delay (s : State) (lm : Libm) (c : Command) :
    (s.runCommand lm c).delay = s.delay ∨ c = .clear := by
  obtain ⟨k, q, d, hrun, -, -, hdelay⟩ := runCommand_frame s lm c
  rw [hrun]
  exact hdelay.imp_right And.left

/-- R56: the instructions that may change the delay state. -/
theorem exec_delay {i : Instr} {s t : State} (h : exec i s = .next t) :
    t.delay = s.delay ∨ (∃ x, i = .proc x) ∨ i = .clear ∨ i = .wr cmdAddr 0x00000003#32 := by
  have command (c : Command) (hne : c ≠ .clear) (hc : exec c.instr s = .next t) : t.delay = s.delay := by
    rw [exec_command] at hc
    cases hc
    exact (runCommand_delay s Config.libm c).resolve_right hne
  cases i with
  | rd a =>
    cases h
    obtain ⟨k, c, hread, -⟩ := read_frame s Config.ftz (placeOf a)
    rw [hread]
    exact .inl rfl
  | wr a v =>
    refine (exec_wr_delay h).imp_right ?_
    rintro ⟨rfl, rfl, -⟩
    exact .inr (.inr rfl)
  | proc x => exact .inr (.inl ⟨x, rfl⟩)
  | nop => exact .inl (command .nop (by decide) h)
  | update => exact .inl (command .update (by decide) h)
  | mag => exact .inl (command .mag (by decide) h)
  | clear => exact .inr (.inr (.inl rfl))

theorem step_delay {s t : State} (h : step s = .next t) :
    t.delay = s.delay ∨ resetNext s ∨ (∃ x, instrNext s (.proc x)) ∨ instrNext s .clear
      ∨ instrNext s (.wr cmdAddr 0x00000003#32) := by
  rcases step_cases h with ⟨rest, -, rfl⟩ | ⟨rest, hinbox, -⟩ | ⟨p, rest, i, hinbox, hdecode, hexec⟩
  · exact .inl (sequencerStep_frame _ _).delay
  · exact .inr (.inl ⟨rest, hinbox⟩)
  · have hnext : instrNext s i := ⟨p, rest, hinbox, hdecode⟩
    rcases exec_delay hexec with hdelay | ⟨x, rfl⟩ | rfl | rfl
    · exact .inl hdelay
    · exact .inr (.inr (.inl ⟨x, hnext⟩))
    · exact .inr (.inr (.inr (.inl hnext)))
    · exact .inr (.inr (.inr (.inr hnext)))

/-- Settles O46, from what a step can do to the filter and to the record of the last UPDATE. -/
theorem onlyCommitsAndResetChangeTheFilter : Obligations.OnlyCommitsAndResetChangeTheFilter := by
  intro s t h
  refine ⟨fun hchanged => (step_filter h).resolve_left ?_, fun hchanged => (step_finished h).resolve_left ?_⟩
  · rintro ⟨hbank, hlc, hhc⟩
    exact hchanged.elim (· hbank) (·.elim (· hlc) (· hhc))
  · rintro ⟨hgen, hfs⟩
    exact hchanged.elim (· hgen) (· hfs)

/-- Settles O47, from what a step can do to MAG_RESULT and to the delay state. -/
theorem onlyTheirWritersChangeMagResultAndDelay : Obligations.OnlyTheirWritersChangeMagResultAndDelay :=
  fun _ _ h => ⟨(step_magResult h).resolve_left, (step_delay h).resolve_left⟩

end Sys2Proof.Machine
end

section
/-! PROOF. The decoder and the encoder are each other's inverse, and what each of them refuses (30_encoding.md R110 to
R116). -/

namespace Sys2Proof

/-! ### Descriptors -/

/-- The transaction of a well-formed descriptor's KIND, with its ADDR and DATA as operands (R110, R111). -/
def Descriptor.instr (d : Descriptor) : Instr :=
  if d.kind = 0#2 then .rd d.addr else if d.kind = 1#2 then .wr d.addr d.data else .proc d.data

/-- A descriptor that passes every check of R111 decodes by its KIND. -/
theorem decode_descriptor_of_wellFormed {w : BitVec 48} (h : (descriptorFields w).problem = none) :
    decode (.descriptor w) = .ok (descriptorFields w).instr := by
  simp only [decode, decodeDescriptor, h, Descriptor.instr, apply_ite Except.ok]

/-- A descriptor that fails a check of R111 is refused with the first one it fails. -/
theorem decode_descriptor_of_problem {w : BitVec 48} {why : Malformed}
    (h : (descriptorFields w).problem = some why) : decode (.descriptor w) = .error why := by
  simp only [decode, decodeDescriptor, h]

/-- Only a well-formed descriptor decodes. -/
theorem decode_descriptor_eq_ok {w : BitVec 48} {i : Instr} (h : decode (.descriptor w) = .ok i) :
    (descriptorFields w).problem = none ∧ i = (descriptorFields w).instr := by
  cases hp : (descriptorFields w).problem with
  | none =>
    rw [decode_descriptor_of_wellFormed hp] at h
    cases h
    exact ⟨rfl, rfl⟩
  | some why =>
    rw [decode_descriptor_of_problem hp] at h
    cases h

/-- Assembling a well-formed descriptor and decoding it gives its transaction. -/
theorem decode_descriptorOf {d : Descriptor} (h : d.problem = none) :
    decode (.descriptor (descriptorOf d)) = .ok d.instr := by
  have hd := descriptorFields_descriptorOf d
  rw [decode_descriptor_of_wellFormed (hd.symm ▸ h), hd]

/-- The four cases of R111 are all that is wrong with a descriptor. -/
theorem Descriptor.problem_eq_none_iff (d : Descriptor) :
    d.problem = none ↔ ¬ (d.kind = 3#2 ∨ d.rsv ≠ 0#2 ∨ (d.kind = 2#2 ∧ d.addr ≠ 0#12)
      ∨ (d.kind = 0#2 ∧ d.data ≠ 0#32)) := by
  unfold Descriptor.problem
  split_ifs <;> simp_all

/-- What a well-formed descriptor is: each KIND with its reserved fields zero. -/
theorem Descriptor.problem_eq_none_cases {d : Descriptor} (h : d.problem = none) :
    (∃ a, d = ⟨0#2, 0#2, a, 0#32⟩) ∨ (∃ a v, d = ⟨1#2, 0#2, a, v⟩) ∨ ∃ x, d = ⟨2#2, 0#2, 0#12, x⟩ := by
  have kinds : ∀ k : BitVec 2, k = 0#2 ∨ k = 1#2 ∨ k = 2#2 ∨ k = 3#2 := by decide
  obtain ⟨k, r, a, v⟩ := d
  rw [problem_eq_none_iff] at h
  push Not at h
  obtain ⟨hkind, rfl, haddr, hdata⟩ := h
  rcases kinds k with rfl | rfl | rfl | rfl
  · obtain rfl := hdata rfl
    exact .inl ⟨a, rfl⟩
  · exact .inr (.inl ⟨a, v, rfl⟩)
  · obtain rfl := haddr rfl
    exact .inr (.inr ⟨v, rfl⟩)
  · exact absurd rfl hkind

/-- A well-formed descriptor is what its transaction is encoded as. -/
theorem encode_instr {d : Descriptor} (h : d.problem = none) : encode d.instr = .descriptor (descriptorOf d) := by
  rcases Descriptor.problem_eq_none_cases h with ⟨a, rfl⟩ | ⟨a, v, rfl⟩ | ⟨x, rfl⟩ <;> rfl

/-! ### Command words -/

/-- A command's word spells the command's instruction. -/
theorem decode_commandWordOf (c : Command) : decode (.command (commandWordOf c)) = .ok c.instr := by
  simp only [decode, (decodeCommand_eq_ok _ c).2 rfl]

/-- A command word is malformed exactly for the first check of R116 that it fails. -/
theorem decodeCommand_eq_error (v : Word) (why : Malformed) :
    decodeCommand v = .error why ↔ (commandFields v).problem = some why := by
  cases hp : (commandFields v).problem with
  | none =>
    simp only [decodeCommand, hp]
    split_ifs <;> simp
  | some found => simp [decodeCommand, hp]

/-- R116: a nonzero reserved field and an unassigned OP are all that is wrong with a command word. -/
theorem CommandWord.exists_problem_iff (c : CommandWord) :
    (∃ why, c.problem = some why) ↔ c.rsv ≠ 0#28 ∨ 4 ≤ c.op.toNat := by
  have hop : 4#4 ≤ c.op ↔ 4 ≤ c.op.toNat := Iff.rfl
  unfold CommandWord.problem
  split_ifs <;> simp_all

/-! ### The statements -/

/-- Decoding what an instruction is encoded as gives the instruction. -/
theorem decode_encode (i : Instr) : decode (encode i) = .ok i := by
  cases i with
  | rd a => exact decode_descriptorOf (d := ⟨0#2, 0#2, a, 0#32⟩) rfl
  | wr a v => exact decode_descriptorOf (d := ⟨1#2, 0#2, a, v⟩) rfl
  | proc x => exact decode_descriptorOf (d := ⟨2#2, 0#2, 0#12, x⟩) rfl
  | nop => exact decode_commandWordOf .nop
  | update => exact decode_commandWordOf .update
  | mag => exact decode_commandWordOf .mag
  | clear => exact decode_commandWordOf .clear

/-- A descriptor that decodes is what its instruction is encoded as. -/
theorem encode_of_decode_descriptor {w : BitVec 48} {i : Instr} (h : decode (.descriptor w) = .ok i) :
    encode i = .descriptor w := by
  obtain ⟨hwell, rfl⟩ := decode_descriptor_eq_ok h
  rw [encode_instr hwell, descriptorOf_descriptorFields]

/-- Settles O1: assembling a descriptor and taking its fields are inverse, and so are KIND with its operands and the
transaction. -/
theorem instructionsDecodeFromTheirEncodings : Obligations.InstructionsDecodeFromTheirEncodings :=
  ⟨decode_encode, fun _ _ => encode_of_decode_descriptor, fun v c => (decodeCommand_eq_ok v c).1⟩

/-- Settles O4: a word is a command's exactly when it decodes to it, and malformed exactly when a check fails. -/
theorem commandWordsDecodeExactly : Obligations.CommandWordsDecodeExactly := by
  intro v
  refine ⟨decodeCommand_eq_ok v .nop, decodeCommand_eq_ok v .update, decodeCommand_eq_ok v .mag,
    decodeCommand_eq_ok v .clear, ?_⟩
  simp only [decodeCommand_eq_error]
  exact CommandWord.exists_problem_iff (commandFields v)

/-- Settles O2: the accepted words are the encodings of their instructions, each refused one fails its check. -/
theorem spelledWordsDecode : Obligations.SpelledWordsDecode :=
  ⟨decode_encode (.rd 0x030#12), decode_encode (.wr 0x02C#12 0x00000002#32), decode_encode (.proc 0x3F800000#32),
    decode_encode .nop, decode_encode .update, decode_encode .mag, decode_encode .clear,
    decode_descriptor_of_problem rfl, decode_descriptor_of_problem rfl, decode_descriptor_of_problem rfl,
    decode_descriptor_of_problem rfl⟩

namespace Machine

/-- A step that finds an ill-formed object next is refused with its reason (R111, log 10). -/
theorem step_refused {s : State} {p : Packet} {rest : List Event} {why : Malformed}
    (hinbox : s.inbox = .port p :: rest) (hdecode : decode p = .error why) :
    step s = .refused (.illFormedDescriptor why) := by
  simp only [step, hinbox, hdecode]

/-- Settles O3: the four cases are the descriptor's checks, so it decodes by KIND or the first failed check is the
reason. -/
theorem descriptorsDecodeByKindOrAreRefused : Obligations.DescriptorsDecodeByKindOrAreRefused := by
  intro w kind rsv addr data illFormed
  have hwell : (descriptorFields w).problem = none ↔ ¬ illFormed := (descriptorFields w).problem_eq_none_iff
  refine ⟨fun h => decode_descriptor_of_wellFormed (hwell.2 h), fun h => ?_⟩
  obtain ⟨why, hwhy⟩ := Option.ne_none_iff_exists'.1 fun hnone => hwell.1 hnone h
  have hdecode := decode_descriptor_of_problem hwhy
  exact ⟨why, hdecode, fun s rest hinbox => step_refused hinbox hdecode⟩

end Machine

end Sys2Proof
end

section
/-! PROOF. Flushing on the audio path replaces exactly the subnormal words (40_design.md R140, R141). -/

namespace Sys2Proof

open Machine

/-- R140: with FTZ = 0 an operation is the exact one, rounded once. -/
theorem op32_false (op : FVal → FVal → FVal) (a b : FVal) : op32 false op a b = (op a b).round b32 := by
  simp only [op32, flush_off]

/-- The sign bit alone is the zero of a word's sign. -/
theorem val32_signBit (w : Word) : val32 (w &&& 0x80000000#32) = .fin w.msb 0 b32.emin := by
  have hword : w &&& 0x80000000#32 = word32 w.msb 0 := by
    rw [show 0x80000000#32 = BitVec.twoPow 32 31 from rfl, BitVec.and_twoPow, BitVec.msb_eq_getLsbD_last]
    cases w.getLsbD 31 <;> rfl
  rw [hword, val32_word32 w.msb (by decide)]
  rfl

/-- The exponent field is 0 below the first normal value, and the fraction is not 0 above the zeros. -/
theorem isSubnormal32_iff (w : Word) :
    isSubnormal32 w = true ↔ 0 < w.toNat % 2 ^ 31 ∧ w.toNat % 2 ^ 31 < 2 ^ 23 := by
  have hlt := w.isLt
  simp only [isSubnormal32, Bool.and_eq_true, decide_eq_true_eq, ← BitVec.toNat_inj, ne_eq, BitVec.extractLsb'_toNat,
    Nat.shiftRight_eq_div_pow, BitVec.toNat_ofNat]
  omega

/-- A value below the first normal one is worth its magnitude bits, in units of the least exponent. -/
theorem value_of_lt {f : Fmt} {g : Nat} (n : Bool) (hinf : g < f.infMag) (hg : g < 2 ^ f.fracBits) :
    f.value n g = .fin n g f.emin := by
  simp only [Fmt.value, if_pos hinf, if_pos hg]

/-- Flushing keeps every value from the first normal one on. -/
theorem flush_value_of_le (n : Bool) {g : Nat} (hg : 2 ^ 23 ≤ g) : flush true (b32.value n g) = b32.value n g := by
  rcases lt_trichotomy g b32.infMag with hinf | rfl | hinf
  · rw [Fmt.value, if_pos hinf, if_neg (by rw [b32_fracBits]; omega)]
    exact if_neg (by simp)
  · rw [value_infMag]
    rfl
  · rw [value_nan n hinf]
    rfl

/-- R141: a subnormal word's value becomes the zero of its sign, every other value stays. -/
theorem flush_val32 (w : Word) :
    flush true (val32 w) = if isSubnormal32 w then val32 (w &&& 0x80000000#32) else val32 w := by
  rcases Nat.lt_or_ge (w.toNat % 2 ^ 31) (2 ^ 23) with hlow | hnormal
  · have hval : val32 w = .fin w.msb (w.toNat % 2 ^ 31) b32.emin :=
      value_of_lt w.msb (by rw [b32_infMag]; omega) (by rw [b32_fracBits]; exact hlow)
    have hflush : flush true (val32 w) = .fin w.msb 0 b32.emin := by
      rw [hval]
      exact if_pos (decide_eq_true hlow)
    rw [hflush]
    split_ifs with hsub
    · rw [val32_signBit]
    · have hzero : w.toNat % 2 ^ 31 = 0 := by
        rw [isSubnormal32_iff] at hsub
        omega
      rw [hval, hzero]
  · have hsub : isSubnormal32 w = false := by
      rw [← Bool.not_eq_true, isSubnormal32_iff]
      omega
    rw [hsub, if_neg Bool.false_ne_true]
    exact flush_value_of_le w.msb hnormal

/-- Settles O60: with FTZ = 0 flushing does nothing, and with FTZ = 1 it is applied to the operands and the result. -/
theorem flushReplacesExactlySubnormals : Obligations.FlushReplacesExactlySubnormals := by
  refine ⟨op32_false, flush_val32, fun op a b => ?_⟩
  rw [op32_false]
  rfl

end Sys2Proof
end

section
/-! PROOF. Sums, differences and products before their one rounding (40_design.md R140, R142, R143). -/

namespace Sys2Proof

/-- The sum of two finite values is one integer in units of their lower exponent. -/
theorem add_fin_fin (n n' : Bool) (m m' : Nat) (e e' : Int) :
    ∃ sum : Int, sum * (2 : ℚ) ^ min e e' = (FVal.fin n m e).real + (FVal.fin n' m' e').real
      ∧ (FVal.fin n m e).add (.fin n' m' e')
        = if sum = 0 then .fin (n && n') 0 (min e e') else .fin (decide (sum < 0)) sum.natAbs (min e e') := by
  refine ⟨_, ?_, rfl⟩
  have hm := scaled_lower m (min_le_left e e')
  have hm' := scaled_lower m' (min_le_right e e')
  rw [real_fin, real_fin, mul_assoc, mul_assoc, ← hm, ← hm', Int.cast_add, signedInt_cast, signedInt_cast]
  ring

theorem signOf_mul_natAbs (z : Int) : signOf (decide (z < 0)) * (z.natAbs : ℚ) = z := by
  rcases lt_or_ge z 0 with hz | hz
  · simp [hz, abs_of_neg]
  · simp [hz.not_gt, abs_of_nonneg, hz]

/-- The sum is finite and exact. -/
theorem add_exact (n n' : Bool) (m m' : Nat) (e e' : Int) :
    ((FVal.fin n m e).add (.fin n' m' e')).isFinite = true
      ∧ ((FVal.fin n m e).add (.fin n' m' e')).real = (FVal.fin n m e).real + (FVal.fin n' m' e').real := by
  obtain ⟨sum, hsum, hadd⟩ := add_fin_fin n n' m m' e e'
  rw [hadd, ← hsum]
  split_ifs with h0
  · simp [FVal.isFinite, real_fin, h0]
  · exact ⟨rfl, by rw [real_fin, signOf_mul_natAbs]⟩

/-- A sum that is worth 0 is the zero that is negative only where both operands are. -/
theorem add_zero_sign (n n' : Bool) (m m' : Nat) (e e' : Int)
    (h : ((FVal.fin n m e).add (.fin n' m' e')).real = 0) :
    (FVal.fin n m e).add (.fin n' m' e') = .fin (n && n') 0 (min e e') := by
  obtain ⟨sum, hsum, hadd⟩ := add_fin_fin n n' m m' e e'
  have h0 : sum = 0 := by
    rw [(add_exact n n' m m' e e').2, ← hsum] at h
    have hpow : (2 : ℚ) ^ min e e' ≠ 0 := by positivity
    exact_mod_cast (mul_eq_zero.1 h).resolve_right hpow
  rw [hadd, if_pos h0]

@[simp] theorem signOf_not (n : Bool) : signOf (!n) = -signOf n := by cases n <;> simp

theorem signOf_xor (n n' : Bool) : signOf (n ^^ n') = signOf n * signOf n' := by cases n <;> cases n' <;> simp

theorem real_neg_fin (n : Bool) (m : Nat) (e : Int) : (FVal.fin (!n) m e).real = -(FVal.fin n m e).real := by
  simp only [real_fin, signOf_not, neg_mul]

/-- The product is exact. -/
theorem mul_exact (n n' : Bool) (m m' : Nat) (e e' : Int) :
    ((FVal.fin n m e).mul (.fin n' m' e')).real = (FVal.fin n m e).real * (FVal.fin n' m' e').real := by
  show (FVal.fin (n ^^ n') (m * m') (e + e')).real = _
  rw [real_fin, real_fin, real_fin, signOf_xor, zpow_add₀ two_ne_zero]
  push_cast
  ring

/-- Finite operands: the results are finite and exact. -/
theorem sums_and_products_exact (a b : FVal) (ha : a.isFinite = true) (hb : b.isFinite = true) :
    (a.add b).isFinite = true ∧ (a.add b).real = a.real + b.real
      ∧ (a.sub b).isFinite = true ∧ (a.sub b).real = a.real - b.real
      ∧ (a.mul b).isFinite = true ∧ (a.mul b).real = a.real * b.real := by
  cases a with
  | nan => cases ha
  | inf => cases ha
  | fin n m e =>
    cases b with
    | nan => cases hb
    | inf => cases hb
    | fin n' m' e' =>
      obtain ⟨hfin, hreal⟩ := add_exact n n' m m' e e'
      obtain ⟨hfin', hreal'⟩ := add_exact n (!n') m m' e e'
      rw [real_neg_fin, ← sub_eq_add_neg] at hreal'
      exact ⟨hfin, hreal, hfin', hreal', rfl, mul_exact n n' m m' e e'⟩

/-- Settles O57: finite operands by the exact sum on the lower exponent, the others by the cases of the operations. -/
theorem sumsAndProductsAreExactBeforeRounding : Obligations.SumsAndProductsAreExactBeforeRounding := by
  refine ⟨sums_and_products_exact, fun n n' m m' e e' => ⟨fun h => ⟨_, add_zero_sign n n' m m' e e' h⟩,
    fun h => ⟨_, add_zero_sign n (!n') m m' e e' h⟩, _, _, rfl⟩,
    fun a => ⟨rfl, add_nan a, rfl, sub_nan a, rfl, mul_nan a⟩, fun n n' m e => ?_⟩
  refine ⟨rfl, ?_, rfl, rfl, rfl, rfl, rfl, rfl, ?_⟩
  · cases n <;> cases n' <;> rfl
  · rw [Bool.xor_comm n n']
    rfl

end Sys2Proof
end

section
/-! PROOF. The checks of the rate and the quality, in bits (40_design.md R145, R147). -/

namespace Sys2Proof.Machine

open Sys2Proof

/-- A format's value is above zero exactly when its sign is + and its magnitude bits are not 0 and no NaN's. -/
theorem zero_lt_value_iff (f : Fmt) (n : Bool) (g : Nat) (hinf : 0 < f.infMag) :
    FVal.zero.lt (f.value n g) = true ↔ n = false ∧ 0 < g ∧ g ≤ f.infMag := by
  rcases lt_trichotomy g f.infMag with hg | rfl | hg
  · have hreal := value_real n hg
    obtain ⟨m, e, hv, -⟩ := value_finite n hg
    have hpos : 0 < f.magReal g ↔ 0 < g := by
      rw [← magReal_zero f]
      exact (magReal_strictMono f).lt_iff_lt
    rw [hv] at hreal ⊢
    rw [FVal.zero, lt_iff_real, hreal, real_fin]
    cases n
    · simp [hpos, hg.le]
    · simp [magReal_nonneg f g]
  · rw [value_infMag]
    simp [FVal.zero, FVal.lt, hinf]
  · rw [value_nan n hg]
    simp [FVal.zero, FVal.lt, hg]

/-- The words above zero are those from the least subnormal to +∞. -/
theorem zero_lt_val32_iff (w : Word) :
    FVal.zero.lt (val32 w) = true ↔ 0 < w.toNat ∧ w.toNat ≤ 0x7F800000 := by
  have hlt := w.isLt
  rw [val32, zero_lt_value_iff b32 _ _ (by decide), b32_infMag, BitVec.msb_eq_decide, decide_eq_false_iff_not]
  omega

theorem fsValid_iff (fs : Word) : fsValid fs = true ↔ 0 < fs.toNat ∧ fs.toNat < 0x7F800000 := by
  rw [fsValid, Bool.and_eq_true, isFinite32_iff, zero_lt_val32_iff]
  omega

/-- NaN or not above zero: the one comparison says both. -/
theorem isNaN_or_le_zero (v : FVal) : (v.isNaN || v.le FVal.zero) = !FVal.zero.lt v := by
  cases v <;> rfl

theorem clampQ_eq (q : Word) : clampQ q = if FVal.zero.lt (val32 q) = true then (q, false) else (qEps, true) := by
  rw [clampQ, isNaN32, isNaN_or_le_zero]
  cases FVal.zero.lt (val32 q) <;> rfl

/-- Settles O51: both checks ask whether the word's value is above zero, which its bits decide. -/
theorem rateAndQualityChecksInBits : Obligations.RateAndQualityChecksInBits := by
  refine ⟨fsValid_iff, fun q => ?_⟩
  rw [clampQ_eq]
  simp only [zero_lt_val32_iff]
  rfl

end Sys2Proof.Machine
end

section
/-! PROOF. The clamp of the frequencies (40_design.md R146, 00_scope.md R7, R10). -/

namespace Sys2Proof.Machine

open Sys2Proof

/-! ### A word compared with a real number -/

/-- Each infinity has one word. -/
theorem val32_eq_inf_iff (w : Word) (n : Bool) : val32 w = .inf n ↔ w = word32 n b32.infMag := by
  constructor
  · intro hv
    have hnan : isNaN32 w = false := by rw [isNaN32, hv]; rfl
    rw [← round32_val32 0#32 w hnan, hv]
    rfl
  · rintro rfl
    rw [val32_word32 n (by decide), value_infMag]

/-- A word below a finite value is −∞ or a finite word worth less. -/
theorem val32_lt_fin_iff (w : Word) (n : Bool) (m : Nat) (e : Int) :
    (val32 w).lt (.fin n m e) = true
      ↔ w = 0xFF800000#32 ∨ (isFinite32 w = true ∧ (val32 w).real < (FVal.fin n m e).real) := by
  rw [show 0xFF800000#32 = word32 true b32.infMag by decide, ← val32_eq_inf_iff, isFinite32]
  cases val32 w with
  | nan => simp [FVal.lt, FVal.isFinite]
  | inf n' => simp [FVal.lt, FVal.isFinite]
  | fin n' m' e' => simp [lt_iff_real, FVal.isFinite]

/-- A word that is not NaN and not below a finite value is +∞ or a finite word worth at least as much. -/
theorem fin_le_val32_iff (w : Word) (n : Bool) (m : Nat) (e : Int) :
    (FVal.fin n m e).le (val32 w) = true
      ↔ w = 0x7F800000#32 ∨ (isFinite32 w = true ∧ (FVal.fin n m e).real ≤ (val32 w).real) := by
  rw [show 0x7F800000#32 = word32 false b32.infMag by decide, ← val32_eq_inf_iff, isFinite32]
  cases val32 w with
  | nan => simp [FVal.le, FVal.isNaN, FVal.isFinite]
  | inf n' => simp [FVal.le, FVal.lt, FVal.isNaN, FVal.isFinite]
  | fin n' m' e' =>
    rw [← not_lt, ← lt_iff_real]
    simp [FVal.le, FVal.isNaN, FVal.isFinite]

/-! ### The two ways a frequency is out of range -/

/-- NaN, −∞ or below F_MIN. -/
def frequencyLow (f : Word) : Prop :=
  isNaN32 f = true ∨ f = 0xFF800000#32 ∨ (isFinite32 f = true ∧ (val32 f).real < 1)

/-- +∞, or at Nyquist or above. -/
def frequencyHigh (nyquist : ℚ) (f : Word) : Prop :=
  f = 0x7F800000#32 ∨ (isFinite32 f = true ∧ nyquist ≤ (val32 f).real)

theorem val32_fMin : val32 fMin = .fin false 8388608 (-23) := by decide +kernel

theorem val32_fMin_real : (val32 fMin).real = 1 := by
  rw [val32_fMin]
  norm_num [real_fin]

/-- What `clampLow` asks. -/
theorem isNaN32_or_lt_fMin_iff (f : Word) :
    (isNaN32 f || (val32 f).lt (val32 fMin)) = true ↔ frequencyLow f := by
  rw [val32_fMin, Bool.or_eq_true, val32_lt_fin_iff, ← val32_fMin, val32_fMin_real]
  rfl

theorem clampLow_of_low {f : Word} (h : frequencyLow f) : clampLow f = fMin :=
  if_pos ((isNaN32_or_lt_fMin_iff f).2 h)

theorem clampLow_of_not_low {f : Word} (h : ¬ frequencyLow f) : clampLow f = f :=
  if_neg (h ∘ (isNaN32_or_lt_fMin_iff f).1)

theorem fMin_not_low : ¬ frequencyLow fMin := by
  rw [← isNaN32_or_lt_fMin_iff]
  decide +kernel

/-- F_MIN is finite and 1, so it is from Nyquist on exactly where Nyquist is at most 1. -/
theorem frequencyHigh_fMin (nyquist : ℚ) : frequencyHigh nyquist fMin ↔ nyquist ≤ 1 := by
  have hfin : isFinite32 fMin = true := by decide +kernel
  have hinf : fMin ≠ 0x7F800000#32 := by decide
  simp [frequencyHigh, hfin, hinf, val32_fMin_real]

/-- A frequency that is neither low nor high is finite and below Nyquist. -/
theorem finite_and_lt_of_in_range {nyquist : ℚ} {f : Word} (hlow : ¬ frequencyLow f)
    (hhigh : ¬ frequencyHigh nyquist f) : isFinite32 f = true ∧ (val32 f).real < nyquist := by
  obtain ⟨hnan, hneg, -⟩ : isNaN32 f ≠ true ∧ f ≠ 0xFF800000#32 ∧ _ := by simpa only [frequencyLow, not_or] using hlow
  obtain ⟨hpos, hlt⟩ := not_or.1 hhigh
  have hfin : isFinite32 f = true := by
    rw [show 0xFF800000#32 = word32 true b32.infMag by decide, ne_eq, ← val32_eq_inf_iff] at hneg
    rw [show 0x7F800000#32 = word32 false b32.infMag by decide, ← val32_eq_inf_iff] at hpos
    revert hnan hneg hpos
    rw [isNaN32, isFinite32]
    cases val32 f with
    | nan => simp [FVal.isNaN]
    | inf n => cases n <;> simp
    | fin n m e => simp [FVal.isFinite]
  exact ⟨hfin, not_le.1 fun h => hlt ⟨hfin, h⟩⟩

/-! ### What the clamp answers -/

/-- Nyquist of a valid rate as `clampHigh` computes it: a positive value below the end of binary32. -/
theorem half_val32_of_fsValid {fs : Word} (h : fsValid fs = true) :
    ∃ m e, 0 < m ∧ (val32 fs).half = .fin false m e ∧ (FVal.fin false m e).real = (val32 fs).real / 2
      ∧ (FVal.fin false m e).real < (FVal.fin false 1 128).real := by
  obtain ⟨hpos, hlt⟩ := (fsValid_iff fs).1 h
  have hmag : fs.toNat % 2 ^ 31 = fs.toNat := Nat.mod_eq_of_lt (by omega)
  have hfin : isFinite32 fs = true := (isFinite32_iff fs).2 (by omega)
  have hmsb : fs.msb = false := by
    rw [BitVec.msb_eq_decide, decide_eq_false_iff_not]
    omega
  obtain ⟨m, e, hv, hm⟩ := val32_fin hfin
  rw [hmag] at hm
  have hhalf : (FVal.fin false m (e - 1)).real = (val32 fs).real / 2 := by
    rw [hv, hmsb, real_fin, real_fin, zpow_sub_one₀ two_ne_zero]
    ring
  have hmono := magReal_strictMono b32
  have h0 : 0 < b32.magReal fs.toNat := by
    rw [← magReal_zero b32]
    exact hmono hpos
  have hend : b32.magReal fs.toNat < 2 ^ (128 : ℤ) := by
    rw [← b32_magReal_infMag]
    exact hmono (by rw [b32_infMag]; exact hlt)
  refine ⟨m, e - 1, Nat.pos_of_ne_zero ?_, by rw [hv, hmsb]; rfl, hhalf, ?_⟩
  · rintro rfl
    simp [← hm] at h0
  · rw [hhalf, hv, hmsb, real_fin, real_fin, mul_assoc, hm, signOf_false]
    linarith

/-- `g` is a finite word below Nyquist, and no finite word lies between the two. -/
structure LargestBelow (nyquist : ℚ) (g : Word) : Prop where
  finite : isFinite32 g = true
  below : (val32 g).real < nyquist
  largest : ∀ w : Word, isFinite32 w = true → (val32 w).real < nyquist → (val32 w).real ≤ (val32 g).real

/-- `clampHigh` keeps a frequency that is not high and answers the largest word below Nyquist for one that is. -/
theorem clampHigh_spec {fs : Word} (h : fsValid fs = true) (f : Word) :
    (frequencyHigh ((val32 fs).real / 2) f → LargestBelow ((val32 fs).real / 2) (clampHigh f fs))
      ∧ (¬ frequencyHigh ((val32 fs).real / 2) f → clampHigh f fs = f) := by
  obtain ⟨m, e, hm, hhalf, hreal, hlt⟩ := half_val32_of_fsValid h
  have hclamp : clampHigh f fs = if (FVal.fin false m e).le (val32 f) then nextDown32 m e else f := by
    simp only [clampHigh, hhalf]
  rw [hclamp, ← hreal]
  constructor
  · intro hhigh
    obtain ⟨hfin, hbelow, hlargest⟩ := nextDownIsTheLargestValueBelow m e hm hlt
    rw [if_pos ((fin_le_val32_iff f false m e).2 hhigh)]
    exact ⟨hfin, hbelow, hlargest⟩
  · intro hhigh
    exact if_neg (hhigh ∘ (fin_le_val32_iff f false m e).1)

/-- The flag says whether the word changed. -/
theorem clampF_flag (f fs : Word) : (clampF f fs).2 = decide ((clampF f fs).1 ≠ f) := by
  simp [clampF, bne, beq_eq_decide]

theorem clampF_eq {f fs g : Word} (h : clampHigh (clampLow f) fs = g) : clampF f fs = (g, g != f) := by
  simp [clampF, h]

theorem clampF_kept {f fs : Word} (hfs : fsValid fs = true) (hlow : ¬ frequencyLow f)
    (hhigh : ¬ frequencyHigh ((val32 fs).real / 2) f) : clampF f fs = (f, false) := by
  rw [clampF_eq (g := f), bne_self_eq_false]
  rw [clampLow_of_not_low hlow, (clampHigh_spec hfs f).2 hhigh]

theorem clampF_to_fMin {f fs : Word} (hfs : fsValid fs = true) (hlow : frequencyLow f)
    (hnyquist : 1 < (val32 fs).real / 2) : clampF f fs = (fMin, true) := by
  have hne : fMin ≠ f := fun h => fMin_not_low (h ▸ hlow)
  rw [clampF_eq (g := fMin), bne_iff_ne.2 hne]
  rw [clampLow_of_low hlow]
  exact (clampHigh_spec hfs fMin).2 fun h => hnyquist.not_ge ((frequencyHigh_fMin _).1 h)

theorem clampF_to_largestBelow {f fs : Word} (hfs : fsValid fs = true)
    (h : (frequencyLow f ∧ (val32 fs).real / 2 ≤ 1) ∨ (¬ frequencyLow f ∧ frequencyHigh ((val32 fs).real / 2) f)) :
    LargestBelow ((val32 fs).real / 2) (clampF f fs).1 := by
  rcases h with ⟨hlow, hnyquist⟩ | ⟨hlow, hhigh⟩
  · show LargestBelow _ (clampHigh (clampLow f) fs)
    rw [clampLow_of_low hlow]
    exact (clampHigh_spec hfs fMin).1 ((frequencyHigh_fMin _).2 hnyquist)
  · show LargestBelow _ (clampHigh (clampLow f) fs)
    rw [clampLow_of_not_low hlow]
    exact (clampHigh_spec hfs f).1 hhigh

/-- The clamped frequency is a finite word below Nyquist. -/
theorem clampF_finite_below {fs : Word} (hfs : fsValid fs = true) (f : Word) :
    isFinite32 (clampF f fs).1 = true ∧ (val32 (clampF f fs).1).real < (val32 fs).real / 2 := by
  by_cases hlow : frequencyLow f
  · rcases lt_or_ge 1 ((val32 fs).real / 2) with hnyquist | hnyquist
    · rw [clampF_to_fMin hfs hlow hnyquist]
      exact ⟨by decide +kernel, val32_fMin_real.trans_lt hnyquist⟩
    · have h := clampF_to_largestBelow hfs (.inl ⟨hlow, hnyquist⟩)
      exact ⟨h.finite, h.below⟩
  · by_cases hhigh : frequencyHigh ((val32 fs).real / 2) f
    · have h := clampF_to_largestBelow hfs (.inr ⟨hlow, hhigh⟩)
      exact ⟨h.finite, h.below⟩
    · rw [clampF_kept hfs hlow hhigh]
      exact finite_and_lt_of_in_range hlow hhigh

/-- Settles O53: a frequency is kept, raised to F_MIN, or lowered to the largest word below Nyquist. -/
theorem clampedFrequenciesLieBelowNyquist : Obligations.ClampedFrequenciesLieBelowNyquist := by
  intro f fs hfs
  obtain ⟨hfin, hbelow⟩ := clampF_finite_below hfs f
  exact ⟨hfin, hbelow, clampF_flag f fs, clampF_kept hfs, clampF_to_fMin hfs,
    fun h => (clampF_to_largestBelow hfs h).largest⟩

end Sys2Proof.Machine
end

section
/-! PROOF. Rounding is to nearest, ties to even, because the exact value lies between the midpoints to the rounded
value's two neighbours (40_design.md R140, R142, R143). -/

namespace Sys2Proof

/-! ### The midpoints to the neighbours -/

/-- The magnitude bits `g` are those of a value of the format that no other is nearer to `v`: `v` lies between the
midpoints to the next value above and the next one below. -/
structure BetweenMidpoints (f : Fmt) (g : Nat) (v : ℚ) : Prop where
  above : 2 * v ≤ f.magReal g + f.magReal (g + 1)
  below : ∀ h, h + 1 = g → f.magReal h + f.magReal (h + 1) ≤ 2 * v

/-- A rounded value that did not overflow is the value below the exact one or the next. -/
theorem floorMag_le_roundMag {f : Fmt} {m : Nat} {e : Int} (hF : 1 ≤ f.fracBits) (hm : m ≠ 0)
    (hg : f.roundMag m e < f.infMag) : f.floorMag m e ≤ f.roundMag m e := by
  rcases roundMag_spec f e hF hm with ⟨hr, -⟩ | ⟨hr, -⟩ <;> omega

/-- What is rounded lies at most at the midpoint to the next value above, and there only if the result is even. -/
theorem roundMag_above {f : Fmt} {m : Nat} {e : Int} (hF : 1 ≤ f.fracBits) (hg : f.roundMag m e < f.infMag) :
    2 * (m * (2 : ℚ) ^ e) ≤ f.magReal (f.roundMag m e) + f.magReal (f.roundMag m e + 1)
      ∧ (2 * (m * (2 : ℚ) ^ e) = f.magReal (f.roundMag m e) + f.magReal (f.roundMag m e + 1)
        → f.roundMag m e % 2 = 0) := by
  rcases eq_or_ne m 0 with rfl | hm
  · have h0 : f.roundMag 0 e = 0 := rfl
    simp [h0, magReal_nonneg f 1]
  · obtain ⟨-, hi, -⟩ := floorMag_bracket f e hm
    rcases roundMag_spec f e hF hm with ⟨hr, hmid⟩ | ⟨hr, -⟩
    · have hfloor : f.roundMag m e = f.floorMag m e := by omega
      rw [hfloor]
      rcases hmid with hlt | ⟨heq, heven⟩
      · exact ⟨hlt.le, fun heq => absurd heq hlt.ne⟩
      · exact ⟨heq.le, fun _ => heven⟩
    · have hceil : f.roundMag m e = f.floorMag m e + 1 := by omega
      have hnext := magReal_strictMono f (Nat.lt_add_one (f.floorMag m e + 1))
      rw [hceil]
      exact ⟨by linarith, fun heq => by linarith⟩

/-- It lies at least at the midpoint to the next value below, and there only if the result is even; an overflow is
cut off at the infinity, which counts as the next value then. -/
theorem roundMag_below {f : Fmt} {m : Nat} {e : Int} (hF : 1 ≤ f.fracBits) {h : Nat} (hh : h + 1 = f.roundMag m e) :
    f.magReal h + f.magReal (h + 1) ≤ 2 * (m * (2 : ℚ) ^ e)
      ∧ (f.magReal h + f.magReal (h + 1) = 2 * (m * (2 : ℚ) ^ e) → (h + 1) % 2 = 0) := by
  have hm : m ≠ 0 := by
    rintro rfl
    exact absurd hh (Nat.succ_ne_zero h)
  obtain ⟨lo, -, -⟩ := floorMag_bracket f e hm
  have hstep := magReal_strictMono f (Nat.lt_add_one h)
  have hmono := (magReal_strictMono f).monotone
  rcases roundMag_spec f e hF hm with ⟨hr, -⟩ | ⟨hr, hmid⟩
  · have hle := hmono (show h + 1 ≤ f.floorMag m e by omega)
    exact ⟨by linarith, fun heq => by linarith⟩
  · rcases Nat.lt_or_ge h (f.floorMag m e) with hlt | hge
    · have hle := hmono (show h + 1 ≤ f.floorMag m e from hlt)
      exact ⟨by linarith, fun heq => by linarith⟩
    · obtain rfl : h = f.floorMag m e := by omega
      rcases hmid with hlt | ⟨heq, hodd⟩
      · exact ⟨hlt.le, fun heq => absurd heq hlt.ne⟩
      · exact ⟨heq.ge, fun _ => by omega⟩

theorem roundMag_betweenMidpoints {f : Fmt} {m : Nat} {e : Int} (hF : 1 ≤ f.fracBits)
    (hg : f.roundMag m e < f.infMag) : BetweenMidpoints f (f.roundMag m e) (m * 2 ^ e) :=
  ⟨(roundMag_above hF hg).1, fun _ hh => (roundMag_below hF hh).1⟩

/-! ### Nearest -/

/-- On its own side of the midpoint a value is nearer, and equally near only at the midpoint. -/
theorem abs_sub_le_of_two_mul_le {a b v : ℚ} (hab : a < b) (hv : 2 * v ≤ a + b) :
    |a - v| ≤ |b - v| ∧ (|a - v| = |b - v| → 2 * v = a + b) := by
  rw [abs_of_pos (show 0 < b - v by linarith)]
  refine ⟨abs_le.2 ⟨by linarith, by linarith⟩, fun heq => ?_⟩
  rcases abs_choice (a - v) with h | h <;> linarith

theorem abs_sub_le_of_le_two_mul {a b v : ℚ} (hab : b < a) (hv : b + a ≤ 2 * v) :
    |a - v| ≤ |b - v| ∧ (|a - v| = |b - v| → b + a = 2 * v) := by
  rw [abs_sub_comm a, abs_sub_comm b, abs_of_pos (show 0 < v - b by linarith)]
  refine ⟨abs_le.2 ⟨by linarith, by linarith⟩, fun heq => ?_⟩
  rcases abs_choice (v - a) with h | h <;> linarith

/-- No value of the format is nearer than one between whose midpoints `v` lies, and another equally near one means
that `v` is a midpoint. -/
theorem BetweenMidpoints.nearest {f : Fmt} {g : Nat} {v : ℚ} (h : BetweenMidpoints f g v) (g' : Nat) :
    |f.magReal g - v| ≤ |f.magReal g' - v|
      ∧ (|f.magReal g - v| = |f.magReal g' - v| → g' ≠ g →
        2 * v = f.magReal g + f.magReal (g + 1) ∨ ∃ k, k + 1 = g ∧ f.magReal k + f.magReal (k + 1) = 2 * v) := by
  have hmono := magReal_strictMono f
  rcases lt_trichotomy g g' with hlt | rfl | hlt
  · have hnext := hmono.monotone (show g + 1 ≤ g' from hlt)
    have habove := h.above
    obtain ⟨hle, htie⟩ := abs_sub_le_of_two_mul_le (hmono hlt) (show 2 * v ≤ f.magReal g + f.magReal g' by linarith)
    refine ⟨hle, fun heq _ => .inl ?_⟩
    linarith [htie heq]
  · exact ⟨le_rfl, fun _ hne => absurd rfl hne⟩
  · obtain ⟨k, rfl⟩ : ∃ k, k + 1 = g := ⟨g - 1, by omega⟩
    have hprev := hmono.monotone (show g' ≤ k by omega)
    have hbelow := h.below k rfl
    obtain ⟨hle, htie⟩ :=
      abs_sub_le_of_le_two_mul (hmono hlt) (show f.magReal g' + f.magReal (k + 1) ≤ 2 * v by linarith)
    refine ⟨hle, fun heq _ => .inr ⟨k, rfl, ?_⟩⟩
    linarith [htie heq]

/-- The sign of the exact value does not matter for how near a magnitude of that sign is. -/
theorem abs_signOf_mul_sub (n : Bool) (a v : ℚ) : |signOf n * a - signOf n * v| = |a - v| := by
  rw [← mul_sub, abs_mul]
  cases n <;> simp

/-- A magnitude of the other sign is no nearer than one of the exact value's own. -/
theorem abs_sub_le_abs_signOf_mul_sub (n n' : Bool) {b v : ℚ} (hb : 0 ≤ b) (hv : 0 ≤ v) :
    |b - v| ≤ |signOf n' * b - signOf n * v| := by
  have habs (k : Bool) {x : ℚ} (hx : 0 ≤ x) : |signOf k * x| = x := by cases k <;> simp [abs_of_nonneg hx]
  simpa only [habs n' hb, habs n hv] using abs_abs_sub_abs_le (signOf n' * b) (signOf n * v)

/-- The nearest value of the format, the signs included. -/
theorem BetweenMidpoints.nearest_signed {f : Fmt} {g : Nat} {v : ℚ} (h : BetweenMidpoints f g v) (hv : 0 ≤ v)
    (n n' : Bool) (g' : Nat) :
    |signOf n * f.magReal g - signOf n * v| ≤ |signOf n' * f.magReal g' - signOf n * v| := by
  rw [abs_signOf_mul_sub]
  exact (h.nearest g').1.trans (abs_sub_le_abs_signOf_mul_sub n n' (magReal_nonneg f g') hv)

/-! ### Ties and overflow -/

/-- Where another value is equally near, the rounded one is even. -/
theorem roundMag_even_of_tie {f : Fmt} {m : Nat} {e : Int} (hF : 1 ≤ f.fracBits) (hg : f.roundMag m e < f.infMag)
    {n n' : Bool} {g' : Nat} (hne : g' ≠ f.roundMag m e)
    (htie : |signOf n * f.magReal (f.roundMag m e) - signOf n * (m * (2 : ℚ) ^ e)|
      = |signOf n' * f.magReal g' - signOf n * (m * (2 : ℚ) ^ e)|) : f.roundMag m e % 2 = 0 := by
  have hnear := (roundMag_betweenMidpoints hF hg).nearest g'
  have hsign := abs_sub_le_abs_signOf_mul_sub n n' (magReal_nonneg f g') (show 0 ≤ m * (2 : ℚ) ^ e by positivity)
  rw [abs_signOf_mul_sub] at htie
  rcases hnear.2 (le_antisymm hnear.1 (htie ▸ hsign)) hne with hmid | ⟨k, hk, hmid⟩
  · exact (roundMag_above hF hg).2 hmid
  · rw [← hk]
    exact (roundMag_below hF hk).2 hmid

/-- The midpoint to the infinity: the largest finite value plus half a unit. -/
theorem infMag_midpoint (f : Fmt) (hE : 2 ≤ f.expBits) :
    ∃ h, h + 1 = f.infMag ∧ f.magReal h + f.magReal (h + 1)
      = 2 * (FVal.fin false (2 ^ (f.fracBits + 2) - 1) (f.emin + 2 ^ f.expBits - 4)).real := by
  obtain ⟨p, hp⟩ : ∃ p, 2 ^ f.expBits = p + 3 :=
    ⟨2 ^ f.expBits - 3, by have := Nat.pow_le_pow_right (show 1 ≤ 2 by omega) hE; omega⟩
  have hF : 1 ≤ 2 ^ f.fracBits := Nat.one_le_two_pow
  have hlargest := magReal_of (f := f) p (2 ^ (f.fracBits + 1) - 1) (by omega) (.inr (by rw [pow_succ]; omega))
  have hend := magReal_of (f := f) p (2 ^ (f.fracBits + 1)) le_rfl (.inr (by rw [pow_succ]; omega))
  have hsucc : p * 2 ^ f.fracBits + (2 ^ (f.fracBits + 1) - 1) + 1 = p * 2 ^ f.fracBits + 2 ^ (f.fracBits + 1) := by
    rw [pow_succ]
    omega
  have hexp : f.emin + 2 ^ f.expBits - 4 = f.emin + p - 1 := by
    have : (2 : ℤ) ^ f.expBits = p + 3 := by exact_mod_cast hp
    omega
  refine ⟨_, hsucc.trans ?_, ?_⟩
  · rw [Fmt.infMag, hp, pow_succ, Nat.add_sub_assoc (by norm_num)]
    ring
  · rw [hsucc, hlargest, hend, real_fin, hexp, zpow_sub_one₀ two_ne_zero, Nat.cast_sub (by omega),
      Nat.cast_sub Nat.one_le_two_pow, signOf_false]
    push_cast
    ring

/-- Rounding overflows exactly from the midpoint to the infinity on. -/
theorem roundMag_eq_infMag_iff (f : Fmt) (hF : 1 ≤ f.fracBits) (hE : 2 ≤ f.expBits) (m : Nat) (e : Int) :
    f.roundMag m e = f.infMag
      ↔ (FVal.fin false (2 ^ (f.fracBits + 2) - 1) (f.emin + 2 ^ f.expBits - 4)).real ≤ m * (2 : ℚ) ^ e := by
  obtain ⟨h, hh, hmid⟩ := infMag_midpoint f hE
  constructor
  · intro hr
    have hbelow := (roundMag_below hF (hh.trans hr.symm)).1
    linarith
  · intro hle
    by_contra hne
    have hg := lt_of_le_of_ne (roundMag_le f m e) hne
    obtain ⟨habove, heven⟩ := roundMag_above hF hg
    have hmono := magReal_strictMono f
    rcases Nat.lt_or_ge (f.roundMag m e) h with hlt | hge
    · have hlo := hmono hlt
      have hhi := hmono (Nat.add_lt_add_right hlt 1)
      linarith
    · have hlast : f.roundMag m e = h := by omega
      rw [hlast] at habove heven
      have hodd : h % 2 = 1 := by
        obtain ⟨k, hk⟩ : ∃ k, f.fracBits = k + 1 := ⟨f.fracBits - 1, by omega⟩
        have hinf : f.infMag = (2 ^ f.expBits - 1) * 2 ^ k * 2 := by rw [Fmt.infMag, hk, pow_succ, mul_assoc]
        omega
      have heven' := heven (by linarith)
      omega

/-- Settles O56: the exact value lies between the midpoints to the neighbours, at one only if the result is even. -/
theorem roundingIsToNearestEven : Obligations.RoundingIsToNearestEven := by
  intro f n m e hf
  obtain ⟨hF, hE⟩ : 1 ≤ f.fracBits ∧ 2 ≤ f.expBits := by rcases hf with rfl | rfl <;> decide
  refine ⟨rfl, roundMag_le f m e, fun hg n' g' hg' => ?_, ?_⟩
  · rw [value_real n hg, value_real n' hg', real_fin, mul_assoc]
    exact ⟨(roundMag_betweenMidpoints hF hg).nearest_signed (by positivity) n n' g',
      fun htie hne => roundMag_even_of_tie hF hg hne htie⟩
  · rw [roundMag_eq_infMag_iff f hF hE, real_fin false m e, signOf_false, one_mul]

end Sys2Proof
end

section
/-! PROOF. A quotient and a root with a sticky bit round as the exact ones do, because every midpoint that rounding
compares with is an even number of the sticky bit's units (40_design.md R143). -/

namespace Sys2Proof

/-! ### Midpoints in units of the rounded significand -/

/-- The unit of the value below `m · 2^e` is the one that is rounded to. -/
theorem emin_add_scale_floorMag (f : Fmt) {m : Nat} (e : Int) (hm : m ≠ 0) :
    f.emin + f.scale (f.floorMag m e) = f.ulpExp m e := by
  have hunit := (floorMag_bracket f e hm).2.2
  rw [magReal_succ, add_right_inj] at hunit
  exact zpow_right_injective₀ (by norm_num) (by norm_num) hunit

/-- A value of the format is a multiple of its own unit, and of every smaller one. -/
theorem exists_magReal_eq_mul {f : Fmt} {h : Nat} {k : Int} (hk : k ≤ f.emin + f.scale h) :
    ∃ t : Nat, f.magReal h = t * 2 ^ k := by
  obtain ⟨sig, hsig, hlt, hnormal⟩ := scale_spec f h
  have hval := magReal_of (f := f) (f.scale h) sig hlt.le hnormal
  rw [← hsig, ← scaled_lower sig hk] at hval
  exact ⟨_, hval⟩

/-- The unit halves at most from one value to the one below it. -/
theorem scale_le_of_le_succ (f : Fmt) {g h : Nat} (hgh : g ≤ h + 1) : f.scale g ≤ f.scale h + 1 := by
  have hdiv : g / 2 ^ f.fracBits ≤ h / 2 ^ f.fracBits + 1 :=
    calc g / 2 ^ f.fracBits ≤ (h + 2 ^ f.fracBits) / 2 ^ f.fracBits :=
          Nat.div_le_div_right (hgh.trans (Nat.add_le_add_left Nat.one_le_two_pow h))
      _ = h / 2 ^ f.fracBits + 1 := Nat.add_div_right _ (by positivity)
  unfold Fmt.scale
  omega

/-- A significand four bits longer than the format's fraction: the values around it are multiples of four of its
units. -/
theorem exists_magReal_eq_four_units {f : Fmt} {S : Nat} {e : Int} (hS : 2 ^ (f.fracBits + 4) ≤ S) {h : Nat}
    (hh : f.floorMag S e ≤ h + 1) : ∃ t : Nat, f.magReal h = t * 2 ^ (e + 2) := by
  have hS0 : S ≠ 0 := (lt_of_lt_of_le (by positivity) hS).ne'
  have hlog : f.fracBits + 4 ≤ S.log2 := (Nat.le_log2 hS0).2 hS
  have hulp : e + S.log2 - f.fracBits ≤ f.ulpExp S e := le_max_right _ _
  have hunit := emin_add_scale_floorMag f e hS0
  have hscale := scale_le_of_le_succ f hh
  exact exists_magReal_eq_mul (by omega)

/-- So the midpoint between two of them is an even number of its units. -/
theorem exists_midpoint_eq_even {f : Fmt} {S : Nat} {e : Int} (hS : 2 ^ (f.fracBits + 4) ≤ S) {h : Nat}
    (hh : f.floorMag S e ≤ h + 1) :
    ∃ t : Nat, f.magReal h + f.magReal (h + 1) = 2 * ((2 * t : Nat) * 2 ^ e) := by
  obtain ⟨t, ht⟩ := exists_magReal_eq_four_units hS hh
  obtain ⟨t', ht'⟩ := exists_magReal_eq_four_units (e := e) (h := h + 1) hS (by omega)
  refine ⟨t + t', ?_⟩
  rw [ht, ht', zpow_add₀ two_ne_zero]
  push_cast
  ring

/-- Rounding a long significand compares it with even numbers of its units: one at or above it, which is the midpoint
above the result, and one at or below it, the midpoint below. -/
theorem roundMag_even_midpoints {f : Fmt} {S : Nat} {e : Int} (hF : 1 ≤ f.fracBits) (hS : 2 ^ (f.fracBits + 4) ≤ S)
    (hg : f.roundMag S e < f.infMag) :
    (∃ t : Nat, S ≤ 2 * t
        ∧ f.magReal (f.roundMag S e) + f.magReal (f.roundMag S e + 1) = 2 * ((2 * t : Nat) * 2 ^ e))
      ∧ ∀ h, h + 1 = f.roundMag S e →
        ∃ t : Nat, 2 * t ≤ S ∧ f.magReal h + f.magReal (h + 1) = 2 * ((2 * t : Nat) * 2 ^ e) := by
  have hS0 : S ≠ 0 := (lt_of_lt_of_le (by positivity) hS).ne'
  have hfloor := floorMag_le_roundMag hF hS0 hg
  have hpow : (0 : ℚ) < 2 ^ e := by positivity
  have hmid := roundMag_betweenMidpoints hF hg
  constructor
  · obtain ⟨t, ht⟩ := exists_midpoint_eq_even (e := e) (h := f.roundMag S e) hS (by omega)
    have habove := hmid.above
    rw [ht, mul_le_mul_iff_right₀ two_pos, mul_le_mul_iff_left₀ hpow] at habove
    exact ⟨t, by exact_mod_cast habove, ht⟩
  · intro h hh
    obtain ⟨t, ht⟩ := exists_midpoint_eq_even (e := e) (h := h) hS (by omega)
    have hbelow := hmid.below h hh
    rw [ht, mul_le_mul_iff_right₀ two_pos, mul_le_mul_iff_left₀ hpow] at hbelow
    exact ⟨t, by exact_mod_cast hbelow, ht⟩

/-! ### Quotients -/

/-- The sticky quotient lies on the side of an even number that twice the exact quotient lies on. -/
theorem le_stickyQuot_iff {N d : Nat} (hd : 0 < d) (t : Nat) : 2 * t ≤ stickyQuot N d ↔ t * d ≤ N := by
  rw [← Nat.le_div_iff_mul_le hd, stickyQuot]
  split <;> omega

theorem stickyQuot_le_iff {N d : Nat} (hd : 0 < d) (t : Nat) : stickyQuot N d ≤ 2 * t ↔ N ≤ t * d := by
  unfold stickyQuot
  split_ifs with hexact
  · obtain ⟨q, rfl⟩ := Nat.dvd_of_mod_eq_zero hexact
    rw [Nat.mul_div_cancel_left q hd, mul_comm d q, mul_le_mul_iff_left₀ hd]
    omega
  · have hne : N ≠ t * d := by
      rintro rfl
      exact hexact (Nat.mul_mod_left t d)
    have hlt : N / d < t ↔ N < t * d := Nat.div_lt_iff_lt_mul hd
    omega

/-- A long sticky quotient is rounded as twice the exact quotient would be. -/
theorem roundMag_stickyQuot {f : Fmt} {N d : Nat} {e : Int} (hF : 1 ≤ f.fracBits) (hd : 0 < d)
    (hlong : 2 ^ (f.fracBits + 4) ≤ stickyQuot N d) (hg : f.roundMag (stickyQuot N d) e < f.infMag) :
    BetweenMidpoints f (f.roundMag (stickyQuot N d) e) (2 * (N / d) * 2 ^ e) := by
  have hd' : (0 : ℚ) < d := by exact_mod_cast hd
  obtain ⟨⟨t, hle, habove⟩, hbelow⟩ := roundMag_even_midpoints hF hlong hg
  refine ⟨?_, fun h hh => ?_⟩
  · have hquot : (N : ℚ) / d ≤ t := (div_le_iff₀ hd').2 (by exact_mod_cast (stickyQuot_le_iff hd t).1 hle)
    rw [habove]
    push_cast
    gcongr
  · obtain ⟨t, hge, hmid⟩ := hbelow h hh
    have hquot : (t : ℚ) ≤ N / d := (le_div_iff₀ hd').2 (by exact_mod_cast (le_stickyQuot_iff hd t).1 hge)
    rw [hmid]
    push_cast
    gcongr

/-- The scaled numerator makes the quotient long enough for binary64. -/
theorem stickyQuot_scaled_ge {m d : Nat} (hm : 0 < m) (hd : 0 < d) :
    2 ^ (b64.fracBits + 4) ≤ stickyQuot (m * 2 ^ (56 + d.log2)) d := by
  show 2 * 2 ^ 55 ≤ _
  rw [le_stickyQuot_iff hd]
  calc 2 ^ 55 * d ≤ 2 ^ 55 * 2 ^ (d.log2 + 1) := Nat.mul_le_mul_left _ Nat.lt_log2_self.le
    _ = 1 * 2 ^ (56 + d.log2) := by rw [← pow_add, one_mul]; congr 1; omega
    _ ≤ m * 2 ^ (56 + d.log2) := Nat.mul_le_mul_right _ hm

/-- The exact quotient in units of the sticky one. -/
theorem quotient_in_units (m d k : Nat) (e e' : Int) :
    2 * (((m * 2 ^ k : Nat) : ℚ) / d) * 2 ^ (e - e' - k - 1) = m * 2 ^ e / (d * 2 ^ e') := by
  rw [zpow_sub_one₀ two_ne_zero, zpow_sub₀ two_ne_zero, zpow_sub₀ two_ne_zero, zpow_natCast]
  push_cast
  field_simp

theorem div_fin_fin (n n' : Bool) (m m' : Nat) (e e' : Int) (hm' : m' ≠ 0) :
    (FVal.fin n m e).div (.fin n' m' e')
      = .fin (n ^^ n') (stickyQuot (m * 2 ^ (56 + m'.log2)) m') (e - e' - (56 + m'.log2 : Nat) - 1) :=
  if_neg hm'

theorem signOf_div_signOf (n n' : Bool) (a b : ℚ) :
    signOf n * a / (signOf n' * b) = signOf (n ^^ n') * (a / b) := by
  cases n <;> cases n' <;> simp [neg_div, div_neg]

/-- Settles O58: a quotient of 0 is exact, every other one is long enough for its sticky bit. -/
theorem quotientsRoundToNearest : Obligations.QuotientsRoundToNearest := by
  intro n n' m m' e e' hm' a b hfin k g hg
  simp only [a, b, FVal.div64, div_fin_fin n n' m m' e e' hm'.ne', FVal.round, isFinite_value,
    decide_eq_true_eq] at hfin ⊢
  rw [value_real _ hfin, value_real k hg, real_fin, real_fin, mul_assoc, mul_assoc, signOf_div_signOf]
  rcases Nat.eq_zero_or_pos m with rfl | hm
  · simp [stickyQuot, Fmt.roundMag, -abs_mul]
  · have hnear := roundMag_stickyQuot (by decide) hm' (stickyQuot_scaled_ge hm hm') hfin
    rw [quotient_in_units] at hnear
    exact hnear.nearest_signed (by positivity) _ k g

/-! ### Roots -/

/-- The sticky root `FVal.sqrt` rounds: twice the root rounded down, plus 1 where that is not exact. -/
def stickyRoot (N : Nat) : Nat := 2 * isqrt N + (if isqrt N * isqrt N = N then 0 else 1)

/-- The radicand is scaled by at least 110 bits, to an even exponent. -/
theorem sqrt_fin {m : Nat} (e : Int) (hm : m ≠ 0) :
    ∃ (k : Nat) (j : Int), 110 ≤ k ∧ e = 2 * j + k
      ∧ (FVal.fin false m e).sqrt = .fin false (stickyRoot (m * 2 ^ k)) (j - 1) :=
  ⟨110 + (e % 2).toNat, (e - (110 + (e % 2).toNat : Nat)) / 2, by omega, by omega, if_neg hm⟩

theorem le_isqrt_iff (N t : Nat) : t ≤ isqrt N ↔ t * t ≤ N := by
  obtain ⟨hle, hlt⟩ := isqrt_spec N
  refine ⟨fun h => (Nat.mul_self_le_mul_self h).trans hle, fun h => ?_⟩
  exact Nat.le_of_lt_succ (Nat.mul_self_lt_mul_self_iff.1 (h.trans_lt hlt))

/-- The sticky root lies on the side of an even number that twice the exact root lies on. -/
theorem le_stickyRoot_iff (N t : Nat) : 2 * t ≤ stickyRoot N ↔ t * t ≤ N := by
  rw [← le_isqrt_iff, stickyRoot]
  split <;> omega

theorem stickyRoot_le_iff (N t : Nat) : stickyRoot N ≤ 2 * t ↔ N ≤ t * t := by
  unfold stickyRoot
  split_ifs with hexact
  · have hroot : isqrt N ≤ t ↔ N ≤ t * t := by rw [← Nat.mul_self_le_mul_self_iff, hexact]
    omega
  · have hne : N ≠ t * t := by
      rintro rfl
      refine hexact (congrArg (fun r => r * r) (le_antisymm ?_ ((le_isqrt_iff _ t).2 le_rfl)))
      exact Nat.mul_self_le_mul_self_iff.1 (isqrt_spec (t * t)).1
    have hroot := le_isqrt_iff N t
    omega

/-- The scaled radicand makes the root long enough for binary64. -/
theorem stickyRoot_scaled_ge {m k : Nat} (hm : 0 < m) (hk : 110 ≤ k) :
    2 ^ (b64.fracBits + 4) ≤ stickyRoot (m * 2 ^ k) := by
  show 2 * 2 ^ 55 ≤ _
  rw [le_stickyRoot_iff]
  calc 2 ^ 55 * 2 ^ 55 ≤ 1 * 2 ^ k := by
        rw [← pow_add, one_mul]
        exact Nat.pow_le_pow_right (by norm_num) hk
    _ ≤ m * 2 ^ k := Nat.mul_le_mul_right _ hm

/-- Half of a midpoint sum, squared, against a radicand. -/
theorem sq_half_midpoint {x : ℚ} {t : Nat} {j : Int} (hx : x = 2 * ((2 * t : Nat) * 2 ^ (j - 1))) :
    (x / 2) ^ 2 = (t * t : Nat) * 2 ^ (2 * j) := by
  rw [hx, zpow_sub_one₀ two_ne_zero, mul_comm 2 j, zpow_mul]
  push_cast
  rw [zpow_ofNat]
  ring

/-- A long sticky root is rounded as twice the exact root would be: the radicand lies between the squares of the
midpoints. -/
theorem roundMag_stickyRoot {f : Fmt} {N : Nat} {j : Int} (hF : 1 ≤ f.fracBits)
    (hlong : 2 ^ (f.fracBits + 4) ≤ stickyRoot N) (hg : f.roundMag (stickyRoot N) (j - 1) < f.infMag) :
    N * (2 : ℚ) ^ (2 * j)
        ≤ ((f.magReal (f.roundMag (stickyRoot N) (j - 1)) + f.magReal (f.roundMag (stickyRoot N) (j - 1) + 1)) / 2) ^ 2
      ∧ ∀ h, h + 1 = f.roundMag (stickyRoot N) (j - 1) →
        ((f.magReal h + f.magReal (h + 1)) / 2) ^ 2 ≤ N * (2 : ℚ) ^ (2 * j) := by
  obtain ⟨⟨t, hle, habove⟩, hbelow⟩ := roundMag_even_midpoints hF hlong hg
  refine ⟨?_, fun h hh => ?_⟩
  · have hroot : (N : ℚ) ≤ (t * t : Nat) := by exact_mod_cast (stickyRoot_le_iff N t).1 hle
    rw [sq_half_midpoint habove]
    gcongr
  · obtain ⟨t, hge, hmid⟩ := hbelow h hh
    have hroot : ((t * t : Nat) : ℚ) ≤ N := by exact_mod_cast (le_stickyRoot_iff N t).1 hge
    rw [sq_half_midpoint hmid]
    gcongr

/-- Settles O59: the radicand lies between the squares of the midpoints to the neighbours, so on the root's side of
every other midpoint. -/
theorem rootsRoundToNearest : Obligations.RootsRoundToNearest := by
  intro m e hm a r hfin
  obtain ⟨k, j, hk, he, hsqrt⟩ := sqrt_fin e hm.ne'
  have ha : a.real = (m * 2 ^ k : Nat) * (2 : ℚ) ^ (2 * j) := by
    simp only [a, real_fin, signOf_false, one_mul]
    rw [he, zpow_add₀ two_ne_zero, zpow_natCast]
    push_cast
    ring
  have hr : r = b64.value false (b64.roundMag (stickyRoot (m * 2 ^ k)) (j - 1)) := by
    simp only [r, a, FVal.sqrt64, hsqrt, FVal.round]
  rw [hr, isFinite_value, decide_eq_true_eq] at hfin
  obtain ⟨habove, hbelow⟩ := roundMag_stickyRoot (by decide) (stickyRoot_scaled_ge hm hk) hfin
  rw [hr, value_real false hfin, ha, signOf_false, one_mul]
  generalize b64.roundMag (stickyRoot (m * 2 ^ k)) (j - 1) = root at *
  have hmono := magReal_strictMono b64
  have hroot0 := magReal_nonneg b64 root
  refine ⟨hroot0, fun g hg => ?_⟩
  have hg0 := magReal_nonneg b64 g
  rw [value_real false hg, signOf_false, one_mul]
  constructor
  · intro hlt
    have hnext := hmono.monotone (show root + 1 ≤ g from hmono.lt_iff_lt.1 hlt)
    exact habove.trans (pow_le_pow_left₀ (by linarith [magReal_nonneg b64 (root + 1)]) (by linarith) 2)
  · intro hlt
    obtain ⟨h, rfl⟩ : ∃ h, h + 1 = root := ⟨root - 1, by have := hmono.lt_iff_lt.1 hlt; omega⟩
    have hprev := hmono.monotone (show g ≤ h from Nat.le_of_lt_succ (hmono.lt_iff_lt.1 hlt))
    refine (pow_le_pow_left₀ (by linarith) ?_ 2).trans (hbelow h rfl)
    linarith

end Sys2Proof
end

section
/-! PROOF. The Peak design at 0 dB, and at a boost (40_design.md R148, R149, R154). -/

namespace Sys2Proof

/-! ### Exact operations of binary64 -/

/-- Rounding depends on the exact value only, not on how it is written as a significand and an exponent. -/
theorem roundMag_congr {f : Fmt} (hF : 1 ≤ f.fracBits) {m m' : Nat} {e e' : Int}
    (h : m * (2 : ℚ) ^ e = m' * 2 ^ e') : f.roundMag m e = f.roundMag m' e' := by
  have hzero : m = 0 ↔ m' = 0 := by
    have hpow : (2 : ℚ) ^ e ≠ 0 := by positivity
    have hpow' : (2 : ℚ) ^ e' ≠ 0 := by positivity
    rw [← Nat.cast_eq_zero (R := ℚ), ← Nat.cast_eq_zero (R := ℚ), ← mul_left_inj' hpow, h, zero_mul,
      mul_eq_zero_iff_right hpow']
  rcases eq_or_ne m 0 with rfl | hm
  · rw [hzero.1 rfl]
    rfl
  · have hm' : m' ≠ 0 := hm ∘ hzero.2
    obtain ⟨lo, hi, -⟩ := floorMag_bracket f e' hm'
    have hfloor : f.floorMag m e = f.floorMag m' e' := floorMag_unique f e hm (h ▸ lo) (h ▸ hi)
    have hspec := roundMag_spec f e hF hm
    dsimp only at hspec
    rw [hfloor, h] at hspec
    rcases hspec with ⟨hr, hside⟩ | ⟨hr, hside⟩ <;>
      rcases roundMag_spec f e' hF hm' with ⟨hr', hside'⟩ | ⟨hr', hside'⟩
    · rw [hr, hr']
    · exfalso
      rcases hside with hlt | ⟨heq, heven⟩ <;> rcases hside' with hlt' | ⟨heq', hodd⟩ <;> linarith
    · exfalso
      rcases hside with hlt | ⟨heq, hodd⟩ <;> rcases hside' with hlt' | ⟨heq', heven⟩ <;> linarith
    · rw [hr, hr']

theorem round_fin_congr {f : Fmt} (hF : 1 ≤ f.fracBits) (n : Bool) {m m' : Nat} {e e' : Int}
    (h : m * (2 : ℚ) ^ e = m' * 2 ^ e') : (FVal.fin n m e).round f = (FVal.fin n m' e').round f := by
  simp only [FVal.round, roundMag_congr hF h]

theorem int64_one : int64 1 = .fin false (2 ^ 52) (-52) := by decide +kernel

/-- Multiplying a binary64 value by 1 gives it back. -/
theorem mul64_one {v : FVal} (hv : v.round b64 = v) : v.mul64 (int64 1) = v := by
  rw [int64_one]
  cases v with
  | nan => rfl
  | inf n => cases n <;> rfl
  | fin n m e =>
    have hexact : ((m * 2 ^ 52 : Nat) : ℚ) * 2 ^ (e + -52) = m * 2 ^ e := by
      rw [zpow_add₀ two_ne_zero]
      push_cast
      field_simp
      norm_num
    calc (FVal.fin n m e).mul64 (.fin false (2 ^ 52) (-52))
        = (FVal.fin (n ^^ false) (m * 2 ^ 52) (e + -52)).round b64 := rfl
      _ = (FVal.fin n m e).round b64 := by rw [Bool.xor_false, round_fin_congr (by decide) n hexact]
      _ = .fin n m e := hv

/-- A division that leaves no rest rounds the exact quotient, however that is written. -/
theorem div64_of_dvd (n n' : Bool) {m m' m'' : Nat} {e e' e'' : Int} (hm' : m' ≠ 0)
    (hdvd : m' ∣ m * 2 ^ (56 + m'.log2)) (h : m'' * (2 : ℚ) ^ e'' = m * 2 ^ e / (m' * 2 ^ e')) :
    (FVal.fin n m e).div64 (.fin n' m' e') = (FVal.fin (n ^^ n') m'' e'').round b64 := by
  obtain ⟨q, hq⟩ := hdvd
  have hsticky : stickyQuot (m' * q) m' = 2 * q := by
    rw [stickyQuot, Nat.mul_div_cancel_left q (Nat.pos_of_ne_zero hm'), if_pos (Nat.mul_mod_right m' q), Nat.add_zero]
  rw [FVal.div64, div_fin_fin n n' m m' e e' hm', hq, hsticky]
  refine round_fin_congr (by decide) _ ?_
  rw [h, ← quotient_in_units m m' (56 + m'.log2), hq]
  have hne : (m' : ℚ) ≠ 0 := by exact_mod_cast hm'
  push_cast
  field_simp

/-- Dividing a binary64 value by 1 gives it back. -/
theorem div64_one {v : FVal} (hv : v.round b64 = v) : v.div64 (int64 1) = v := by
  rw [int64_one]
  cases v with
  | nan => rfl
  | inf n => cases n <;> rfl
  | fin n m e =>
    have hdvd : 2 ^ 52 ∣ m * 2 ^ (56 + (2 ^ 52).log2) := (pow_dvd_pow 2 (by omega)).mul_left m
    rw [div64_of_dvd n false (by norm_num) hdvd (m'' := m) (e'' := e) (by norm_num), Bool.xor_false, hv]

/-- A binary64 value divided by itself is 1, where the quotient is finite. -/
theorem div64_self {v : FVal} (hfin : (v.div64 v).isFinite = true) : v.div64 v = int64 1 := by
  cases v with
  | nan => cases hfin
  | inf n => cases hfin
  | fin n m e =>
    have hm : m ≠ 0 := by
      rintro rfl
      cases hfin
    have hne : (m : ℚ) * 2 ^ e ≠ 0 := mul_ne_zero (Nat.cast_ne_zero.2 hm) (by positivity)
    rw [div64_of_dvd n n hm (Nat.dvd_mul_right m _) (m'' := 1) (e'' := 0) (by rw [div_self hne]; norm_num),
      Bool.xor_self]
    rfl

theorem isFinite_of_round {f : Fmt} {v : FVal} (h : (v.round f).isFinite = true) : v.isFinite = true := by
  by_contra hv
  exact absurd (round_notFinite f (eq_false_of_ne_true hv)) (ne_false_of_eq_true h)

namespace Machine

theorem CoefVals.isFinite_iff (c : CoefVals) :
    c.isFinite = true ↔ c.b0.isFinite = true ∧ c.b1.isFinite = true ∧ c.b2.isFinite = true ∧ c.a1.isFinite = true
      ∧ c.a2.isFinite = true := by
  simp only [CoefVals.isFinite, Bool.and_eq_true, and_assoc]

/-! ### The Peak formulas -/

/-- The Peak formulas for an amplitude, the angle's sine and cosine, and a quality (R149). -/
def peakSet (A s c q : FVal) : CoefVals :=
  let alpha := s.div64 ((int64 2).mul64 q)
  normalize
    ((int64 1).add64 (alpha.mul64 A)) ((int64 (-2)).mul64 c) ((int64 1).sub64 (alpha.mul64 A))
    ((int64 1).add64 (alpha.div64 A)) ((int64 (-2)).mul64 c) ((int64 1).sub64 (alpha.div64 A))

theorem peakDesign_eq (lm : Libm) (f fs gdb q : FVal) :
    peakDesign lm f fs gdb q
      = peakSet (peakAmplitude lm gdb) (call64 lm.sin (angle f fs)) (call64 lm.cos (angle f fs)) q := rfl

/-- With amplitude 1 the two halves of the set are the same, and the first value is a quotient of equals. -/
theorem peakSet_one (s c q : FVal) :
    ∃ a0 b1 b2 : FVal, peakSet (int64 1) s c q = normalize a0 b1 b2 a0 b1 b2 := by
  have halpha : (s.div64 ((int64 2).mul64 q)).round b64 = s.div64 ((int64 2).mul64 q) := round_round (by decide) _
  refine ⟨(int64 1).add64 (s.div64 ((int64 2).mul64 q)), (int64 (-2)).mul64 c,
    (int64 1).sub64 (s.div64 ((int64 2).mul64 q)), ?_⟩
  simp only [peakSet, mul64_one halpha, div64_one halpha]

/-- A finite set that is normalized by its own first value is the identity transfer function. -/
theorem normalize_same {a0 b1 b2 : FVal} (hfin : (normalize a0 b1 b2 a0 b1 b2).isFinite = true) :
    (normalize a0 b1 b2 a0 b1 b2).words.b0 = 0x3F800000#32
      ∧ (normalize a0 b1 b2 a0 b1 b2).words.b1 = (normalize a0 b1 b2 a0 b1 b2).words.a1
      ∧ (normalize a0 b1 b2 a0 b1 b2).words.b2 = (normalize a0 b1 b2 a0 b1 b2).words.a2 := by
  obtain ⟨hb0, -⟩ := (CoefVals.isFinite_iff _).1 hfin
  refine ⟨?_, rfl, rfl⟩
  show round32 (nanWord 0) ((a0.div64 a0).round b32) = _
  rw [div64_self (isFinite_of_round hb0)]
  decide +kernel

theorem peakAmplitude_zero_dB {lm : Libm} {gdb : FVal} (h : call64 lm.pow10 (gdb.div64 (int64 20)) = int64 1) :
    peakAmplitude lm gdb = int64 1 := by
  rw [peakAmplitude, h]
  decide +kernel

/-- The set at amplitude 2, sine 1 and cosine 3/4: alpha is 1 for quality 1/2, and 1/2 for quality 1. -/
theorem peakSet_boost_half :
    (peakSet (int64 4).sqrt64 (int64 1) (val64 0x3FE8000000000000#64) (widen 0x3F000000#32)).words
      = ⟨0x40000000#32, 0xBF800000#32, 0xBF2AAAAB#32, 0xBF800000#32, 0x3EAAAAAB#32⟩ := by decide +kernel

theorem peakSet_boost_one :
    (peakSet (int64 4).sqrt64 (int64 1) (val64 0x3FE8000000000000#64) (widen 0x3F800000#32)).words
      = ⟨0x3FCCCCCD#32, 0xBF99999A#32, 0x00000000#32, 0xBF99999A#32, 0x3F19999A#32⟩ := by decide +kernel

/-- The Peak set of a design, by its amplitude and the sine and cosine of its angle. -/
theorem design_pk (lm : Libm) (snap : Snapshot) :
    (design lm snap).pk = peakSet (peakAmplitude lm (widen snap.gdb))
      (call64 lm.sin (angle (widen (clampF snap.pkf snap.fs).1) (widen snap.fs)))
      (call64 lm.cos (angle (widen (clampF snap.pkf snap.fs).1) (widen snap.fs))) (widen (clampQ snap.q).1) := rfl

/-- Settles O55: at 0 dB the amplitude is 1 and numerator and denominator agree; at the boost the formulas are
computed. -/
theorem peakAtZeroDecibelsIsTheIdentity : Obligations.PeakAtZeroDecibelsIsTheIdentity := by
  refine ⟨fun lm f fs q hpow => ?_, fun lm snap => ?_⟩
  · obtain ⟨a0, b1, b2, hset⟩ := peakSet_one (call64 lm.sin (angle f fs)) (call64 lm.cos (angle f fs)) q
    simp only [peakDesign_eq, peakAmplitude_zero_dB hpow, hset]
    exact normalize_same
  · intro w0 hpow hsin hcos
    have hamp : peakAmplitude lm (widen snap.gdb) = (int64 4).sqrt64 := by rw [peakAmplitude, hpow]
    have hset : (design lm snap).pk
        = peakSet (int64 4).sqrt64 (int64 1) (val64 0x3FE8000000000000#64) (widen (clampQ snap.q).1) := by
      rw [design_pk, hamp, ← hsin, ← hcos]
      rfl
    constructor <;> intro hq <;> rw [hset, hq]
    · exact peakSet_boost_half
    · exact peakSet_boost_one

end Machine

end Sys2Proof
end

section
/-! PROOF. The cut designs: their counts, their finite check, what each stage depends on, and their sets' shapes and
values (40_design.md R150 to R158, 90_conflicts.md C8, C10, 43_magnitude.md R226). -/

namespace Sys2Proof

/-! ### Doubling and rounding -/

/-- The exact product with 2 as binary64 writes it. -/
theorem two_mul_eq (m : Nat) (e : Int) : ((2 ^ 52 * m : Nat) : ℚ) * 2 ^ (-51 + e) = 2 * (m * 2 ^ e) := by
  rw [zpow_add₀ two_ne_zero]
  push_cast
  ring

theorem int64_two : int64 2 = .fin false (2 ^ 52) (-51) := by decide +kernel

theorem int64_neg_two : int64 (-2) = .fin true (2 ^ 52) (-51) := by decide +kernel

/-- A rounded value that is finite is one of the format, of the sign and the magnitude rounding gives. -/
theorem round_finite {f : Fmt} {v : FVal} (h : (v.round f).isFinite = true) :
    ∃ n m e, v = .fin n m e ∧ v.round f = f.value n (f.roundMag m e) ∧ f.roundMag m e < f.infMag := by
  cases v with
  | nan => cases h
  | inf n => cases h
  | fin n m e => exact ⟨n, m, e, rfl, rfl, by simpa [FVal.round, isFinite_value] using h⟩

/-- −2 times a stored value, stored: exact where it does not overflow. -/
theorem neg_two_mul_round_real {v : FVal} (hv : (v.round b32).isFinite = true)
    (hfin : (((int64 (-2)).mul (v.round b32)).round b32).isFinite = true) :
    (((int64 (-2)).mul (v.round b32)).round b32).real = -2 * (v.round b32).real := by
  obtain ⟨n, m, e, -, hround, hg⟩ := round_finite hv
  obtain ⟨m', e', hvalue, hmag⟩ := value_finite n hg
  rw [hround, value_real n hg]
  rw [hround, hvalue, int64_neg_two] at hfin
  rw [hvalue, int64_neg_two]
  refine (round_double (by decide) (true ^^ n) ((two_mul_eq m' e').trans (by rw [hmag])) hfin).trans ?_
  rw [signOf_xor, signOf_true]
  ring

/-- A finite value that rounding keeps is one of the format's. -/
theorem exists_magReal_of_round_eq {f : Fmt} {n : Bool} {m : Nat} {e : Int}
    (hv : (FVal.fin n m e).round f = .fin n m e) : ∃ g, m * (2 : ℚ) ^ e = f.magReal g := by
  have hfin : ((FVal.fin n m e).round f).isFinite = true := by rw [hv]; rfl
  simp only [FVal.round, isFinite_value, decide_eq_true_eq] at hfin hv
  obtain ⟨m', e', hv', hr'⟩ := value_finite n hfin
  cases hv'.symm.trans hv
  exact ⟨_, hr'⟩

/-- Doubling a binary64 value in binary64 is exact, where it does not overflow. -/
theorem two_mul64_eq {n : Bool} {m : Nat} {e : Int} (hv : (FVal.fin n m e).round b64 = .fin n m e)
    (hfin : ((int64 2).mul64 (.fin n m e)).isFinite = true) :
    ∃ m' e', (int64 2).mul64 (.fin n m e) = .fin n m' e' ∧ m' * (2 : ℚ) ^ e' = 2 * (m * 2 ^ e) := by
  obtain ⟨g, hg⟩ := exists_magReal_of_round_eq hv
  obtain ⟨g', hg'⟩ := exists_magReal_double b64 g
  have hround := roundMag_of_magReal b64 (-51 + e) (by decide) ((two_mul_eq m e).trans (hg ▸ hg'.symm))
  have hmul : (int64 2).mul64 (.fin n m e) = b64.value n (min b64.infMag g') := by
    rw [int64_two, ← hround]
    show b64.value (false ^^ n) _ = _
    rw [Bool.false_xor]
  rw [hmul, isFinite_value, decide_eq_true_eq] at hfin
  obtain ⟨m', e', hv', hr'⟩ := value_finite n hfin
  exact ⟨m', e', hmul.trans hv', by rw [hr', min_eq_right (by omega), hg', hg]⟩

/-- The normal values of binary32 start at `2^-126`. -/
theorem b32_magReal_normal : b32.magReal (2 ^ 23) = (FVal.fin false 1 (-126)).real := by
  have h := magReal_of (f := b32) 0 (2 ^ 23) (by decide) (.inl rfl)
  rw [Nat.zero_mul, Nat.zero_add] at h
  rw [h, show b32.emin = -149 by decide]
  norm_num [real_fin]

/-- Twice a binary64 value, doubled in binary64 and stored, where the value itself is stored above the subnormals. -/
theorem round_two_mul64_real {v : FVal} (hv : v.round b64 = v) (hround : (v.round b32).isFinite = true)
    (hnormal : (FVal.fin false 1 (-126)).real < |(v.round b32).real|)
    (hfin : (((int64 2).mul64 v).round b32).isFinite = true) :
    (((int64 2).mul64 v).round b32).real = 2 * (v.round b32).real := by
  obtain ⟨n, m, e, rfl, hstored, hg⟩ := round_finite hround
  obtain ⟨m', e', hw, hdouble⟩ := two_mul64_eq hv (isFinite_of_round hfin)
  have habs : |signOf n * b32.magReal (b32.roundMag m e)| = b32.magReal (b32.roundMag m e) := by
    have h := abs_signOf_mul_sub n (b32.magReal (b32.roundMag m e)) 0
    rwa [mul_zero, sub_zero, sub_zero, abs_of_nonneg (magReal_nonneg b32 _)] at h
  rw [hstored, value_real n hg, habs, ← b32_magReal_normal] at hnormal
  have hlow : 2 ^ b32.fracBits < b32.roundMag m e := (magReal_strictMono b32).lt_iff_lt.1 hnormal
  have hmag := roundMag_double b32 (by decide) hdouble hlow
  rw [hw] at hfin ⊢
  simp only [FVal.round, isFinite_value, decide_eq_true_eq] at hfin ⊢
  rw [value_real n hfin, value_real n hg, hmag, min_eq_right (by omega), magReal_double b32 hlow.le]
  ring

namespace Machine

/-! ### The two cut formulas -/

/-- The first value of a cut set, `1 ÷ ((1 + iq × K) + K × K)` (R152, R153). -/
def cutGain (K q : FVal) : FVal :=
  (int64 1).div64 (((int64 1).add64 (((int64 1).div64 q).mul64 K)).add64 (K.mul64 K))

/-- The LowCut formulas for a tangent and a quality (R152). -/
def lowCutSet (K q : FVal) : CoefVals :=
  CoefVals.stored (cutGain K q) ((int64 (-2)).mul ((cutGain K q).round b32)) (cutGain K q)
    (((int64 2).mul64 (cutGain K q)).mul64 ((K.mul64 K).sub64 (int64 1)))
    ((cutGain K q).mul64 (((int64 1).sub64 (((int64 1).div64 q).mul64 K)).add64 (K.mul64 K)))

/-- The HighCut formulas for a cotangent and a quality (R153). -/
def highCutSet (n q : FVal) : CoefVals :=
  CoefVals.stored (cutGain n q) ((int64 2).mul64 (cutGain n q)) (cutGain n q)
    (((int64 2).mul64 (cutGain n q)).mul64 ((int64 1).sub64 (n.mul64 n)))
    ((cutGain n q).mul64 (((int64 1).sub64 (((int64 1).div64 q).mul64 n)).add64 (n.mul64 n)))

/-- The tangent a cut stage is designed with (R152, R153). -/
def cutTangent (lm : Libm) (f fs : FVal) : FVal := call64 lm.tan ((pi64.mul64 f).div64 fs)

theorem lowCutSection_eq (lm : Libm) (f fs q : FVal) :
    lowCutSection lm f fs q = lowCutSet (cutTangent lm f fs) q := rfl

theorem highCutSection_eq (lm : Libm) (f fs q : FVal) :
    highCutSection lm f fs q = highCutSet ((int64 1).div64 (cutTangent lm f fs)) q := rfl

/-- R151: the quality for the cosine of its slot. -/
def slotQuality (cosine : FVal) : FVal := (int64 1).div64 ((int64 2).mul64 cosine)

/-! ### The shapes of the sets -/

theorem lowCutSet_shape (K q : FVal) :
    (lowCutSet K q).words.b2 = (lowCutSet K q).words.b0
      ∧ ((lowCutSet K q).isFinite = true → (lowCutSet K q).b1.real = -2 * (lowCutSet K q).b0.real) := by
  refine ⟨rfl, fun hfin => ?_⟩
  obtain ⟨hb0, hb1, -⟩ := (CoefVals.isFinite_iff _).1 hfin
  exact neg_two_mul_round_real hb0 hb1

theorem highCutSet_shape (n q : FVal) :
    (highCutSet n q).words.b2 = (highCutSet n q).words.b0
      ∧ ((highCutSet n q).isFinite = true → (FVal.fin false 1 (-126)).real < |(highCutSet n q).b0.real| →
        (highCutSet n q).b1.real = 2 * (highCutSet n q).b0.real) := by
  refine ⟨rfl, fun hfin hnormal => ?_⟩
  obtain ⟨hb0, hb1, -⟩ := (CoefVals.isFinite_iff _).1 hfin
  exact round_two_mul64_real (round_round (by decide) _) hb0 hnormal hb1

/-- The cotangent of a tangent 0 is +∞, and with it a1 has the factor 1 − ∞. -/
theorem highCutSet_tangent_zero (q : FVal) : (highCutSet ((int64 1).div64 (int64 0)) q).isFinite = false := by
  have hcot : (int64 1).div64 (int64 0) = .inf false := by decide +kernel
  have hfactor : ((int64 1).sub64 ((FVal.inf false).mul64 (.inf false))).isFinite = false := by decide +kernel
  have ha1 : (highCutSet (.inf false) q).a1.isFinite = false :=
    round_notFinite b32 (round_notFinite b64 (mul_notFinite (.inr hfactor)))
  rw [hcot, ← Bool.not_eq_true, CoefVals.isFinite_iff, ha1]
  simp

/-! ### The values at the named points -/

theorem lowCutSet_zero_one : (lowCutSet (int64 0) (slotQuality (int64 1))).words
    = ⟨0x3F800000#32, 0xC0000000#32, 0x3F800000#32, 0xC0000000#32, 0x3F800000#32⟩ := by decide +kernel

theorem lowCutSet_one_one : (lowCutSet (int64 1) (slotQuality (int64 1))).words
    = ⟨0x3E800000#32, 0xBF000000#32, 0x3E800000#32, 0#32, 0#32⟩ := by decide +kernel

theorem lowCutSet_one_half : (lowCutSet (int64 1) (slotQuality (val64 0x3FE0000000000000#64))).words
    = ⟨0x3EAAAAAB#32, 0xBF2AAAAB#32, 0x3EAAAAAB#32, 0#32, 0x3EAAAAAB#32⟩ := by decide +kernel

theorem lowCutSet_half_one : (lowCutSet (val64 0x3FE0000000000000#64) (slotQuality (int64 1))).words
    = ⟨0x3EE38E39#32, 0xBF638E39#32, 0x3EE38E39#32, 0xBF2AAAAB#32, 0x3DE38E39#32⟩ := by decide +kernel

theorem highCutSet_one_one : (highCutSet ((int64 1).div64 (int64 1)) (slotQuality (int64 1))).words
    = ⟨0x3E800000#32, 0x3F000000#32, 0x3E800000#32, 0#32, 0#32⟩ := by decide +kernel

theorem highCutSet_one_half :
    (highCutSet ((int64 1).div64 (int64 1)) (slotQuality (val64 0x3FE0000000000000#64))).words
      = ⟨0x3EAAAAAB#32, 0x3F2AAAAB#32, 0x3EAAAAAB#32, 0#32, 0x3EAAAAAB#32⟩ := by decide +kernel

theorem highCutSet_half_one :
    (highCutSet ((int64 1).div64 (val64 0x3FE0000000000000#64)) (slotQuality (int64 1))).words
      = ⟨0x3DE38E39#32, 0x3E638E39#32, 0x3DE38E39#32, 0xBF2AAAAB#32, 0x3DE38E39#32⟩ := by decide +kernel

/-! ### The stages of a design -/

/-- R157: the finite check is that every designed set is finite. -/
theorem design_ok_iff (lm : Libm) (snap : Snapshot) :
    (design lm snap).ok = true ↔ (design lm snap).pk.isFinite = true
      ∧ (∀ c ∈ (design lm snap).lc, c.isFinite = true) ∧ ∀ c ∈ (design lm snap).hc, c.isFinite = true := by
  simp only [design, Bool.and_eq_true, List.all_eq_true, and_assoc]

/-- R158: a stage is a function of the rate and its own clamped settings. -/
theorem design_stages_congr (lm : Libm) {snap snap' : Snapshot} (hfs : snap'.fs = snap.fs) :
    ((clampF snap'.lcf snap.fs).1 = (clampF snap.lcf snap.fs).1 → snap'.nl = snap.nl →
        (design lm snap').lc = (design lm snap).lc)
      ∧ ((clampF snap'.hcf snap.fs).1 = (clampF snap.hcf snap.fs).1 → snap'.nh = snap.nh →
        (design lm snap').hc = (design lm snap).hc)
      ∧ ((clampF snap'.pkf snap.fs).1 = (clampF snap.pkf snap.fs).1 → snap'.gdb = snap.gdb →
        (clampQ snap'.q).1 = (clampQ snap.q).1 → (design lm snap').pk = (design lm snap).pk) := by
  simp only [design, hfs]
  refine ⟨fun hf hn => ?_, fun hf hn => ?_, fun hf hg hq => ?_⟩
  · rw [hf, hn]
  · rw [hf, hn]
  · rw [hf, hg, hq]

/-- The set in a slot of a cut stage, for the tangent at the stage's angle and the cosine at the slot's. -/
theorem slot_words {lm : Libm} {section1 : Libm → FVal → FVal → FVal → CoefVals} {formula : FVal → FVal → CoefVals}
    {f fs K cosine : FVal} {n : BitVec 2} {k : Nat} {w : CoefSet}
    (hsection : ∀ q, section1 lm f fs q = formula (cutTangent lm f fs) q) (hk : k < n.toNat + 1)
    (htan : cutTangent lm f fs = K)
    (hcos : call64 lm.cos (((int64 (2 * k + 1)).mul64 pi64).div64 (int64 (4 * (n.toNat + 1 : Nat)))) = cosine)
    (hwords : (formula K (slotQuality cosine)).words = w) :
    ((cutDesign lm section1 f fs n)[k]?).map CoefVals.words = some w := by
  rw [getElem?_cutDesign lm section1 f fs hk, butterworthQ_eq, hcos, hsection, htan, Option.map_some]
  exact congrArg some hwords

/-- Settles O54: the counts and the check from the design's definition, shapes and values from the two cut formulas. -/
theorem acceptedDesignsAreFiniteAndSized : Obligations.AcceptedDesignsAreFiniteAndSized := by
  intro lm snap d nl nh tanAt cosAt half
  refine ⟨⟨length_cutDesign .., length_cutDesign ..⟩, design_ok_iff lm snap, design_shadow_legal,
    fun snap' hfs => design_stages_congr lm hfs, fun c hc => ?_, fun c hc => ?_, fun k hk => ?_, fun k hk => ?_,
    fun htan c hc => ?_⟩
  · obtain ⟨q, rfl⟩ := mem_cutDesign hc
    exact lowCutSet_shape _ q
  · obtain ⟨q, rfl⟩ := mem_cutDesign hc
    exact highCutSet_shape _ q
  · have slot {K cosine w} := slot_words (lm := lm) (n := snap.nl) (K := K) (cosine := cosine) (w := w)
      (lowCutSection_eq lm (widen (clampF snap.lcf snap.fs).1) (widen snap.fs)) hk
    exact ⟨fun ht hc => slot ht hc lowCutSet_zero_one, fun ht hc => slot ht hc lowCutSet_one_one,
      fun ht hc => slot ht hc lowCutSet_one_half, fun ht hc => slot ht hc lowCutSet_half_one⟩
  · have slot {K cosine w} := slot_words (lm := lm) (n := snap.nh) (K := K) (cosine := cosine) (w := w)
      (formula := fun K => highCutSet ((int64 1).div64 K))
      (highCutSection_eq lm (widen (clampF snap.hcf snap.fs).1) (widen snap.fs)) hk
    exact ⟨fun ht hc => slot ht hc highCutSet_one_one, fun ht hc => slot ht hc highCutSet_one_half,
      fun ht hc => slot ht hc highCutSet_half_one⟩
  · obtain ⟨q, rfl⟩ := mem_cutDesign hc
    rw [highCutSection_eq, show cutTangent lm _ _ = int64 0 from htan]
    exact highCutSet_tangent_zero q

end Machine

end Sys2Proof
end

section
/-! PROOF. PROC as one pass over the nine sections, and what it leaves unchanged (41_process.md R170 to R174, R177). -/

namespace Sys2Proof.Machine

open Sys2Proof

/-! ### Which sections are processed -/

theorem processed_lcSec (ctrl : BitVec 3) (lc hc : Vector Bool 4) (k : Fin 4) :
    processed ctrl lc hc (lcSec k) = (!lcBypassed ctrl && lc[k]) :=
  dif_pos k.isLt

theorem processed_pkSec (ctrl : BitVec 3) (lc hc : Vector Bool 4) :
    processed ctrl lc hc pkSec = !pkBypassed ctrl := rfl

theorem processed_hcSec (ctrl : BitVec 3) (lc hc : Vector Bool 4) (k : Fin 4) :
    processed ctrl lc hc (hcSec k) = (!hcBypassed ctrl && hc[k]) := by
  have hcut : ¬ (hcSec k).val < 4 := by simp only [hcSec]; omega
  have hpeak : 5 ≤ (hcSec k).val := Nat.le_add_right 5 k.val
  rw [processed, dif_neg hcut, dif_pos hpeak]
  simp [hcSec]

/-! ### The chain as one fold -/

/-- One section of the pass: it processes the sample and its own delay state, or passes both on (R174). -/
def sectionPass (ftz : Bool) (s : State) (p : Flow) (sec : Fin 9) : Flow :=
  if processed s.ctrlBits s.actLC s.actHC sec then runSection ftz s.draws s.bank sec p else p

theorem sectionPass_of_unprocessed {s : State} {sec : Fin 9}
    (h : processed s.ctrlBits s.actLC s.actHC sec = false) (ftz : Bool) (p : Flow) :
    sectionPass ftz s p sec = p := by
  rw [sectionPass, h, if_neg Bool.false_ne_true]

/-- A cut stage behind its bypass bit is the pass over its four sections. -/
theorem cutStage_eq_pass {s : State} {bypassed : Bool} {act : Vector Bool 4} {secOf : Fin 4 → Fin 9}
    (hproc : ∀ k : Fin 4, processed s.ctrlBits s.actLC s.actHC (secOf k) = (!bypassed && act[k]))
    (ftz : Bool) (p : Flow) :
    (if bypassed then p else cutStage ftz s.draws s.bank act secOf p)
      = ([0, 1, 2, 3].map secOf).foldl (sectionPass ftz s) p := by
  cases bypassed with
  | true => simp [sectionPass_of_unprocessed, hproc]
  | false => simp [cutStage, sectionPass, hproc]

/-- The Peak stage behind its bypass bit is the pass over its one section. -/
theorem peakStage_eq_pass (ftz : Bool) (s : State) (p : Flow) :
    (if pkBypassed s.ctrlBits then p else peakStage ftz s.draws s.bank p) = sectionPass ftz s p pkSec := by
  rw [sectionPass, processed_pkSec]
  cases pkBypassed s.ctrlBits <;> rfl

/-- R174: LowCut, Peak and HighCut in turn are one pass over the sections in increasing order. -/
theorem chain_eq_pass (ftz : Bool) (s : State) (x : Word) :
    chain ftz s x = (List.finRange 9).foldl (sectionPass ftz s) (x, s.delay) := by
  have hsections : List.finRange 9 = [0, 1, 2, 3].map lcSec ++ pkSec :: [0, 1, 2, 3].map hcSec := by decide
  rw [hsections, List.foldl_append, List.foldl_cons, ← cutStage_eq_pass (processed_lcSec _ _ _), ← peakStage_eq_pass,
    ← cutStage_eq_pass (processed_hcSec _ _ _)]
  rfl

/-- A section that is not processed keeps its delay words along the pass. -/
theorem pass_delay_of_unprocessed {s : State} {sec : Fin 9} (h : processed s.ctrlBits s.actLC s.actHC sec = false)
    (ftz : Bool) (secs : List (Fin 9)) (p : Flow) :
    (secs.foldl (sectionPass ftz s) p).2[sec] = p.2[sec] := by
  induction secs generalizing p with
  | nil => rfl
  | cons i secs ih =>
    rw [List.foldl_cons, ih]
    cases hi : processed s.ctrlBits s.actLC s.actHC i with
    | false => rw [sectionPass_of_unprocessed hi]
    | true =>
      have hne : i ≠ sec := by
        rintro rfl
        exact absurd (hi.symm.trans h) (by decide)
      rw [sectionPass, hi, if_pos rfl, runSection_other _ _ _ p hne]

/-- Where no section is processed the pass changes nothing. -/
theorem pass_of_all_unprocessed {s : State} (h : ∀ sec : Fin 9, processed s.ctrlBits s.actLC s.actHC sec = false)
    (ftz : Bool) (secs : List (Fin 9)) (p : Flow) : secs.foldl (sectionPass ftz s) p = p :=
  List.foldl_fixed' (fun sec => sectionPass_of_unprocessed (h sec) ftz p) secs

/-! ### PROC -/

/-- R170: PROC answers the state the chain gives. -/
theorem exec_proc (x : Word) (s : State) : exec (.proc x) s = .next (s.process Config.ftz x) := rfl

/-- Settles O40: the chain is the pass over the sections, and the named list says which of them are processed. -/
theorem procPassesThroughTheProcessedSections : Obligations.ProcPassesThroughTheProcessedSections := by
  intro s x active pass
  have hactive : active = (List.finRange 9).map fun sec => (sec, processed s.ctrlBits s.actLC s.actHC sec) := by
    have hlc : lcBypassed s.ctrlBits = s.ctrl[0] := by simp [lcBypassed, State.ctrlBits]
    have hpk : pkBypassed s.ctrlBits = s.ctrl[1] := by simp [pkBypassed, State.ctrlBits]
    have hhc : hcBypassed s.ctrlBits = s.ctrl[2] := by simp [hcBypassed, State.ctrlBits]
    simp only [active, ← hlc, ← hpk, ← hhc]
    rfl
  have hpass : pass = chain Config.ftz s x := by
    rw [chain_eq_pass]
    simp only [pass, hactive, List.foldl_map]
    rfl
  refine ⟨?_, ?_⟩
  · rw [exec_proc, hpass]
    rfl
  · rw [hactive]
    simp

/-- Settles O42, from the pass over the sections. -/
theorem unprocessedSectionsKeepTheirState : Obligations.UnprocessedSectionsKeepTheirState := by
  intro s t x h
  cases h
  refine ⟨fun sec hsec => ?_, rfl, rfl⟩
  rw [State.process_delay, chain_eq_pass]
  exact pass_delay_of_unprocessed hsec _ _ _

/-- Settles O43: the pass changes neither the sample nor the delay state. -/
theorem bypassedChainPassesEveryBit : Obligations.BypassedChainPassesEveryBit := by
  intro s x h
  have hchain : chain Config.ftz s x = (x, s.delay) := by
    rw [chain_eq_pass, pass_of_all_unprocessed h]
  rw [exec_proc, State.process, hchain]
  rfl

end Sys2Proof.Machine
end

section
/-! PROOF. What the section step is worth, and how NaNs and infinities go through it (41_process.md R171, R178,
70_reset_and_hazards.md R322, log 18). -/

namespace Sys2Proof

/-- A word is a NaN exactly when its value is the one NaN value. -/
theorem isNaN32_iff_val32 (w : Word) : isNaN32 w = true ↔ val32 w = .nan := by
  rw [isNaN32]
  cases val32 w <;> simp [FVal.isNaN]

/-- The words of the two zeros. -/
theorem val32_of_zero {w : Word} (h : w = 0x00000000#32 ∨ w = 0x80000000#32) : ∃ n, val32 w = .fin n 0 b32.emin := by
  rcases h with rfl | rfl
  · exact ⟨false, by decide +kernel⟩
  · exact ⟨true, by decide +kernel⟩

/-- The words of the two infinities. -/
theorem val32_of_infinite {x : Word} (h : x = 0x7F800000#32 ∨ x = 0xFF800000#32) : ∃ sign, val32 x = .inf sign := by
  rcases h with rfl | rfl
  · exact ⟨false, by decide +kernel⟩
  · exact ⟨true, by decide +kernel⟩

/-- R178 case 2: a zero coefficient times an infinite sample is a NaN. -/
theorem zero_mul32_inf {b x : Word} {sign : Bool} (hb : b = 0x00000000#32 ∨ b = 0x80000000#32)
    (hx : val32 x = .inf sign) (ftz : Bool) : mul32 ftz (val32 b) (val32 x) = .nan := by
  obtain ⟨n, hzero⟩ := val32_of_zero hb
  have hflush : flush ftz (.fin n 0 b32.emin) = .fin n 0 b32.emin := by cases ftz <;> rfl
  rw [hzero, hx, mul32, op32, hflush]
  rfl

namespace Machine

/-! ### The section step in values -/

@[simp] theorem val32_bq_out (ftz : Bool) (n : Nat) (c : CoefSet) (s : Delay) (x : Word) :
    val32 (bq ftz n c s x).1 = bqOut ftz c s (val32 x) :=
  (val32_drawn _ _).trans (op32_round ..)

@[simp] theorem val32_bq_s1 (ftz : Bool) (n : Nat) (c : CoefSet) (s : Delay) (x : Word) :
    val32 (bq ftz n c s x).2.s1 = bqState1 ftz c s (val32 x) (bqOut ftz c s (val32 x)) :=
  (val32_drawn _ _).trans (op32_round ..)

@[simp] theorem val32_bq_s2 (ftz : Bool) (n : Nat) (c : CoefSet) (s : Delay) (x : Word) :
    val32 (bq ftz n c s x).2.s2 = bqState2 ftz c (val32 x) (bqOut ftz c s (val32 x)) :=
  (val32_drawn _ _).trans (op32_round ..)

/-- Settles O41: each result is the word of its formula's value, which is a binary32 value. -/
theorem sectionStepIsTransposedDirectFormTwo : Obligations.SectionStepIsTransposedDirectFormTwo :=
  fun ftz n c s x => ⟨val32_bq_out ftz n c s x, val32_bq_s1 ftz n c s x, val32_bq_s2 ftz n c s x⟩

/-! ### NaNs through the section step -/

/-- A NaN output makes all three words NaNs, through `a1 ⊗ y` and `a2 ⊗ y` (R178 case 1). -/
theorem bq_isNaN_of_out {ftz : Bool} {c : CoefSet} {s : Delay} {x : Word} (n : Nat)
    (h : bqOut ftz c s (val32 x) = .nan) :
    isNaN32 (bq ftz n c s x).1 = true ∧ isNaN32 (bq ftz n c s x).2.s1 = true
      ∧ isNaN32 (bq ftz n c s x).2.s2 = true := by
  simp [isNaN32_iff_val32, h, bqState1, bqState2]

theorem bqOut_nan {ftz : Bool} {c : CoefSet} {s : Delay} {x : FVal} (h : x = .nan ∨ val32 s.s1 = .nan) :
    bqOut ftz c s x = .nan := by
  rcases h with rfl | h
  · simp [bqOut]
  · simp [bqOut, h]

/-- A NaN in the second delay word is in the first after one PROC (log 18). -/
theorem bq_s1_isNaN_of_s2 {s : Delay} (ftz : Bool) (n : Nat) (c : CoefSet) (x : Word) (h : isNaN32 s.s2 = true) :
    isNaN32 (bq ftz n c s x).2.s1 = true := by
  rw [isNaN32_iff_val32] at h
  simp [isNaN32_iff_val32, bqState1, h]

/-! ### What is not finite stays so -/

/-- What is not finite in the first delay word reaches the output and, through it, both new delay words. -/
theorem bq_notFinite_of_s1 {s : Delay} (ftz : Bool) (n : Nat) (c : CoefSet) (x : Word)
    (h : isFinite32 s.s1 = false) :
    isFinite32 (bq ftz n c s x).1 = false ∧ isFinite32 (bq ftz n c s x).2.s1 = false
      ∧ isFinite32 (bq ftz n c s x).2.s2 = false := by
  have hy : (bqOut ftz c s (val32 x)).isFinite = false := op32_notFinite ftz add_notFinite (.inr h)
  have hfeedback (a b : FVal) : (sub32 ftz b (mul32 ftz a (bqOut ftz c s (val32 x)))).isFinite = false :=
    op32_notFinite ftz sub_notFinite (.inr (op32_notFinite ftz mul_notFinite (.inr hy)))
  simp only [isFinite32, val32_bq_out, val32_bq_s1, val32_bq_s2]
  exact ⟨hy, op32_notFinite ftz add_notFinite (.inl (hfeedback _ _)), hfeedback _ _⟩

theorem bq_s1_notFinite_of_s2 {s : Delay} (ftz : Bool) (n : Nat) (c : CoefSet) (x : Word)
    (h : isFinite32 s.s2 = false) : isFinite32 (bq ftz n c s x).2.s1 = false := by
  rw [isFinite32, val32_bq_s1]
  exact op32_notFinite ftz add_notFinite (.inr h)

/-! ### An infinite sample -/

/-- The NaN of a zero coefficient and an infinite sample reaches every result whose formula it stands in. -/
theorem bq_zeroCoefficient_isNaN {x : Word} {sign : Bool} (hx : val32 x = .inf sign) (ftz : Bool) (n : Nat)
    (c : CoefSet) (s : Delay) :
    (c.b0 = 0x00000000#32 ∨ c.b0 = 0x80000000#32 →
        isNaN32 (bq ftz n c s x).1 = true ∧ isNaN32 (bq ftz n c s x).2.s1 = true
          ∧ isNaN32 (bq ftz n c s x).2.s2 = true)
      ∧ (c.b1 = 0x00000000#32 ∨ c.b1 = 0x80000000#32 → isNaN32 (bq ftz n c s x).2.s1 = true)
      ∧ (c.b2 = 0x00000000#32 ∨ c.b2 = 0x80000000#32 → isNaN32 (bq ftz n c s x).2.s2 = true) := by
  refine ⟨fun hb => bq_isNaN_of_out n ?_, fun hb => ?_, fun hb => ?_⟩
  · simp [bqOut, zero_mul32_inf hb hx]
  · simp [isNaN32_iff_val32, bqState1, zero_mul32_inf hb hx]
  · simp [isNaN32_iff_val32, bqState2, zero_mul32_inf hb hx]

/-- Through an identity section at rest an infinite sample comes out as itself. -/
theorem bq_identity_inf {x : Word} {sign : Bool} (hx : val32 x = .inf sign) (ftz : Bool) (n : Nat) :
    (bq ftz n CoefSet.identity Delay.zero x).1 = x := by
  have hout : ∀ ftz sign : Bool, bqOut ftz CoefSet.identity Delay.zero (.inf sign) = .inf sign := by decide +kernel
  have hval : val32 (bq ftz n CoefSet.identity Delay.zero x).1 = .inf sign := by rw [val32_bq_out, hx, hout]
  rw [(val32_eq_inf_iff _ _).1 hval, (val32_eq_inf_iff _ _).1 hx]

/-- Settles O45, from what a NaN, a value that is not finite and an infinite sample do to the section step. -/
theorem naNsAndInfinitiesPoisonASection : Obligations.NaNsAndInfinitiesPoisonASection := by
  refine ⟨fun ftz n c s x h => ?_, fun ftz n c s x => ?_, fun ftz n x h => ?_⟩
  · rw [isNaN32_iff_val32, isNaN32_iff_val32] at h
    exact bq_isNaN_of_out n (bqOut_nan h)
  · exact ⟨bq_s1_isNaN_of_s2 ftz n c x, bq_notFinite_of_s1 ftz n c x, bq_s1_notFinite_of_s2 ftz n c x⟩
  · obtain ⟨sign, hx⟩ := val32_of_infinite h
    obtain ⟨-, hs1, hs2⟩ := bq_zeroCoefficient_isNaN hx ftz n CoefSet.identity Delay.zero
    exact ⟨bq_zeroCoefficient_isNaN hx ftz n, bq_identity_inf hx ftz n, hs1 (.inl rfl), hs2 (.inl rfl)⟩

end Machine

end Sys2Proof
end

section
/-! PROOF. The UPDATE command, each step of its commit sequence, and runs of whole UPDATEs (42_update.md R190 to
R203). -/

namespace Sys2Proof.Machine

open Sys2Proof

/-! ### The command -/

/-- Raising under a condition, as one bit of the sticky byte. -/
theorem raiseIf_eq (s : State) (c : Bool) (e : ErrBit) :
    s.raiseIf c e = { s with sticky := s.sticky ||| if c then 1#8 <<< e.index else 0#8 } := by
  cases c with
  | true => rfl
  | false => simp [State.raiseIf]

/-- R190 to R193: at a valid rate, the flags of the clamps, and then the start or the rejection. -/
theorem acceptUpdate_validRate {s : State} (lm : Libm) (hfs : fsValid s.fs = true) :
    let d := design lm s.snapshot
    let flags := (if d.clampF then 0x02#8 else 0#8) ||| (if d.clampQ then 0x04#8 else 0#8)
    s.acceptUpdate lm =
      if d.ok then { s with sticky := s.sticky ||| flags, seq := .upd 0 d.shadow s.fs }
      else { s with sticky := s.sticky ||| flags ||| 0x08#8 } := by
  have hclamps (c c' : Bool) : (s.raiseIf c .clampF).raiseIf c' .clampQ
      = { s with sticky := s.sticky ||| ((if c then 0x02#8 else 0#8) ||| if c' then 0x04#8 else 0#8) } := by
    rw [raiseIf_eq, raiseIf_eq, ← BitVec.or_assoc]
    rfl
  simp only [State.acceptUpdate, hfs, if_true, hclamps]
  rfl

/-- Settles O29: the accept part at an invalid rate raises ERR_FS, which is bit 0. -/
theorem updateWithAnInvalidRateOnlyRaisesErrFs : Obligations.UpdateWithAnInvalidRateOnlyRaisesErrFs := by
  intro s hidle hfs
  rw [exec_update_idle hidle, acceptUpdate_invalidRate _ hfs]
  rfl

/-- Settles O30: the accept part at a valid rate, for the snapshot of the settings registers. -/
theorem updateDesignsAndStartsItsCommits : Obligations.UpdateDesignsAndStartsItsCommits := by
  intro s hidle hfs
  rw [exec_update_idle hidle, acceptUpdate_validRate _ hfs]
  rfl

/-! ### The steps -/

/-- A sequencer step of an UPDATE that is next is taken. -/
theorem step_update {s : State} {rest : List Event} {k : Fin 10} {sh : Shadow} {f : Word}
    (hnext : sequencerNext s rest) (hseq : s.seq = .upd k sh f) :
    step s = .next ((s.withInbox rest).updateStep k sh f) := by
  rw [step_sequencer hnext, sequencerStep_upd (s := s.withInbox rest) _ hseq]

/-- Settles O32: step 0 sets entry 4 of the bank. -/
theorem peakCommitReplacesThePeakSet : Obligations.PeakCommitReplacesThePeakSet := by
  intro s rest sh f hnext hseq
  exact ⟨s.bank.set 4 sh.pk, step_update hnext hseq, Vector.getElem_set_self _,
    fun sec hne => Vector.getElem_set_ne _ _ fun h => hne (Fin.ext h.symm)⟩

/-- Settles O33: what a LowCut and a HighCut commit do to every flag and every section. -/
theorem cutCommitsTakeSlotAndFlagTogether : Obligations.CutCommitsTakeSlotAndFlagTogether := by
  intro s rest sh f j k hnext hseq
  refine ⟨fun hj => ?_, fun hj => ?_⟩
  · have hk : 1 + k.val < 9 := by omega
    obtain rfl : j = ⟨1 + k.val, hk.trans (by decide)⟩ := Fin.ext hj
    obtain ⟨bank, act, hcommit, hact, hbank⟩ := commitLC_spec (s.withInbox rest) sh k
    refine ⟨bank, act, ⟨1 + k.val + 1, by omega⟩, ?_, rfl, hact, hbank⟩
    rw [step_update hnext hseq, updateStep_lt _ _ _ hk, commit_eq_commitLC, hcommit]
    rfl
  · have hk : 5 + k.val < 9 := by omega
    obtain rfl : j = ⟨5 + k.val, hk.trans (by decide)⟩ := Fin.ext hj
    obtain ⟨bank, act, hcommit, hact, hbank⟩ := commitHC_spec (s.withInbox rest) sh k
    refine ⟨bank, act, ⟨5 + k.val + 1, by omega⟩, ?_, rfl, hact, hbank⟩
    rw [step_update hnext hseq, updateStep_lt _ _ _ hk, commit_eq_commitHC, hcommit]
    rfl

/-- Settles O34: step 9 is the done step. -/
theorem doneStepCountsTheUpdate : Obligations.DoneStepCountsTheUpdate := by
  intro s rest sh f hnext hseq
  exact ⟨s.gen + 1#32, step_update hnext hseq, BitVec.toNat_add _ _⟩

/-! ### What no part of an UPDATE writes -/

/-- R198, R199, R201: a step of an UPDATE writes the filter, GEN, ACTIVE_FS and the sequencer's state. -/
theorem updateStep_frame (s : State) (k : Fin 10) (sh : Shadow) (f : Word) :
    ∃ bank lc hc gen fs seq, s.updateStep k sh f
      = { s with bank := bank, actLC := lc, actHC := hc, gen := gen, activeFs := fs, seq := seq } := by
  by_cases hk : k.val < 9
  · obtain ⟨bank, lc, hc, hcommit⟩ := commit_frame s k sh
    rw [updateStep_lt s sh f hk, hcommit]
    exact ⟨bank, lc, hc, _, _, _, rfl⟩
  · obtain rfl : k = 9 := by omega
    exact ⟨_, _, _, _, _, _, rfl⟩

/-- R190: the command writes the sticky byte and the sequencer's state, accepted or not, dropped or not. -/
theorem exec_update_frame {s t : State} (h : exec .update s = .next t) :
    ∃ sticky seq, t = { s with sticky := sticky, seq := seq } := by
  obtain ⟨k, q, d, hrun, -, -, hdelay⟩ := runCommand_frame s Config.libm .update
  obtain rfl : d = s.delay := hdelay.resolve_right fun ⟨hclear, _⟩ => nomatch hclear
  cases (exec_command s .update).symm.trans h
  exact ⟨k, q, hrun⟩

/-- Settles O38: the frame of the command, and that of a step of its sequence. -/
theorem updateLeavesEverythingElseAlone : Obligations.UpdateLeavesEverythingElseAlone := by
  rintro s t (hexec | ⟨k, sh, f, rest, hseq, hnext, hstep⟩)
  · obtain ⟨sticky, seq, rfl⟩ := exec_update_frame hexec
    exact ⟨rfl, rfl, rfl, rfl, rfl, rfl, rfl, rfl, rfl, rfl, rfl, rfl, rfl⟩
  · cases (step_update hnext hseq).symm.trans hstep
    obtain ⟨bank, lc, hc, gen, fs, seq, hframe⟩ := updateStep_frame (s.withInbox rest) k sh f
    rw [hframe]
    exact ⟨rfl, rfl, rfl, rfl, rfl, rfl, rfl, rfl, rfl, rfl, rfl, rfl, rfl⟩

/-! ### A whole UPDATE -/

/-- Settles O35: nine commit steps leave the sequencer in the UPDATE, and the tenth is the done step. -/
theorem updateCompletesInTenSteps : Obligations.UpdateCompletesInTenSteps := by
  intro s sh f hinbox hseq
  refine ⟨fun n hn => ?_, ?_⟩
  · obtain ⟨u, hrun, hu, -⟩ := run_committed hinbox hseq n hn
    exact ⟨u, hrun, (busy_iff u).2 (by simp [hu])⟩
  · obtain ⟨u, hrun, hc⟩ := run_update hinbox hseq
    refine ⟨_, hrun, ?_, fun k => (hc.actLC k).trans (if_pos (by omega)),
      fun k => (hc.actHC k).trans (if_pos (by omega)), hc.peak.trans (if_pos (by decide)),
      fun k => (hc.lowCut k).trans (if_pos (by omega)), fun k => (hc.highCut k).trans (if_pos (by omega))⟩
    obtain ⟨bank, lc, hc, seq, rfl⟩ := hc.frame
    rfl

/-! ### Repeated UPDATEs -/

/-- A run of sequencer steps, its last step taken off. -/
theorem sequencerSteps_succ (lm : Libm) (n : Nat) (s : State) :
    sequencerSteps lm (n + 1) s = (sequencerSteps lm n s).sequencerStep lm := by
  induction n generalizing s with
  | zero => rfl
  | succ n ih => exact ih (s.sequencerStep lm)

theorem sequencerSteps_idle {s : State} (lm : Libm) (hidle : s.seq = .idle) (n : Nat) :
    sequencerSteps lm n s = s := by
  induction n with
  | zero => rfl
  | succ n ih => rw [sequencerSteps_succ, ih, sequencerStep_idle lm hidle]

/-- The first `k` sequencer steps of an UPDATE commit the first `k` entries of the table, for any Libm. -/
theorem sequencerSteps_committed {s : State} {sh : Shadow} {f : Word} (lm : Libm) (hseq : s.seq = .upd 0 sh f)
    (k : Nat) (hk : k < 10) :
    (sequencerSteps lm k s).seq = .upd ⟨k, hk⟩ sh f ∧ Committed s sh k (sequencerSteps lm k s) := by
  induction k with
  | zero => exact ⟨hseq, committed_zero s sh⟩
  | succ k ih =>
    obtain ⟨hu, hc⟩ := ih (by omega)
    rw [sequencerSteps_succ, sequencerStep_upd lm hu, updateStep_lt _ _ _ (by show k < 9; omega)]
    exact ⟨rfl, committed_succ (k := ⟨k, by omega⟩) hc _⟩

/-- The ten steps of an UPDATE, for any Libm: the whole table, then done. -/
theorem sequencerSteps_update {s : State} {sh : Shadow} {f : Word} (lm : Libm) (hseq : s.seq = .upd 0 sh f) :
    ∃ u, sequencerSteps lm 10 s = u.finishUpdate f ∧ Committed s sh 9 u := by
  obtain ⟨hu, hc⟩ := sequencerSteps_committed lm hseq 9 (by omega)
  exact ⟨_, (sequencerSteps_succ lm 9 s).trans (sequencerStep_upd lm hu), hc⟩

/-- The snapshot gives a design that an UPDATE commits (R191, R192). -/
def Snapshot.accepted (lm : Libm) (snap : Snapshot) : Prop := fsValid snap.fs = true ∧ (design lm snap).ok = true

/-- R191, R192: an UPDATE that is not accepted leaves flags only. -/
theorem updateRun_rejected {s : State} {lm : Libm} (hidle : s.seq = .idle) (hrejected : ¬ s.snapshot.accepted lm) :
    ∃ k, updateRun lm s = { s with sticky := k } := by
  obtain ⟨k, hk⟩ : ∃ k, s.acceptUpdate lm = { s with sticky := k } := by
    cases hfs : fsValid s.fs with
    | false => exact ⟨_, acceptUpdate_invalidRate lm hfs⟩
    | true =>
      obtain ⟨k, hk, -⟩ := acceptUpdate_rejected hfs (Bool.eq_false_iff.2 fun hok => hrejected ⟨hfs, hok⟩)
      exact ⟨k, hk⟩
  exact ⟨k, by rw [updateRun, hk, sequencerSteps_idle (s := { s with sticky := k }) lm hidle]⟩

/-- What an accepted UPDATE makes of `s`: its designed sets and act flags, with everything the next one reads as it
was. -/
structure Installed (s : State) (sh : Shadow) (t : State) : Prop where
  idle : t.seq = .idle
  snapshot : t.snapshot = s.snapshot
  actLC : ∀ i : Fin 4, t.actLC[i] = decide (i.val < sh.lc.length)
  actHC : ∀ i : Fin 4, t.actHC[i] = decide (i.val < sh.hc.length)
  peak : t.bank[(4 : Fin 9)] = sh.pk
  lowCut : ∀ i : Fin 4, t.bank[lcSec i] = sh.lc[i.val]?.getD s.bank[lcSec i]
  highCut : ∀ i : Fin 4, t.bank[hcSec i] = sh.hc[i.val]?.getD s.bank[hcSec i]

/-- R193 to R199: an accepted UPDATE installs its design. -/
theorem updateRun_accepted {s : State} {lm : Libm} (haccepted : s.snapshot.accepted lm) :
    Installed s (design lm s.snapshot).shadow (updateRun lm s) := by
  obtain ⟨hfs, hok⟩ := haccepted
  obtain ⟨k, hk⟩ := acceptUpdate_accepted (s := s) hfs hok
  obtain ⟨u, hrun, hc⟩ := sequencerSteps_update (s := { s with sticky := k, seq := _ }) lm rfl
  rw [updateRun, hk, hrun]
  refine ⟨rfl, ?_, fun i => (hc.actLC i).trans (if_pos (by omega)), fun i => (hc.actHC i).trans (if_pos (by omega)),
    hc.peak.trans (if_pos (by decide)), fun i => (hc.lowCut i).trans (if_pos (by omega)),
    fun i => (hc.highCut i).trans (if_pos (by omega))⟩
  obtain ⟨_, _, _, _, rfl⟩ := hc.frame
  rfl

/-- Installing the same design a second time changes no bit of the filter: a slot's designed set replaces itself. -/
theorem Installed.again {s t u : State} {sh : Shadow} (h : Installed s sh t) (h' : Installed t sh u) :
    u.bank = t.bank ∧ u.actLC = t.actLC ∧ u.actHC = t.actHC := by
  have hbank (sec : Fin 9) : u.bank[sec] = t.bank[sec] := by
    rcases section_cases sec with rfl | ⟨i, rfl⟩ | ⟨i, rfl⟩
    · rw [h'.peak, h.peak]
    · rw [h'.lowCut, h.lowCut, ← Option.getD_or, Option.or_self]
    · rw [h'.highCut, h.highCut, ← Option.getD_or, Option.or_self]
  exact ⟨Vector.ext fun i hi => hbank ⟨i, hi⟩,
    Vector.ext fun i hi => (h'.actLC ⟨i, hi⟩).trans (h.actLC ⟨i, hi⟩).symm,
    Vector.ext fun i hi => (h'.actHC ⟨i, hi⟩).trans (h.actHC ⟨i, hi⟩).symm⟩

/-- Settles O37: a design that is not accepted leaves the filter alone both times, an accepted one is a function of
the same snapshot both times. -/
theorem repeatedUpdatesInstallTheSameBits : Obligations.RepeatedUpdatesInstallTheSameBits := by
  intro lm s hidle
  by_cases haccepted : s.snapshot.accepted lm
  · have first := updateRun_accepted haccepted
    have second := updateRun_accepted (s := updateRun lm s) (first.snapshot.symm ▸ haccepted)
    rw [first.snapshot] at second
    exact first.again second
  · obtain ⟨k, hk⟩ := updateRun_rejected hidle haccepted
    obtain ⟨k', hk'⟩ := updateRun_rejected (s := { s with sticky := k }) hidle haccepted
    rw [hk, hk']
    exact ⟨rfl, rfl, rfl⟩

end Sys2Proof.Machine
end

section
/-! PROOF. The command MAG, and what an instruction leaves alone before its completion step (43_magnitude.md R220,
R224). -/

namespace Sys2Proof.Machine

open Sys2Proof

/-- The command MAG on an idle block is its accept part. -/
theorem exec_mag_idle {s : State} (hidle : s.seq = .idle) : exec .mag s = .next s.acceptMag :=
  congrArg Host.Outcome.next (whenIdle_idle State.acceptMag hidle)

/-- R220: with a valid rate and a finite frequency the accept part starts and raises nothing. -/
theorem acceptMag_accepted {s : State} (hfs : fsValid s.fs = true) (hfreq : isFinite32 s.magFreq = true) :
    s.acceptMag = { s with seq := .mag s.magFreq s.fs s.ctrlBits } := by
  simp [State.acceptMag, State.raiseIf, hfs, hfreq]

/-- R220: otherwise it raises the flag of each condition that fails, ERR_FS at bit 0 and ERR_ARG at bit 4. -/
theorem acceptMag_rejected {s : State} (h : fsValid s.fs = false ∨ isFinite32 s.magFreq = false) :
    s.acceptMag = { s with sticky := s.sticky
      ||| (if fsValid s.fs then 0#8 else 0x01#8) ||| (if isFinite32 s.magFreq then 0#8 else 0x10#8) } := by
  have hreject : ¬ (fsValid s.fs && isFinite32 s.magFreq) = true :=
    ne_true_of_eq_false (Bool.and_eq_false_iff.2 h)
  rw [State.acceptMag, if_neg hreject, raiseIf_eq, raiseIf_eq]
  cases fsValid s.fs <;> cases isFinite32 s.magFreq <;> rfl

/-- Settles O31: the accept part with no flag raised, and with at least one. -/
theorem magChecksItsArgumentsAndStarts : Obligations.MagChecksItsArgumentsAndStarts := by
  intro s hidle
  rw [exec_mag_idle hidle]
  exact ⟨fun hfs hfreq => congrArg _ (acceptMag_accepted hfs hfreq), fun h => congrArg _ (acceptMag_rejected h)⟩

/-- Settles O50: no instruction writes the filter, and none the sequencer's state while it is not idle. -/
theorem bankIsStableDuringAMag : Obligations.BankIsStableDuringAMag := by
  rintro s t f fs ctrl i hseq ⟨p, rest, hinbox, hdecode⟩ hstep
  have frame := exec_frame ((step_port hinbox hdecode).symm.trans hstep)
  have hbusy : (s.withInbox rest).seq ≠ .idle := by simp [hseq]
  exact ⟨frame.bank, frame.actLC, frame.actHC, (frame.busy hbusy).trans hseq⟩

end Sys2Proof.Machine
end

section
/-! PROOF. Signs and zeros through the operations of binary64, and sums that it holds exactly (40_design.md R140,
R143). -/

namespace Sys2Proof

/-! ### Signs -/

/-- The sign bit of a value; a NaN has none. -/
def FVal.sign : FVal → Bool
  | .nan => false
  | .inf n => n
  | .fin n _ _ => n

/-- Rounding keeps the sign, an overflow included. -/
theorem sign_round (f : Fmt) (v : FVal) : (v.round f).sign = v.sign := by
  cases v with
  | nan => rfl
  | inf n => rfl
  | fin n m e =>
    rcases (roundMag_le f m e).lt_or_eq with hlt | heq
    · obtain ⟨m', e', hv, -⟩ := value_finite n hlt
      rw [FVal.round, hv]
      rfl
    · rw [FVal.round, heq, value_infMag]
      rfl

theorem sign_add {a b : FVal} (ha : a.sign = false) (hb : b.sign = false) : (a.add b).sign = false := by
  cases a with
  | nan => rfl
  | inf n =>
    cases b with
    | nan => rfl
    | inf n' =>
      cases ha
      cases hb
      rfl
    | fin => exact ha
  | fin n m e =>
    cases b with
    | nan => rfl
    | inf => exact hb
    | fin n' m' e' =>
      cases ha
      cases hb
      obtain ⟨sum, hsum, hadd⟩ := add_fin_fin false false m m' e e'
      have hnonneg : 0 ≤ sum := by
        have hreal : (0 : ℚ) ≤ sum * 2 ^ min e e' := by
          rw [hsum, real_fin, real_fin, signOf_false]
          positivity
        exact_mod_cast nonneg_of_mul_nonneg_left hreal (by positivity)
      rw [hadd]
      split_ifs
      · rfl
      · exact decide_eq_false hnonneg.not_gt

theorem sign_mul_self (v : FVal) : (v.mul v).sign = false := by
  cases v with
  | nan => rfl
  | inf n => exact Bool.xor_self n
  | fin n m e => exact Bool.xor_self n

theorem sign_sqrt {v : FVal} (h : v.sign = false) : v.sqrt.sign = false := by
  cases v with
  | nan => rfl
  | inf n =>
    cases h
    rfl
  | fin n m e =>
    cases h
    simp only [FVal.sqrt]
    split_ifs <;> rfl

theorem sign_div {a b : FVal} (ha : a.sign = false) (hb : b.sign = false) : (a.div b).sign = false := by
  cases a with
  | nan => rfl
  | inf n =>
    cases ha
    cases b with
    | nan => rfl
    | inf => rfl
    | fin => simpa [FVal.div, FVal.sign] using hb
  | fin n m e =>
    cases ha
    cases b with
    | nan => rfl
    | inf => simpa [FVal.div, FVal.sign] using hb
    | fin n' m' e' =>
      cases hb
      simp only [FVal.div]
      split_ifs <;> rfl

/-! ### Zeros in binary64 -/

theorem int64_zero : int64 0 = .fin false 0 b64.emin := by decide +kernel

theorem round64_zero (n : Bool) (e : Int) : (FVal.fin n 0 e).round b64 = .fin n 0 b64.emin := by
  cases n <;> rfl

/-- Zero times a finite value is the zero of that value's sign. -/
theorem zero_mul64 {v : FVal} (h : v.isFinite = true) : (int64 0).mul64 v = .fin v.sign 0 b64.emin := by
  cases v with
  | nan => cases h
  | inf => cases h
  | fin n m e =>
    rw [int64_zero, FVal.mul64, FVal.mul, Nat.zero_mul, round64_zero, Bool.false_xor]
    rfl

theorem mul64_zero {v : FVal} (h : v.isFinite = true) : v.mul64 (int64 0) = .fin v.sign 0 b64.emin := by
  cases v with
  | nan => cases h
  | inf => cases h
  | fin n m e =>
    rw [int64_zero, FVal.mul64, FVal.mul, Nat.mul_zero, round64_zero, Bool.xor_false]
    rfl

theorem zero_div64_fin {m : Nat} (hm : m ≠ 0) (e : Int) : (int64 0).div64 (.fin false m e) = int64 0 := by
  rw [int64_zero, div64_of_dvd false false hm (by simp) (m'' := 0) (e'' := 0) (by simp)]
  rfl

/-- +0 over a value without a sign is +0, where the quotient is finite. -/
theorem zero_div64 {v : FVal} (hsign : v.sign = false) (hfin : ((int64 0).div64 v).isFinite = true) :
    (int64 0).div64 v = int64 0 := by
  cases v with
  | nan => cases hfin
  | inf n =>
    cases hsign
    rfl
  | fin n m e =>
    cases hsign
    refine zero_div64_fin ?_ e
    rintro rfl
    cases hfin

/-- A finite value worth 0 is one of the zeros. -/
theorem eq_fin_zero {v : FVal} (hfin : v.isFinite = true) (hreal : v.real = 0) : ∃ n e, v = .fin n 0 e := by
  cases v with
  | nan => cases hfin
  | inf => cases hfin
  | fin n m e =>
    have hm : m = 0 := by
      have hpow : (2 : ℚ) ^ e ≠ 0 := by positivity
      have hsign : signOf n ≠ 0 := by cases n <;> simp
      rw [real_fin, mul_assoc] at hreal
      exact_mod_cast (mul_eq_zero.1 ((mul_eq_zero.1 hreal).resolve_left hsign)).resolve_right hpow
    exact ⟨n, e, by rw [hm]⟩

/-- A value above 0 is finite, has no sign and is no zero. -/
theorem eq_fin_of_real_pos {v : FVal} (hpos : 0 < v.real) : ∃ m e, m ≠ 0 ∧ v = .fin false m e := by
  cases v with
  | nan => exact absurd hpos (lt_irrefl 0)
  | inf => exact absurd hpos (lt_irrefl 0)
  | fin n m e =>
    rw [real_fin, mul_assoc] at hpos
    have hmag : (0 : ℚ) ≤ m * 2 ^ e := by positivity
    cases n with
    | true =>
      rw [signOf_true] at hpos
      linarith
    | false =>
      refine ⟨m, e, ?_, rfl⟩
      rintro rfl
      simp at hpos

/-- Widening keeps a finite word finite. -/
theorem isFinite_widen {w : Word} (h : isFinite32 w = true) : (widen w).isFinite = true := by
  obtain ⟨g, hg, hvalue, -⟩ := widen_exact h
  simpa [hvalue, isFinite_value] using hg

/-! ### Sums that binary64 holds -/

theorem abs_signOf_mul (n : Bool) {x : ℚ} (hx : 0 ≤ x) : |signOf n * x| = x := by
  cases n <;> simp [abs_of_nonneg hx]

/-- A sum that is worth a binary64 value is exact. -/
theorem add64_exact {a b : FVal} (ha : a.isFinite = true) (hb : b.isFinite = true) {n : Bool} {g : Nat}
    (hg : g < b64.infMag) (h : a.real + b.real = signOf n * b64.magReal g) :
    (a.add64 b).isFinite = true ∧ (a.add64 b).real = a.real + b.real := by
  obtain ⟨hfin, hreal, -⟩ := sums_and_products_exact a b ha hb
  rw [← hreal] at h
  rw [← hreal, FVal.add64]
  cases hsum : a.add b with
  | nan => simp [hsum, FVal.isFinite] at hfin
  | inf => simp [hsum, FVal.isFinite] at hfin
  | fin n' m e =>
    have hmag : m * (2 : ℚ) ^ e = b64.magReal g := by
      have habs := congrArg abs h
      rwa [hsum, real_fin, mul_assoc, abs_signOf_mul n' (by positivity),
        abs_signOf_mul n (magReal_nonneg b64 g)] at habs
    rw [round_of_magReal (by decide) n' hg hmag]
    exact ⟨by simpa [isFinite_value] using hg, by rw [value_real n' hg, real_fin, mul_assoc, hmag]⟩

end Sys2Proof
end

section
/-! PROOF. The completion step of MAG, and the magnitude at named points (43_magnitude.md R221 to R226). -/

namespace Sys2Proof.Machine

open Sys2Proof

/-! ### The magnitude as a product over the processed sections -/

/-- The sections PROC would process, in signal order (R223). -/
def processedSections (s : State) (ctrl : BitVec 3) : List (Fin 9) :=
  (List.finRange 9).filter (processed ctrl s.actLC s.actHC)

/-- The product of the magnitudes of some sections, in their order. -/
def magProduct (lm : Libm) (bank : Vector CoefSet 9) (w : FVal) (secs : List (Fin 9)) : FVal :=
  secs.foldl (fun m sec => m.mul64 (magSec lm bank[sec] w)) (int64 1)

theorem magBySection_eq_magProduct (lm : Libm) (s : State) (ctrl : BitVec 3) (f fs : Word) :
    magBySection lm s ctrl f fs
      = magProduct lm s.bank (angle (widen f) (widen fs)) (processedSections s ctrl) :=
  List.foldl_filter.symm

/-- A cut stage behind its bypass bit is a fold over the processed ones of its sections. -/
theorem magCut_eq_foldl {proc : Fin 9 → Bool} {bypassed : Bool} {act : Vector Bool 4} {secOf : Fin 4 → Fin 9}
    (hproc : ∀ k : Fin 4, proc (secOf k) = (!bypassed && act[k])) (lm : Libm) (bank : Vector CoefSet 9) (w m : FVal) :
    (if bypassed then m else magCut lm bank act secOf w m)
      = ([0, 1, 2, 3].map secOf).foldl (fun m sec => if proc sec then m.mul64 (magSec lm bank[sec] w) else m) m := by
  cases bypassed with
  | true => simp [hproc]
  | false => simp [magCut, hproc]

/-- The sections in signal order, stage by stage (R223). -/
theorem finRange_eq_stages : List.finRange 9 = [0, 1, 2, 3].map lcSec ++ pkSec :: [0, 1, 2, 3].map hcSec := by decide

/-- R223: the stages in turn are one product over the processed sections. -/
theorem magFn_eq_magBySection (lm : Libm) (s : State) (ctrl : BitVec 3) (f fs : Word) :
    magFn lm s ctrl f fs = magBySection lm s ctrl f fs := by
  have hpeak (m v : FVal) : (if pkBypassed ctrl then m else m.mul64 v)
      = if processed ctrl s.actLC s.actHC pkSec then m.mul64 v else m := by
    rw [processed_pkSec]
    cases pkBypassed ctrl <;> rfl
  rw [magBySection, finRange_eq_stages, List.foldl_append, List.foldl_cons,
    ← magCut_eq_foldl (processed_lcSec ctrl s.actLC s.actHC), ← hpeak,
    ← magCut_eq_foldl (processed_hcSec ctrl s.actLC s.actHC)]
  rfl

/-- R221: the completion step, when it is next. -/
theorem step_mag {s : State} {rest : List Event} {f fs : Word} {ctrl : BitVec 3} (hnext : sequencerNext s rest)
    (hseq : s.seq = .mag f fs ctrl) : step s = .next ((s.withInbox rest).finishMag Config.libm f fs ctrl) := by
  rw [step_sequencer hnext, sequencerStep_mag (s := s.withInbox rest) _ hseq]

theorem processedSections_nil {s : State} {ctrl : BitVec 3}
    (h : ∀ sec : Fin 9, processed ctrl s.actLC s.actHC sec = false) : processedSections s ctrl = [] :=
  List.filter_eq_nil_iff.2 fun sec _ => ne_true_of_eq_false (h sec)

theorem processedSections_alone {s : State} {ctrl : BitVec 3} {j : Fin 9}
    (h : ∀ sec : Fin 9, processed ctrl s.actLC s.actHC sec = decide (sec = j)) : processedSections s ctrl = [j] := by
  have hfilter : ∀ i : Fin 9, (List.finRange 9).filter (fun sec => decide (sec = i)) = [i] := by decide
  rw [processedSections, funext h, hfilter]

theorem mem_processedSections {s : State} {ctrl : BitVec 3} {sec : Fin 9} :
    sec ∈ processedSections s ctrl ↔ processed ctrl s.actLC s.actHC sec = true := by
  simp [processedSections]

/-- The LowCut sections come first, so where one of them is processed, the first processed section is one. -/
theorem processedSections_lowCut_first {s : State} {ctrl : BitVec 3}
    (h : ∃ k : Fin 4, processed ctrl s.actLC s.actHC (lcSec k) = true) :
    ∃ (k : Fin 4) (secs : List (Fin 9)), processedSections s ctrl = lcSec k :: secs := by
  obtain ⟨k, hk⟩ := h
  rw [processedSections, finRange_eq_stages, List.filter_append]
  cases hlow : ([0, 1, 2, 3].map lcSec).filter (processed ctrl s.actLC s.actHC) with
  | nil =>
    have hslots : ∀ i : Fin 4, lcSec i ∈ [0, 1, 2, 3].map lcSec := by decide
    exact absurd hk (List.filter_eq_nil_iff.1 hlow _ (hslots k))
  | cons sec secs =>
    have hmem : sec ∈ [0, 1, 2, 3].map lcSec := List.mem_of_mem_filter (hlow ▸ List.mem_cons_self)
    obtain ⟨i, -, rfl⟩ := List.mem_map.1 hmem
    exact ⟨i, _, rfl⟩

/-! ### The magnitude of one section -/

/-- The magnitude of `k0 + k1·z⁻¹ + k2·z⁻²` for the cosines and sines of an angle and its double (R222). -/
def polynomialMag (k0 k1 k2 c1 s1 c2 s2 : FVal) : FVal :=
  let re := (k0.add64 (k1.mul64 c1)).add64 (k2.mul64 c2)
  let im := ((k1.mul64 s1).add64 (k2.mul64 s2)).neg
  ((re.mul64 re).add64 (im.mul64 im)).sqrt64

/-- The magnitude of a set for the cosines and sines of an angle and its double (R222). -/
def setMag (c : CoefSet) (c1 s1 c2 s2 : FVal) : FVal :=
  (polynomialMag (widen c.b0) (widen c.b1) (widen c.b2) c1 s1 c2 s2).div64
    (polynomialMag (int64 1) (widen c.a1) (widen c.a2) c1 s1 c2 s2)

theorem magSec_eq (lm : Libm) (c : CoefSet) (w : FVal) :
    magSec lm c w = setMag c (call64 lm.cos w) (call64 lm.sin w) (call64 lm.cos ((int64 2).mul64 w))
      (call64 lm.sin ((int64 2).mul64 w)) := rfl

theorem sign_polynomialMag (k0 k1 k2 c1 s1 c2 s2 : FVal) : (polynomialMag k0 k1 k2 c1 s1 c2 s2).sign = false := by
  have hsquare (v : FVal) : (v.mul64 v).sign = false := (sign_round b64 _).trans (sign_mul_self v)
  exact (sign_round b64 _).trans (sign_sqrt ((sign_round b64 _).trans (sign_add (hsquare _) (hsquare _))))

theorem sign_magSec (lm : Libm) (c : CoefSet) (w : FVal) : (magSec lm c w).sign = false :=
  (sign_round b64 _).trans (sign_div (sign_polynomialMag ..) (sign_polynomialMag ..))

theorem widen_one : widen 0x3F800000#32 = int64 1 := by decide +kernel

theorem widen_zero : widen 0#32 = int64 0 := by decide +kernel

/-- The identity polynomial has magnitude 1: what stands beside its 1 are zeros, of whatever sign. -/
theorem polynomialMag_one {c1 s1 c2 s2 : FVal} (hc1 : c1.isFinite = true) (hs1 : s1.isFinite = true)
    (hc2 : c2.isFinite = true) (hs2 : s2.isFinite = true) :
    polynomialMag (int64 1) (int64 0) (int64 0) c1 s1 c2 s2 = int64 1 := by
  simp only [polynomialMag, zero_mul64 hc1, zero_mul64 hs1, zero_mul64 hc2, zero_mul64 hs2]
  generalize c1.sign = n1, s1.sign = n2, c2.sign = n3, s2.sign = n4
  revert n1 n2 n3 n4
  decide +kernel

theorem setMag_identity {c1 s1 c2 s2 : FVal} (hc1 : c1.isFinite = true) (hs1 : s1.isFinite = true)
    (hc2 : c2.isFinite = true) (hs2 : s2.isFinite = true) : setMag CoefSet.identity c1 s1 c2 s2 = int64 1 := by
  have hquot : (int64 1).div64 (int64 1) = int64 1 := by decide +kernel
  show (polynomialMag (widen 0x3F800000#32) (widen 0#32) (widen 0#32) ..).div64
    (polynomialMag (int64 1) (widen 0#32) (widen 0#32) ..) = int64 1
  rw [widen_one, widen_zero, polynomialMag_one hc1 hs1 hc2 hs2, hquot]

/-- R222 at a quarter of the rate: |7 + 8·(−i) − 1| = 10 over |1 + 4·(−i) + 2| = 5. -/
theorem setMag_quarter :
    setMag ⟨0x40E00000#32, 0x41000000#32, 0x3F800000#32, 0x40800000#32, 0xC0000000#32⟩
      (int64 0) (int64 1) (int64 (-1)) (int64 0) = int64 2 := by decide +kernel

/-- R222 where the double angle's cosine and sine are not the angle's: |2 + 4 − 8i| = 10 over |1 + 2 − 4i| = 5. -/
theorem setMag_doubled :
    setMag ⟨0x40000000#32, 0x40800000#32, 0x40800000#32, 0x40000000#32, 0x40000000#32⟩
      (int64 1) (int64 1) (int64 0) (int64 1) = int64 2 := by decide +kernel

/-! ### LowCut at frequency 0 -/

/-- The real part at angle 0 is `(b0 − 2·b0) + b0`, exact in both steps. -/
theorem lowCut_re_zero {b0 b1 : Word} (hb0 : isFinite32 b0 = true) (hb1 : isFinite32 b1 = true)
    (hreal : (val32 b1).real = -2 * (val32 b0).real) :
    ∃ n e, ((widen b0).add64 (widen b1)).add64 (widen b0) = .fin n 0 e := by
  obtain ⟨g, hg, hvalue, hwiden⟩ := widen_exact hb0
  obtain ⟨-, -, -, hwiden1⟩ := widen_exact hb1
  have hneg : (widen b0).real + (widen b1).real = signOf (!b0.msb) * b64.magReal g := by
    rw [hwiden1, hreal, ← hwiden, hvalue, value_real _ hg, signOf_not]
    ring
  obtain ⟨hfinSum, hrealSum⟩ := add64_exact (isFinite_widen hb0) (isFinite_widen hb1) hg hneg
  have hzero : ((widen b0).add64 (widen b1)).real + (widen b0).real = 0 := by
    rw [hrealSum, hwiden1, hreal, hwiden]
    ring
  obtain ⟨hfin, hsum⟩ := add64_exact hfinSum (isFinite_widen hb0) (n := false) (g := 0) (by decide) (by simp [hzero])
  exact eq_fin_zero hfin (hsum.trans hzero)

/-- R226 case 1: the numerator of a LowCut set vanishes at angle 0. -/
theorem polynomialMag_lowCut {b0 b1 : Word} (hb0 : isFinite32 b0 = true) (hb1 : isFinite32 b1 = true)
    (hreal : (val32 b1).real = -2 * (val32 b0).real) :
    polynomialMag (widen b0) (widen b1) (widen b0) (int64 1) (int64 0) (int64 1) (int64 0) = int64 0 := by
  have hkept (b : Word) : (widen b).mul64 (int64 1) = widen b := mul64_one (round_round (by decide) _)
  obtain ⟨n, e, hre⟩ := lowCut_re_zero hb0 hb1 hreal
  simp only [polynomialMag, hkept, hre, mul64_zero (isFinite_widen hb0), mul64_zero (isFinite_widen hb1)]
  have hsquare : (FVal.fin n 0 e).mul64 (.fin n 0 e) = int64 0 := by
    rw [FVal.mul64, FVal.mul, Nat.mul_zero, round64_zero, Bool.xor_self, int64_zero]
  rw [hsquare]
  generalize (widen b0).sign = n0, (widen b1).sign = n1
  revert n0 n1
  decide +kernel

/-- R226 case 1: a LowCut set's magnitude at angle 0 is +0, where it is finite. -/
theorem setMag_lowCut {c : CoefSet} (hb0 : isFinite32 c.b0 = true) (hb1 : isFinite32 c.b1 = true) (hb2 : c.b2 = c.b0)
    (hreal : (val32 c.b1).real = -2 * (val32 c.b0).real)
    (hfin : (setMag c (int64 1) (int64 0) (int64 1) (int64 0)).isFinite = true) :
    setMag c (int64 1) (int64 0) (int64 1) (int64 0) = int64 0 := by
  rw [setMag, hb2, polynomialMag_lowCut hb0 hb1 hreal] at hfin ⊢
  exact zero_div64 (sign_polynomialMag ..) hfin

/-- The angle of frequency +0 at a valid rate is +0. -/
theorem angle_zero {fs : Word} (hfs : fsValid fs = true) : angle (widen 0#32) (widen fs) = int64 0 := by
  obtain ⟨hfin, -⟩ := Bool.and_eq_true_iff.1 hfs
  obtain ⟨-, -, -, hwiden⟩ := widen_exact hfin
  have hpos : 0 < (widen fs).real := by
    obtain ⟨m, e, hm, -, hhalf, -⟩ := half_val32_of_fsValid hfs
    have hnyquist : 0 < (FVal.fin false m e).real := by
      rw [real_fin, signOf_false]
      positivity
    rw [hwiden]
    linarith
  obtain ⟨m, e, hm, hrate⟩ := eq_fin_of_real_pos hpos
  have hnum : ((int64 2).mul64 pi64).mul64 (widen 0#32) = int64 0 := by decide +kernel
  rw [angle, hnum, hrate, zero_div64_fin hm]

theorem round32_int64_one (drawn : Word) : round32 drawn (int64 1) = 0x3F800000#32 := by
  rw [int64_one]
  rfl

theorem round32_int64_two (drawn : Word) : round32 drawn (int64 2) = 0x40000000#32 := by
  rw [int64_two]
  rfl

theorem round32_int64_zero (drawn : Word) : round32 drawn (int64 0) = 0x00000000#32 := by
  rw [int64_zero]
  rfl

/-! ### The product at the named points -/

theorem int64_one_mul64_one : (int64 1).mul64 (int64 1) = int64 1 := mul64_one (round_round (by decide) _)

/-- The product of magnitudes 1 is 1. -/
theorem magProduct_one {lm : Libm} {bank : Vector CoefSet 9} {w : FVal} {secs : List (Fin 9)}
    (h : ∀ sec ∈ secs, magSec lm bank[sec] w = int64 1) : magProduct lm bank w secs = int64 1 :=
  List.foldlRecOn secs _ (motive := (· = int64 1)) rfl fun m hm sec hsec => by
    rw [hm, h sec hsec, int64_one_mul64_one]

/-- A product whose first magnitude is +0 stays +0 over finite magnitudes. -/
theorem magProduct_zero {lm : Libm} {bank : Vector CoefSet 9} {w : FVal} {sec : Fin 9} {secs : List (Fin 9)}
    (hzero : magSec lm bank[sec] w = int64 0) (h : ∀ i ∈ secs, (magSec lm bank[i] w).isFinite = true) :
    magProduct lm bank w (sec :: secs) = int64 0 := by
  have hfirst : (int64 1).mul64 (int64 0) = int64 0 := by decide +kernel
  rw [magProduct, List.foldl_cons, hzero, hfirst]
  refine List.foldlRecOn secs _ (motive := (· = int64 0)) rfl fun m hm i hi => ?_
  rw [hm, zero_mul64 (h i hi), sign_magSec, int64_zero]

/-- One section of magnitude 2. -/
theorem magProduct_two {lm : Libm} {bank : Vector CoefSet 9} {w : FVal} {sec : Fin 9}
    (h : magSec lm bank[sec] w = int64 2) : magProduct lm bank w [sec] = int64 2 := by
  rw [magProduct, List.foldl_cons, List.foldl_nil, h]
  decide +kernel

/-- R226 case 1 for the whole product: the first processed section is a LowCut section, of magnitude +0. -/
theorem magProduct_dc {lm : Libm} {s : State} {ctrl : BitVec 3}
    (hcos : call64 lm.cos (int64 0) = int64 1) (hsin : call64 lm.sin (int64 0) = int64 0)
    (hsome : ∃ k : Fin 4, processed ctrl s.actLC s.actHC (lcSec k) = true)
    (hlow : ∀ k : Fin 4, processed ctrl s.actLC s.actHC (lcSec k) = true →
      isFinite32 s.bank[lcSec k].b0 = true ∧ isFinite32 s.bank[lcSec k].b1 = true
        ∧ s.bank[lcSec k].b2 = s.bank[lcSec k].b0
        ∧ (val32 s.bank[lcSec k].b1).real = -2 * (val32 s.bank[lcSec k].b0).real)
    (hfin : ∀ sec : Fin 9, processed ctrl s.actLC s.actHC sec = true →
      (magSec lm s.bank[sec] (int64 0)).isFinite = true) :
    magProduct lm s.bank (int64 0) (processedSections s ctrl) = int64 0 := by
  have hdouble : (int64 2).mul64 (int64 0) = int64 0 := by decide +kernel
  have hmag (c : CoefSet) : magSec lm c (int64 0) = setMag c (int64 1) (int64 0) (int64 1) (int64 0) := by
    rw [magSec_eq, hdouble, hcos, hsin]
  obtain ⟨k, secs, hsecs⟩ := processedSections_lowCut_first hsome
  have hproc : ∀ sec ∈ lcSec k :: secs, processed ctrl s.actLC s.actHC sec = true := fun sec hsec =>
    mem_processedSections.1 (hsecs ▸ hsec)
  have hk := hproc _ List.mem_cons_self
  obtain ⟨hb0, hb1, hb2, hreal⟩ := hlow k hk
  rw [hsecs]
  refine magProduct_zero ?_ fun i hi => hfin i (hproc i (List.mem_cons_of_mem _ hi))
  rw [hmag]
  exact setMag_lowCut hb0 hb1 hb2 hreal (hmag _ ▸ hfin _ hk)

/-- Settles O39: the stages are the product over the processed sections, and at the named points its factors are
known. -/
theorem magCompletionMultipliesTheProcessedSections : Obligations.MagCompletionMultipliesTheProcessedSections := by
  intro s rest f fs ctrl proc w w2
  refine ⟨fun hnext hseq => ⟨_, ?_, rfl, fun hnone => ?_⟩, fun lm drawn => ?_⟩
  · rw [step_mag hnext hseq, State.finishMag, magFn_eq_magBySection]
    rfl
  · rw [magBySection_eq_magProduct, processedSections_nil hnone]
    exact round32_int64_one _
  · intro r cosSin alone
    have hr : r = round32 drawn (magProduct lm s.bank w (processedSections s ctrl)) :=
      congrArg (round32 drawn) (magBySection_eq_magProduct lm s ctrl f fs)
    refine ⟨fun hidentity hc1 hs1 hc2 hs2 => ?_, fun hf hfs hcos hsin hsome hlow hfin => ?_, fun j => ?_⟩
    · have hone (sec : Fin 9) (hsec : sec ∈ processedSections s ctrl) : magSec lm s.bank[sec] w = int64 1 := by
        rw [magSec_eq, hidentity sec (mem_processedSections.1 hsec)]
        exact setMag_identity hc1 hs1 hc2 hs2
      rw [hr, magProduct_one hone, round32_int64_one]
    · have hw : w = int64 0 := by
        simp only [w, hf]
        exact angle_zero hfs
      rw [hw] at hfin
      rw [hr, hw, magProduct_dc hcos hsin hsome hlow hfin, round32_int64_zero]
    · have htwo (c : CoefSet) (c1 s1 c2 s2 : FVal) (hset : setMag c c1 s1 c2 s2 = int64 2) (halone : alone j c)
          (hvalues : cosSin c1 s1 c2 s2) : r = 0x40000000#32 := by
        obtain ⟨hsecs, rfl⟩ := halone
        obtain ⟨rfl, rfl, rfl, rfl⟩ := hvalues
        rw [hr, processedSections_alone hsecs, magProduct_two hset, round32_int64_two]
      exact ⟨htwo _ _ _ _ _ setMag_quarter, htwo _ _ _ _ _ setMag_doubled⟩

end Sys2Proof.Machine
end

section
/-! PROOF. Reads and writes of the control port, place by place: STATUS, SEC_ACT, CHG_TAKE, the settings, the read-only
words and the bad addresses (44_control.md R240 to R245, R250 to R255). -/

namespace Sys2Proof.Machine

open Sys2Proof

/-- A RD of a place that an address reaches (R240). -/
theorem exec_rd_of_place {a : Addr} {p : Place} (hplace : placeOf a = p) (s : State) :
    exec (.rd a) s = .next (s.read Config.ftz p) := by
  subst hplace
  rfl

/-- A WR to a place that an address reaches (R241). -/
theorem exec_wr_of_place {a : Addr} {p : Place} (hplace : placeOf a = p) (s : State) (v : Word) :
    exec (.wr a v) s = .next (s.write Config.libm p v) := by
  subst hplace
  rfl

/-! ### STATUS and SEC_ACT -/

theorem busy_eq_decide (s : State) : s.busy = decide (s.seq ≠ .idle) := by
  rw [Bool.eq_iff_iff, busy_iff, decide_eq_true_iff]

/-- STATUS bit by bit: BUSY, CHG, six zeros, the sticky byte, zeros (R251, 10_state.md R46). -/
theorem statusWord_getLsbD (sticky : BitVec 8) (chg busy : Bool) (i : Nat) :
    (statusWord sticky chg busy).getLsbD i
      = if i = 0 then busy else if i = 1 then chg else if i < 8 then false else sticky.getLsbD (i - 8) := by
  unfold statusWord bit
  simp only [BitVec.getLsbD_append]
  match i with
  | 0 | 1 | 2 | 3 | 4 | 5 | 6 | 7 => simp
  | i + 8 => simpa using BitVec.lt_of_getLsbD

/-- SEC_ACT bit by bit: the LowCut flags, the HighCut flags, zeros (R251, 10_state.md R52). -/
theorem secActWord_getLsbD (lc hc : Vector Bool 4) (i : Nat) :
    (secActWord lc hc).getLsbD i
      = if h : i < 4 then lc[i] else if h' : i < 8 then hc[i - 4] else false := by
  unfold secActWord bit
  simp only [BitVec.getLsbD_append]
  match i with
  | 0 | 1 | 2 | 3 | 4 | 5 | 6 | 7 => simp
  | i + 8 => simp

/-- The fields of STATUS. -/
theorem statusWord_fields (sticky : BitVec 8) (chg busy : Bool) :
    let v := statusWord sticky chg busy
    v[0] = busy ∧ v[1] = chg ∧ v.extractLsb' 2 6 = 0#6 ∧ v.extractLsb' 8 8 = sticky
      ∧ v.extractLsb' 16 16 = 0#16 := by
  have hbit := statusWord_getLsbD sticky chg busy
  refine ⟨hbit 0, hbit 1, BitVec.eq_of_getLsbD_eq fun i hi => ?_, BitVec.eq_of_getLsbD_eq fun i hi => ?_,
    BitVec.eq_of_getLsbD_eq fun i hi => ?_⟩
  · rw [BitVec.getLsbD_extractLsb', hbit, if_neg (by omega), if_neg (by omega), if_pos (by omega)]
    simp
  · rw [BitVec.getLsbD_extractLsb', hbit, if_neg (by omega), if_neg (by omega), if_neg (by omega)]
    simp [hi]
  · rw [BitVec.getLsbD_extractLsb', hbit, if_neg (by omega), if_neg (by omega), if_neg (by omega),
      BitVec.getLsbD_of_ge _ _ (by omega)]
    simp

/-- The fields of SEC_ACT. -/
theorem secActWord_fields (lc hc : Vector Bool 4) :
    let v := secActWord lc hc
    (∀ k : Fin 4, v[k.val] = lc[k]) ∧ (∀ k : Fin 4, v[4 + k.val] = hc[k]) ∧ v.extractLsb' 8 24 = 0#24 := by
  have hbit := secActWord_getLsbD lc hc
  refine ⟨fun k => ?_, fun k => ?_, BitVec.eq_of_getLsbD_eq fun i hi => ?_⟩
  · exact (hbit k.val).trans (dif_pos k.isLt)
  · refine (hbit (4 + k.val)).trans ((dif_neg (by omega)).trans ((dif_pos (by omega)).trans ?_))
    simp
  · rw [BitVec.getLsbD_extractLsb', hbit, dif_neg (by omega), dif_neg (by omega)]
    simp

/-- Settles O14: the fields of the words that STATUS and SEC_ACT read. -/
theorem readsOfStatusAndSecAct : Obligations.ReadsOfStatusAndSecAct := by
  intro s
  obtain ⟨hbusy, hrest⟩ := statusWord_fields s.sticky s.chg s.busy
  exact ⟨⟨_, readsAs_readValue (p := .status) rfl rfl, hbusy.trans (busy_eq_decide s), hrest⟩,
    _, readsAs_readValue (p := .secAct) rfl rfl, secActWord_fields s.actLC s.actHC⟩

/-! ### CMD and CHG_TAKE -/

/-- Settles O16: CMD reads as the zero word. -/
theorem readOfCmdReturnsZero : Obligations.ReadOfCmdReturnsZero :=
  fun _ => readsAs_readValue (p := .cmd) rfl rfl

/-- CHG as the word that CHG_TAKE returns (R250). -/
theorem readValue_chgTake (ftz : Bool) (s : State) :
    s.readValue ftz .chgTake = if s.chg then 1#32 else 0#32 := by
  show 0#31 ++ bit s.chg = _
  cases s.chg <;> rfl

/-- A RD of CHG_TAKE while CHG is 0 returns 0 and has nothing to clear. -/
theorem readsAs_chgTake_of_clear {s : State} (hclear : s.chg = false) : readsAs s 0x034#12 0x00000000#32 := by
  have heffect : s.readEffect .chgTake = s := by
    show { s with chg := false } = s
    rw [← hclear]
  have hread : readsAs s 0x034#12 (s.readValue Config.ftz .chgTake) := readsAs_readValue rfl heffect
  rwa [readValue_chgTake, hclear] at hread

/-- Settles O17: the flag is returned as a word and cleared, so the second RD finds it clear. -/
theorem chgTakeReturnsAndClears : Obligations.ChgTakeReturnsAndClears := by
  intro s
  rw [← readValue_chgTake Config.ftz]
  exact ⟨_, exec_rd_of_place (p := .chgTake) rfl s, rfl, readsAs_chgTake_of_clear rfl⟩

/-! ### Bad addresses -/

/-- Settles O18: a bad address is a misaligned or an unmapped place, and both raise ERR_ADDR, which is bit 7. -/
theorem badAddressesRaiseErrAddr : Obligations.BadAddressesRaiseErrAddr := by
  intro s a v hbad
  have hbit (j : Fin 8) := raiseBit_getElem .errAddr s.sticky j
  have hset : (raiseBit .errAddr s.sticky)[7] = true := (hbit 7).trans (Bool.or_true _)
  have hkept (j : Fin 7) : (raiseBit .errAddr s.sticky)[j.val] = s.sticky[j.val] := by
    have hne : j.val ≠ ErrBit.errAddr.index := j.isLt.ne
    simpa [hne] using hbit j.castSucc
  rcases (badAddress_iff a).1 hbad with hplace | hplace
  · exact ⟨_, exec_rd_of_place hplace s, exec_wr_of_place hplace s v, hset, hkept⟩
  · exact ⟨_, exec_rd_of_place hplace s, exec_wr_of_place hplace s v, hset, hkept⟩

/-! ### Writes -/

/-- Settles O20, register by register. -/
theorem settingsWritesStoreAndSetChg : Obligations.SettingsWritesStoreAndSetChg := by
  intro s v
  exact ⟨exec_wr_of_place (p := .setting .lcFreq) rfl s v, exec_wr_of_place (p := .setting .hcFreq) rfl s v,
    exec_wr_of_place (p := .setting .pkFreq) rfl s v, exec_wr_of_place (p := .setting .pkGain) rfl s v,
    exec_wr_of_place (p := .setting .pkQ) rfl s v, exec_wr_of_place (p := .setting .slope) rfl s v,
    exec_wr_of_place (p := .setting .fs) rfl s v⟩

/-- Settles O21: the places of CTRL and MAG_FREQ. -/
theorem ctrlAndMagFreqWrites : Obligations.CtrlAndMagFreqWrites := fun s v =>
  ⟨exec_wr_of_place (p := .ctrl) rfl s v, exec_wr_of_place (p := .magFreq) rfl s v⟩

/-- Settles O22: the byte that write-1-to-clear leaves, bit by bit. -/
theorem statusWriteClearsTheNamedBits : Obligations.StatusWriteClearsTheNamedBits := fun s v =>
  ⟨clearBits v s.sticky, exec_wr_of_place (p := .status) rfl s v, clearBits_getElem v s.sticky⟩

/-- The places of the words that R255 lists. -/
def Place.readOnly : Place → Bool
  | .id | .version | .param | .chgTake | .magResult | .gen | .activeFs | .secAct | .coef _ _ | .delay _ _ => true
  | .misaligned | .unmapped | .ctrl | .setting _ | .cmd | .status | .magFreq => false

/-- R255: a WR to a read-only place is ignored. -/
theorem write_readOnly {p : Place} (h : p.readOnly = true) (s : State) (lm : Libm) (v : Word) :
    s.write lm p v = s := by
  cases p with
  | misaligned | unmapped | ctrl | setting | cmd | status | magFreq => cases h
  | _ => rfl

/-- Every word of the COEF window belongs to some section (20_memory.md R84). -/
theorem placeAt_coefWindow {n : Nat} (haligned : n % 4 = 0) (hwindow : 0x100 ≤ n ∧ n < 0x220) :
    ∃ sec c, placeAt n = .coef sec c :=
  ⟨_, _, (if_neg (not_not_intro haligned)).trans (dif_pos hwindow)⟩

/-- Every word of the STATE window belongs to some section (20_memory.md R84). -/
theorem placeAt_stateWindow {n : Nat} (haligned : n % 4 = 0) (hwindow : 0x300 ≤ n ∧ n < 0x348) :
    ∃ sec j, placeAt n = .delay sec j :=
  ⟨_, _, (if_neg (not_not_intro haligned)).trans ((dif_neg (by omega)).trans (dif_pos hwindow))⟩

/-- The read-only addresses reach read-only places. -/
theorem placeOf_readOnly {a : Addr} (h : readOnlyAddress a) : (placeOf a).readOnly = true := by
  obtain ⟨haligned, hregister | hwindow | hwindow⟩ := h
  · have registers : ∀ n ∈ [0x000, 0x004, 0x00C, 0x034, 0x03C, 0x040, 0x044, 0x048],
        (placeAt n).readOnly = true := by decide
    exact registers _ hregister
  · obtain ⟨sec, c, hplace⟩ := placeAt_coefWindow haligned hwindow
    rw [placeOf, hplace, Place.readOnly]
  · obtain ⟨sec, j, hplace⟩ := placeAt_stateWindow haligned hwindow
    rw [placeOf, hplace, Place.readOnly]

/-- Settles O23: each of the listed addresses reaches a place whose writes are ignored. -/
theorem writesToReadOnlyWordsAreIgnored : Obligations.WritesToReadOnlyWordsAreIgnored := by
  intro s a v h
  rw [exec_wr_of_place rfl, write_readOnly (placeOf_readOnly h)]

end Sys2Proof.Machine
end

section
/-! PROOF. The command register and the commands (44_control.md R246 to R249, 30_encoding.md R116). -/

namespace Sys2Proof.Machine

open Sys2Proof

/-! ### Delivery -/

/-- A command's word written to CMD runs the command (R246). -/
theorem deliver_of_decodeCommand {v : Word} {c : Command} (h : decodeCommand v = .ok c) (s : State) (lm : Libm) :
    s.deliver lm v = s.runCommand lm c := by
  simp only [State.deliver, h]

/-- A malformed word written to CMD raises ERR_CMD (R247). -/
theorem deliver_malformed {v : Word} (h : ∀ c, v ≠ commandWordOf c) (s : State) (lm : Libm) :
    s.deliver lm v = s.raise .errCmd := by
  unfold State.deliver
  split
  · rfl
  · next c hc => exact absurd ((decodeCommand_eq_ok v c).1 hc) (h c)

/-- A WR of a word that spells a command does what the command's own instruction does. -/
theorem exec_wr_cmd {v : Word} {c : Command} (h : decodeCommand v = .ok c) (s : State) :
    exec (.wr cmdAddr v) s = exec c.instr s := by
  rw [exec_wr_of_place (p := .cmd) rfl, exec_command]
  exact congrArg _ (deliver_of_decodeCommand h s Config.libm)

/-- Settles O24: a command's word decodes to it, and no other word decodes to a command. -/
theorem cmdWritesDispatch : Obligations.CmdWritesDispatch := by
  refine fun s => ⟨fun c => exec_wr_cmd ((decodeCommand_eq_ok _ c).2 rfl) s, fun v h => ?_⟩
  exact (exec_wr_of_place (p := .cmd) rfl s v).trans (congrArg _ (deliver_malformed h s Config.libm))

/-- A command word presented by itself decodes to an instruction that does what its WR to CMD does (log 11). -/
theorem decode_command_exec (v : Word) :
    ∃ i, decode (.command v) = .ok i ∧ ∀ s, exec i s = exec (.wr cmdAddr v) s := by
  cases h : decodeCommand v with
  | ok c => exact ⟨c.instr, by simp only [decode, h], fun s => (exec_wr_cmd h s).symm⟩
  | error why => exact ⟨.wr cmdAddr v, by simp only [decode, h], fun _ => rfl⟩

/-- Settles O5: the two packets decode to instructions that do the same. -/
theorem commandWordActsAsItsWriteToCmd : Obligations.CommandWordActsAsItsWriteToCmd := by
  intro s v rest
  obtain ⟨i, hcommand, hexec⟩ := decode_command_exec v
  have hissued : decode (.descriptor (issueDescriptor v)) = .ok (.wr cmdAddr v) := decode_encode (.wr cmdAddr v)
  rw [step_port rfl hcommand, step_port rfl hissued, hexec]
  rfl

/-! ### The commands -/

/-- Settles O26: NOP has no dispatch check and no effect. -/
theorem nopChangesNothing : Obligations.NopChangesNothing := fun s => exec_command s .nop

/-- Settles O27: on an idle sequencer CLEAR is accepted and fills the delay state with zeros. -/
theorem clearZeroesTheDelayState : Obligations.ClearZeroesTheDelayState := by
  intro s hidle
  refine ⟨Vector.replicate 9 Delay.zero, ?_, fun sec => Vector.getElem_replicate sec.isLt⟩
  exact (exec_command s .clear).trans (congrArg _ (whenIdle_idle State.clearDelay hidle))

/-- R247: while the sequencer is not idle, every command but NOP is dropped with ERR_BUSY. -/
theorem runCommand_busy {s : State} {c : Command} (hbusy : s.seq ≠ .idle) (hc : c ≠ .nop) (lm : Libm) :
    s.runCommand lm c = s.raise .errBusy := by
  cases c with
  | nop => exact absurd rfl hc
  | update | mag | clear => rw [State.runCommand, whenIdle_busy _ hbusy]

/-- Settles O28: each of the three is a command other than NOP, and ERR_BUSY is bit 6. -/
theorem commandsWhileBusyAreDropped : Obligations.CommandsWhileBusyAreDropped := by
  intro s i hbusy hi
  have dropped (c : Command) (hc : c ≠ .nop) : exec c.instr s = .next (s.raise .errBusy) := by
    rw [exec_command, runCommand_busy hbusy hc]
  rcases hi with rfl | rfl | rfl
  · exact dropped .update nofun
  · exact dropped .mag nofun
  · exact dropped .clear nofun

end Sys2Proof.Machine
end

section
/-! PROOF. Runs that no accepted input stops, and how a sticky bit can fall (60_exceptions.md section 2, R281, R284,
44_control.md R245). -/

namespace Sys2Proof.Machine

open Sys2Proof

/-! ### Well-formed input -/

/-- R111, R116: a descriptor that passes the checks decodes by its KIND, and every command word spells an instruction. -/
theorem decode_of_wellFormed {p : Packet} (h : (Event.port p).wellFormed = true) : ∃ i, decode p = .ok i := by
  cases p with
  | descriptor w => exact ⟨_, decode_descriptor_of_wellFormed (Option.isNone_iff_eq_none.1 h)⟩
  | command v =>
    obtain ⟨i, hdecode, -⟩ := decode_command_exec v
    exact ⟨i, hdecode⟩

/-- R284, log 16: no event faults, and an accepted packet is not refused; with no event to come the sequencer steps
(log 8). -/
theorem step_completes {s : State} (h : inboxWellFormed s) : ∃ t, step s = .next t := by
  cases hinbox : s.inbox with
  | nil => exact ⟨_, step_emptyInbox hinbox⟩
  | cons e rest =>
    cases e with
    | sequencer => exact ⟨_, step_sequencer (.inl hinbox)⟩
    | reset => exact ⟨_, step_reset hinbox⟩
    | port p =>
      obtain ⟨i, hdecode⟩ := decode_of_wellFormed (h (.port p) (by simp [hinbox]))
      obtain ⟨t, hexec⟩ := exec_completes i (s.withInbox rest)
      exact ⟨t, (step_port hinbox hdecode).trans hexec⟩

/-- The sequencer raises and clears no condition and does not touch the events still to come. -/
theorem sequencerStep_sticky_inbox (s : State) (lm : Libm) :
    (s.sequencerStep lm).sticky = s.sticky ∧ (s.sequencerStep lm).inbox = s.inbox := by
  rcases sequencerStep_cases s lm with ⟨-, ht⟩ | ⟨k, sh, f, hk, -, ht⟩ | ⟨sh, f, -, ht⟩ | ⟨f, r, c, -, ht⟩
  · rw [ht]
    exact ⟨rfl, rfl⟩
  · obtain ⟨bank, lc, hc, hcommit⟩ := commit_frame s k sh
    rw [ht, hcommit]
    exact ⟨rfl, rfl⟩
  · rw [ht]
    exact ⟨rfl, rfl⟩
  · rw [ht]
    exact ⟨rfl, rfl⟩

/-- Every step takes the oldest event and leaves the others in their order (20_memory.md R89). -/
theorem step_inbox {s t : State} (h : step s = .next t) : t.inbox = s.inbox.tail := by
  rcases step_cases h with ⟨rest, hnext, rfl⟩ | ⟨rest, hinbox, rfl⟩ | ⟨p, rest, i, hinbox, -, hexec⟩
  · rw [(sequencerStep_sticky_inbox _ _).2]
    rcases hnext with hinbox | ⟨hinbox, rfl⟩ <;> rw [hinbox] <;> rfl
  · rw [hinbox]
    rfl
  · rw [(exec_frame hexec).inbox, hinbox]
    rfl

theorem step_inboxWellFormed {s t : State} (h : inboxWellFormed s) (hstep : step s = .next t) :
    inboxWellFormed t := by
  intro e he
  rw [step_inbox hstep] at he
  exact h e (List.mem_of_mem_tail he)

/-- Settles O8, by induction on the length of the run: a well-formed inbox lets the next step answer and stays
well-formed. -/
theorem wellFormedInputNeverStopsTheMachine : Obligations.WellFormedInputNeverStopsTheMachine := by
  intro s h n
  induction n generalizing s with
  | zero => exact ⟨s, rfl⟩
  | succ n ih =>
    obtain ⟨t, hstep⟩ := step_completes h
    rw [run_of_step hstep]
    exact ih t (step_inboxWellFormed h hstep)

/-! ### Sticky bits -/

/-- R281: the conditions of a command can only raise. -/
theorem runCommand_sticky (s : State) (lm : Libm) (c : Command) :
    stickyGrows s.sticky (s.runCommand lm c).sticky := by
  obtain ⟨k, q, d, hrun, hgrows, -⟩ := runCommand_frame s lm c
  rw [hrun]
  exact hgrows

/-- R245, R281: an instruction loses no sticky bit, unless it is a WR to STATUS, which clears the bits it names. -/
theorem exec_sticky {i : Instr} {s t : State} (h : exec i s = .next t) :
    stickyGrows s.sticky t.sticky ∨ ∃ v, i = .wr 0x030#12 v ∧ t.sticky = clearBits v s.sticky := by
  have command (c : Command) (hc : exec c.instr s = .next t) : stickyGrows s.sticky t.sticky := by
    rw [exec_command] at hc
    cases hc
    exact runCommand_sticky s Config.libm c
  cases i with
  | rd a =>
    cases h
    obtain ⟨k, c, hread, hgrows, -⟩ := read_frame s Config.ftz (placeOf a)
    rw [hread]
    exact .inl hgrows
  | wr a v =>
    by_cases hplace : placeOf a = .status
    · rw [exec_wr_of_place hplace] at h
      cases h
      exact .inr ⟨v, by rw [placeOf_eq_status hplace], rfl⟩
    · cases h
      exact .inl ((write_frame s Config.libm (placeOf a) v).sticky hplace)
  | proc x =>
    cases h
    exact .inl (stickyGrows_refl _)
  | nop => exact .inl (command .nop h)
  | update => exact .inl (command .update h)
  | mag => exact .inl (command .mag h)
  | clear => exact .inl (command .clear h)

/-- A step that loses a sticky bit is a reset or a WR to STATUS. -/
theorem step_sticky {s t : State} (h : step s = .next t) :
    stickyGrows s.sticky t.sticky ∨ resetNext s
      ∨ ∃ v, instrNext s (.wr 0x030#12 v) ∧ t.sticky = clearBits v s.sticky := by
  rcases step_cases h with ⟨rest, -, rfl⟩ | ⟨rest, hinbox, -⟩ | ⟨p, rest, i, hinbox, hdecode, hexec⟩
  · rw [(sequencerStep_sticky_inbox _ _).1]
    exact .inl (stickyGrows_refl _)
  · exact .inr (.inl ⟨rest, hinbox⟩)
  · rcases exec_sticky hexec with hgrows | ⟨v, rfl, hcleared⟩
    · exact .inl hgrows
    · exact .inr (.inr ⟨v, ⟨p, rest, hinbox, hdecode⟩, hcleared⟩)

/-- Write-1-to-clear takes away only the bits that the word names. -/
theorem named_of_clearBits {v : Word} {k : BitVec 8} {j : Fin 8} (hset : k[j.val] = true)
    (hfell : (clearBits v k)[j.val] = false) : v[8 + j.val] = true := by
  rw [clearBits_getElem, hset] at hfell
  simpa using hfell

/-- Settles O49, from what a step can do to the sticky byte. -/
theorem stickyBitsStayUntilCleared : Obligations.StickyBitsStayUntilCleared := by
  intro s t j h hset hfell
  rcases step_sticky h with hgrows | hreset | ⟨v, hnext, hcleared⟩
  · exact absurd (hgrows j hset) (by simp [hfell])
  · exact .inl hreset
  · rw [hcleared] at hfell
    exact .inr ⟨v, named_of_clearBits hset hfell, hnext⟩

end Sys2Proof.Machine
end

section
/-! PROOF. A reset event, whatever the state it finds (70_reset_and_hazards.md R310, R311). -/

namespace Sys2Proof.Machine

open Sys2Proof

/-- R311: after reset the first slot of each cut stage is active and no other. -/
theorem reset_act (k : Fin 4) :
    State.reset.actLC[k] = decide (k = 0) ∧ State.reset.actHC[k] = decide (k = 0) := by
  revert k
  decide

theorem reset_bank (sec : Fin 9) : State.reset.bank[sec] = CoefSet.identity := Vector.getElem_replicate sec.isLt

theorem reset_delay (sec : Fin 9) : State.reset.delay[sec] = Delay.zero := Vector.getElem_replicate sec.isLt

/-- Settles O9: the event puts the state after reset in place of all but the model's own records, whose inbox goes on
(logs 1 and 9). -/
theorem resetSetsEveryElement : Obligations.ResetSetsEveryElement := by
  intro s rest hinbox
  exact ⟨_, step_reset hinbox, rfl, rfl, rfl, rfl, rfl, rfl, rfl, rfl, rfl, rfl, rfl, rfl, rfl, rfl, rfl,
    fun k => (reset_act k).1, fun k => (reset_act k).2, reset_bank, reset_delay, rfl⟩

end Sys2Proof.Machine
end

section
/-! PROOF. Finite samples through identity sections at rest (70_reset_and_hazards.md R312, 41_process.md R171, R178). -/

namespace Sys2Proof

open Machine

/-! ### The operations of the section step with the words of an identity section -/

/-- With FTZ = 1 only a subnormal word's value is flushed. -/
theorem flush_val32_of_not_subnormal {ftz : Bool} {x : Word} (h : ftz = true → isSubnormal32 x = false) :
    flush ftz (val32 x) = val32 x := by
  cases ftz with
  | false => exact flush_off _
  | true => rw [flush_val32, h rfl, if_neg Bool.false_ne_true]

theorem flush_one (ftz : Bool) : flush ftz (val32 0x3F800000#32) = .fin false (2 ^ 23) (-23) := by
  revert ftz
  decide +kernel

theorem flush_posZero (ftz : Bool) : flush ftz (val32 0#32) = .fin false 0 b32.emin := by
  revert ftz
  decide +kernel

section
variable {ftz n : Bool} {m : Nat} {e : Int}

/-- Multiplying by 1.0 gives a binary32 value back that is not flushed. -/
theorem one_mul32 (hround : (FVal.fin n m e).round b32 = .fin n m e) (hflush : flush ftz (.fin n m e) = .fin n m e) :
    mul32 ftz (val32 0x3F800000#32) (.fin n m e) = .fin n m e := by
  have hexact : ((2 ^ 23 * m : Nat) : ℚ) * 2 ^ (-23 + e) = m * 2 ^ e := by
    rw [zpow_add₀ two_ne_zero]
    push_cast
    ring
  rw [mul32, op32, flush_one, hflush, FVal.mul, Bool.false_xor, round_fin_congr (by decide) n hexact, hround, hflush]

/-- Adding +0 keeps the sign and the value of every finite value but −0, written on the lower exponent. -/
theorem add_posZero (e' : Int) (h : m = 0 → n = false) :
    (FVal.fin n m e).add (.fin false 0 e') = .fin n (m * 2 ^ (e - min e e').toNat) (min e e') := by
  rcases Nat.eq_zero_or_pos m with rfl | hm
  · rw [h rfl]
    simp [FVal.add, signedInt]
  · have hpos : 0 < m * 2 ^ (e - min e e').toNat := by positivity
    simp only [FVal.add, signedInt]
    generalize m * 2 ^ (e - min e e').toNat = k at hpos
    cases n <;> simp [hpos.ne', hpos]

/-- Adding +0.0 gives a binary32 value back that is not flushed and is not −0.0. -/
theorem add32_posZero (hround : (FVal.fin n m e).round b32 = .fin n m e)
    (hflush : flush ftz (.fin n m e) = .fin n m e) (h : m = 0 → n = false) :
    add32 ftz (.fin n m e) (val32 0#32) = .fin n m e := by
  rw [add32, op32, hflush, flush_posZero, add_posZero b32.emin h,
    round_fin_congr (by decide) n (scaled_lower m (min_le_left e b32.emin)), hround, hflush]

/-- +0.0 times a finite value is the zero of that value's sign. -/
theorem zero_mul32 (hflush : flush ftz (.fin n m e) = .fin n m e) :
    mul32 ftz (val32 0#32) (.fin n m e) = .fin n 0 b32.emin := by
  have hround (e' : Int) : (FVal.fin n 0 e').round b32 = .fin n 0 b32.emin := by cases n <;> rfl
  have hkept : flush ftz (.fin n 0 b32.emin) = .fin n 0 b32.emin := by cases ftz <;> rfl
  rw [mul32, op32, flush_posZero, hflush, FVal.mul, Nat.zero_mul, Bool.false_xor, hround, hkept]

end

/-- The difference of equal zeros is +0.0. -/
theorem zero_sub32_zero (ftz n : Bool) : sub32 ftz (.fin n 0 b32.emin) (.fin n 0 b32.emin) = val32 0#32 := by
  revert ftz n
  decide +kernel

theorem posZero_add32_posZero (ftz : Bool) : add32 ftz (val32 0#32) (val32 0#32) = val32 0#32 := by
  revert ftz
  decide +kernel

/-- Only the word of −0.0 is worth a zero with a sign. -/
theorem val32_fin_of_ne_negZero {x : Word} (hfin : isFinite32 x = true) (hx : x ≠ 0x80000000#32) :
    ∃ n m e, val32 x = .fin n m e ∧ (m = 0 → n = false) := by
  obtain ⟨m, e, hval, hmag⟩ := val32_fin hfin
  refine ⟨x.msb, m, e, hval, ?_⟩
  rintro rfl
  have hbits : x.toNat % 2 ^ 31 = 0 := (magReal_strictMono b32).injective (by simpa using hmag.symm)
  have hword := word32_self x
  rw [hbits] at hword
  cases hsign : x.msb with
  | false => rfl
  | true =>
    rw [hsign] at hword
    exact absurd hword.symm hx

namespace Machine

/-! ### An identity section at rest -/

/-- R312 case 1: the section gives a finite sample other than −0.0 back and stays at rest: what b1 and a1, and b2 and
a2, make of it are equal zeros, which cancel to +0.0. -/
theorem bq_identity_finite {ftz : Bool} {x : Word} (hfin : isFinite32 x = true) (hx : x ≠ 0x80000000#32)
    (hsub : ftz = true → isSubnormal32 x = false) (n : Nat) :
    bq ftz n CoefSet.identity Delay.zero x = (x, Delay.zero) := by
  have hround : (val32 x).round b32 = val32 x := round_value (by decide) _ _
  have hflush := flush_val32_of_not_subnormal hsub
  obtain ⟨sign, m, e, hval, hzero⟩ := val32_fin_of_ne_negZero hfin hx
  rw [hval] at hround hflush
  have hout : bqOut ftz CoefSet.identity Delay.zero (val32 x) = val32 x := by
    simp only [bqOut, CoefSet.identity, Delay.zero, hval, one_mul32 hround hflush, add32_posZero hround hflush hzero]
  have hstate1 : bqState1 ftz CoefSet.identity Delay.zero (val32 x) (val32 x) = val32 0#32 := by
    simp only [bqState1, CoefSet.identity, Delay.zero, hval, zero_mul32 hflush, zero_sub32_zero,
      posZero_add32_posZero]
  have hstate2 : bqState2 ftz CoefSet.identity (val32 x) (val32 x) = val32 0#32 := by
    simp only [bqState2, CoefSet.identity, hval, zero_mul32 hflush, zero_sub32_zero]
  have hnan : isNaN32 x = false := by rw [isNaN32, hval]; rfl
  rw [bq, hout, hstate1, hstate2, round32_val32 _ _ hnan, round32_val32 _ _ rfl, round32_val32 _ _ rfl]
  rfl

/-- A section that gives the sample on its way and its own delay words back changes nothing of the flow. -/
theorem runSection_fixed {ftz : Bool} {n : Nat} {bank : Vector CoefSet 9} {sec : Fin 9} {p : Flow}
    (h : bq ftz (n + 3 * sec.val) bank[sec] p.2[sec] p.1 = (p.1, p.2[sec])) : runSection ftz n bank sec p = p := by
  rw [Fin.getElem_fin, Fin.getElem_fin] at h
  simp [runSection, h]

/-- The chain gives a sample back that every processed section does, and leaves the delay state as it is. -/
theorem chain_fixed {ftz : Bool} {s : State} {x : Word}
    (h : ∀ (sec : Fin 9) (n : Nat), bq ftz n s.bank[sec] s.delay[sec] x = (x, s.delay[sec])) :
    chain ftz s x = (x, s.delay) := by
  rw [chain_eq_pass]
  refine List.foldl_fixed' (fun sec => ?_) _
  have hrun : runSection ftz s.draws s.bank sec (x, s.delay) = (x, s.delay) := runSection_fixed (h sec _)
  rw [sectionPass, hrun, ite_self]

/-- V-P3: the first section after reset makes +0.0 of −0.0, whatever FTZ is. -/
theorem chain_reset_negZero (ftz : Bool) : (chain ftz State.reset 0x80000000#32).1 = 0x00000000#32 := by
  revert ftz
  decide +kernel

/-- Settles O44: no section changes the sample or its delay words, so the chain does not. -/
theorem identityChainPassesFiniteSamples : Obligations.IdentityChainPassesFiniteSamples := by
  refine ⟨fun s x hbank hdelay hfin hx hsub => ?_, _, exec_proc _ _, ?_⟩
  · have hchain : chain Config.ftz s x = (x, s.delay) := chain_fixed fun sec n => by
      rw [hbank, hdelay]
      exact bq_identity_finite hfin hx hsub n
    rw [exec_proc, State.process, hchain]
    rfl
  · rw [State.process_outbox, chain_reset_negZero]
    rfl

end Machine

end Sys2Proof
end
